-- ==== Sys2Proof/Word.lean ====
section
/-! DEFINITION. The widths of the Polynomial Engine and the fixed constants of rule R6 (00_scope.md). -/

namespace Sys2Proof

/-- A byte of BUF or of the host address space (R23, R50). -/
abbrev Byte := BitVec 8

/-- A stored coefficient: 16 bits, two's complement (R6, R20). -/
abbrev Coef := BitVec 16

/-- A register, a host data word or a command word (R33, R80). -/
abbrev Word := BitVec 32

/-- A slot field of a command word: an unsigned index 0..15 (R80, R81). -/
abbrev Slot := BitVec 4

/-- The modulus (R6). -/
abbrev q : Nat := 3329

/-- Coefficients per polynomial (R6). -/
abbrev ringDegree : Nat := 256

/-- Bytes of BUF, which is the 12-bit polynomial encoding (R6, R23). -/
abbrev bufBytes : Nat := 384

/-- HALFQ of R6: q/2, floor. -/
abbrev halfQ : Nat := 1664

/-- MSGONE of R6: (q+1)/2. -/
abbrev msgOne : Nat := 1665

/-- FMONT of R6: 2^32 mod q. -/
abbrev fmont : Nat := 1353

/-- `wrap16` of R9 as a 16-bit pattern: the coefficient congruent to v modulo 2^16. -/
def wrap16 (v : Int) : Coef := BitVec.ofInt 16 v

end Sys2Proof
end

