-- ==== Sys2Proof/Config.lean ====
section
/-! DEFINITION. What an implementation fixes and what the spec leaves open. Each constant below has no body:
nothing in Lean can evaluate it, so a statement about it holds for every value. `Machine/Collab.lean` shapes
them so that exactly the collaborators the contracts of R120 to R124 allow are left. -/

namespace Sys2Proof

/-- NPOLY of the machine `State.reset` describes: the spec's default (R7). DESIGN CHOICE, log entry 2. -/
def Config.npolyDefault : Nat := 8

/-- The unspecified byte of draw n at host address a (`freeByte n a`), for unwritten data (R35). Free value, log entry 1. -/
opaque Config.freeByte : Nat → Nat → Byte

/-- BARRETT's one open bit per input: whether it answers x mod q + q where that is below 4096 (R122, D19).
Free value, log entry 3. -/
opaque Config.barrettHigh : Coef → Bool

/-- MONT's one open bit per input in its contract interval: whether a nonzero residue is answered as its
negative representative (R123, D19). Free value, log entry 3. -/
opaque Config.montNegative : Word → Bool

/-- MONT outside its contract interval: "only required to be a function" (R123). Free value, log entry 3. -/
opaque Config.montOutside : Word → Coef

/-- MONT_RINV is a unit mod q (R7, R123): this number selects which. Free value, log entry 3. -/
opaque Config.montRinvIndex : Nat

/-- TE_NTT of 256 values, its value at an index (R120, D20). Free value, log entry 3. -/
opaque Config.teNtt : List Coef → Nat → Coef

/-- TE_INVNTT of 256 values, its value at an index (R120, D20). Free value, log entry 3. -/
opaque Config.teInvntt : List Coef → Nat → Coef

/-- TE_BASEMUL on (a0, a1), (b0, b1), zeta, in that order (R121, D20). Free value, log entry 3. -/
opaque Config.teBasemul : Coef → Coef → Coef → Coef → Coef → Coef × Coef

/-- BM_SCALE is a nonzero residue mod q (R121): this number selects which. Free value, log entry 3. -/
opaque Config.bmScaleIndex : Nat

/-- The twiddle table before its range contract is applied (R124, D36). Free value, log entry 3. -/
opaque Config.zetaEntry : Nat → Coef

end Sys2Proof
end

