-- ==== Sys2Proof/Machine/State.lean ====
section
/-! DEFINITION. The state of the engine as plain data (10_state.md), the agents' moves, the reasons a step can
stop, and the state after hardware reset (R34). -/

namespace Sys2Proof.Machine

/-- The contents of the host address space behind the BUF and slot windows (R51): a cell per *written* byte.
A byte with no cell is *unwritten* (R35). Log entry 1. -/
abbrev Memory := List Host.Cell

/-- The canonical form: addresses strictly rising. An unlisted address holds no value (R35), so no cell can
repeat what an unlisted address reads as. -/
abbrev Memory.wf (m : Memory) : Prop := m.Pairwise fun x y => x.1 < y.1

/-- Which external collaborators are attached (R7, D19, D20): `conforming` are any that meet the contracts of
R120 to R124 (free values of Config), `defaults` are the spec's default instantiation (93 I-GK1 to I-GK6).
Log entry 3. -/
inductive Collab where
  | conforming
  | defaults
  deriving DecidableEq, Repr

/-- te_op: 0 = forward NTT, 1 = inverse NTT (R33, R120). -/
inductive TeOp where
  | forward
  | inverse
  deriving DecidableEq, Repr

/-- One request on the base multiplier port (R33, R121). An operand that was unwritten has no value. -/
structure BmRequest where
  a0 : Option Coef
  a1 : Option Coef
  b0 : Option Coef
  b1 : Option Coef
  zeta : Coef
  deriving DecidableEq, Repr

/-- The pending external request of the in-flight command (R25, R34): none, one transform (R120), or the
basemul requests still unanswered, oldest first (R121, R125). -/
inductive Ext where
  | none
  | transform (op : TeOp)
  | basemul (pending : List BmRequest)
  deriving DecidableEq, Repr

/-- A host request (R33): h_we, h_addr, h_size, h_wdata. -/
structure BusReq where
  we : Bool
  addr : BitVec 14
  size : BitVec 2
  wdata : Word
  deriving DecidableEq, Repr

/-- The response of one request (R33): h_rsp_rdata and h_rsp_err. -/
structure BusRsp where
  rdata : Word
  err : Bool
  deriving DecidableEq, Repr

/-- One move of an agent (R14) or of the integration. The order of the moves is the environment's choice
(R62, R251, L3-5). Log entry 6. -/
inductive Move where
  /-- the host's access is performed (R61) -/
  | host (r : BusReq)
  /-- LAT(op) of the in-flight command has elapsed (R104, R251) -/
  | complete
  /-- the engine pulses te_done (R120) -/
  | teDone
  /-- the base multiplier answers its oldest request (R121) -/
  | bmRsp
  /-- the engine writes one TB entry through te_tb_we (R33, R120) -/
  | tbWrite (k : BitVec 8) (v : Coef)
  /-- the level of rst_n changes (R240) -/
  | rst (level : Bool)
  /-- the integration changes a ZETA entry after rst_n was released (R243, I10) -/
  | zetaChange
  /-- the engine breaks its contract during its own transform (R120, I11) -/
  | engineBreach
  deriving DecidableEq, Repr

/-- Why the machine stops. No command and no host access raises any of these (R210): both are environments that
break the integration contract, after which the spec guarantees nothing. -/
inductive Fault where
  /-- raised by `Move.zetaChange` in Machine/Sequencer.lean: "The spec guarantees nothing of such a run" (R243,
  I10). Safe: the model stops where the hardware goes on. -/
  | zetaChanged
  /-- raised by `Move.engineBreach` in Machine/Sequencer.lean: the engine's result is one "the model cannot
  predict" (I11, R120). Safe: the model stops where the hardware goes on. -/
  | engineBreach
  deriving DecidableEq, Repr

/-- Why the machine has no meaning for an instruction. -/
inductive Refusal where
  /-- an arm of exec without a meaning. Raised by no arm: every command has its meaning. Safe. -/
  | notModelled (mnemonic : String)
  deriving DecidableEq, Repr

/-- The engine's state. -/
structure State where
  /-- NPOLY - 1: NPOLY is a parameter in 1..16 (R7), fixed for a machine -/
  slotsM1 : Fin 16
  /-- the attached collaborators, fixed for a machine (R7) -/
  collab : Collab
  /-- slots P and byte buffer BUF, by host byte address (R20, R23, R51) -/
  mem : Memory
  /-- the transform buffer TB (R24); an unwritten entry has no value -/
  tb : List (Option Coef)
  /-- CTRL.IE (R28) -/
  ie : Bool
  /-- STATUS.BUSY (R29) -/
  busy : Bool
  /-- STATUS.DONE (R29) -/
  done : Bool
  /-- STATUS.ILL (R29) -/
  ill : Bool
  /-- STATUS.REJ (R29) -/
  rej : Bool
  /-- CMDR (R30): while BUSY = 1, the word of the in-flight command (R25) -/
  cmdr : Word
  /-- the in-flight command's operand snapshot S of all slots and BUF (R25, R100, R101); empty when idle -/
  snap : Memory
  /-- the pending external request (R25, R34) -/
  ext : Ext
  /-- the response port (R33): the response of the access performed in the last step, if it performed one -/
  rsp : Option BusRsp
  /-- the level of rst_n (R33, R240) -/
  rstN : Bool
  /-- the environment's schedule: the moves still to come, next first (model's own field, log entry 6) -/
  moves : List Move
  /-- the index of the next draw of free values (model's own field, log entry 1) -/
  freeIx : Nat
  deriving DecidableEq, Repr

/-- NPOLY (R7). -/
def State.npoly (s : State) : Nat := s.slotsM1.val + 1

/-- TB with no entry written (R34). -/
def tbUnwritten : List (Option Coef) := List.replicate ringDegree none

/-- The engine right after a hardware reset (R34, R240, R242): idle, no flag set, IE = 0, CMDR = 0, no command
in flight, no request pending, every slot, BUF byte and TB entry unwritten, rst_n released. NPOLY is the
default 8 (R7). -/
def State.reset : State where
  slotsM1 := ⟨Config.npolyDefault - 1, by decide⟩
  collab := .conforming
  mem := []
  tb := tbUnwritten
  ie := false
  busy := false
  done := false
  ill := false
  rej := false
  cmdr := 0
  snap := []
  ext := .none
  rsp := none
  rstN := true
  moves := []
  freeIx := 0

end Sys2Proof.Machine
end

