-- ==== Sys2Proof/Machine/Collab.lean ====
section
/-! DEFINITION. The external collaborators (R120 to R124). For `conforming`, each is built from a free value of
Config so that it ranges over exactly the functions its contract allows; for `defaults`, it is the default
instantiation of 93 Part 2, which a claim uses only by naming it. Log entries 3 and 4. -/

namespace Sys2Proof.Machine

/-- I-GK1: t = (20159 * a) >> 26, wrap16(a - t * 3329). -/
def barrettDefault (a : Coef) : Coef :=
  let t := (20159 * a.toInt) / 67108864
  wrap16 (a.toInt - t * 3329)

/-- A function that meets BARRETT_CONGR and BARRETT_RANGE (R122): on x it answers x mod q or, where `high` says so
and it is still below 4096, x mod q + q. Each choice of `high` meets the contract, and every conforming function
is one of these. -/
def barrettOf (high : Coef → Bool) (x : Coef) : Coef :=
  let r := (x.toInt % 3329).toNat
  if r + 3329 < 4096 ∧ high x = true then BitVec.ofNat 16 (r + 3329) else BitVec.ofNat 16 r

/-- BARRETT (R122). -/
def barrett (c : Collab) (x : Coef) : Coef :=
  match c with
  | .conforming => barrettOf Config.barrettHigh x
  | .defaults => barrettDefault x

/-- I-GK2: u = wrap16(a * 62209), wrap16((a - u * 3329) >> 16). -/
def montDefault (a : Word) : Coef :=
  let u := (wrap16 (a.toInt * 62209)).toInt
  wrap16 ((a.toInt - u * 3329) / 65536)

/-- MONT_RINV (R7, R123): any nonzero residue mod q, or 2^-16 mod q = 169 for the defaults. -/
def montRinv (c : Collab) : Nat :=
  match c with
  | .conforming => Config.montRinvIndex % 3328 + 1
  | .defaults => 169

/-- MONT's contract interval: -q * 2^15 <= y < q * 2^15 (R123). -/
def montInRange (y : Word) : Bool := -109084672 ≤ y.toInt ∧ y.toInt < 109084672

/-- A function that meets MONT_CONGR and MONT_RANGE for the unit `rinv` (R123): inside the interval the residue
y * rinv mod q or, where `negative` says so and it is nonzero, that minus q; outside it, anything. -/
def montOf (rinv : Nat) (negative : Word → Bool) (outside : Word → Coef) (y : Word) : Coef :=
  if montInRange y = true then
    let r := y.toInt * (rinv : Int) % 3329
    if r ≠ 0 ∧ negative y = true then wrap16 (r - 3329) else wrap16 r
  else outside y

/-- MONT (R123). -/
def mont (c : Collab) (y : Word) : Coef :=
  match c with
  | .conforming => montOf (montRinv .conforming) Config.montNegative Config.montOutside y
  | .defaults => montDefault y

/-- I-GK4: the default twiddle table. -/
def zetaDefaultTable : List Nat :=
  [2285, 2571, 2970, 1812, 1493, 1422, 287, 202, 3158, 622, 1577, 182, 962, 2127, 1855, 1468] ++
  [573, 2004, 264, 383, 2500, 1458, 1727, 3199, 2648, 1017, 732, 608, 1787, 411, 3124, 1758] ++
  [1223, 652, 2777, 1015, 2036, 1491, 3047, 1785, 516, 3321, 3009, 2663, 1711, 2167, 126, 1469] ++
  [2476, 3239, 3058, 830, 107, 1908, 3082, 2378, 2931, 961, 1821, 2604, 448, 2264, 677, 2054] ++
  [2226, 430, 555, 843, 2078, 871, 1550, 105, 422, 587, 177, 3094, 3038, 2869, 1574, 1653] ++
  [3083, 778, 1159, 3182, 2552, 1483, 2727, 1119, 1739, 644, 2457, 349, 418, 329, 3173, 3254] ++
  [817, 1097, 603, 610, 1322, 2044, 1864, 384, 2114, 3193, 1218, 1994, 2455, 220, 2142, 1670] ++
  [2144, 1799, 2051, 794, 1819, 2475, 2459, 478, 3221, 3021, 996, 991, 958, 1869, 1522, 1628]

/-- A table that keeps R124's range contract: an entry is any value in [-32767, 32767] (-32768 is replaced). -/
def zetaOf (entry : Nat → Coef) (k : Nat) : Coef := if entry k = 0x8000#16 then 0#16 else entry k

/-- ZETA[k] (R124): a constant table. -/
def zeta (c : Collab) (k : Nat) : Coef :=
  match c with
  | .conforming => zetaOf Config.zetaEntry k
  | .defaults => BitVec.ofNat 16 (zetaDefaultTable.getD k 0)

/-- I-GK3: fqmul(a, b) = MONT(sext32(a) * sext32(b)). -/
def fqmulDefault (a b : Coef) : Coef := montDefault (BitVec.ofInt 32 (a.toInt * b.toInt))

/-- I-GK3: the default TE_BASEMUL; the additions wrap at 16 bits. -/
def basemulDefault (a0 a1 b0 b1 z : Coef) : Coef × Coef :=
  (fqmulDefault (fqmulDefault a1 b1) z + fqmulDefault a0 b0, fqmulDefault a0 b1 + fqmulDefault a1 b0)

/-- The type of a base multiplier: (a0, a1), (b0, b1) and zeta to (r0, r1) (R121). -/
abbrev BaseMul := Coef → Coef → Coef → Coef → Coef → Coef × Coef

/-- BM_SCALE (R121): a fixed nonzero residue mod q, any one, or 2^-16 mod q = 169 for the defaults. Only the named
property BASEMUL_CORRECT speaks of it. -/
def bmScale (c : Collab) : Nat :=
  match c with
  | .conforming => Config.bmScaleIndex % 3328 + 1
  | .defaults => 169

/-- TE_BASEMUL (R121): any pure function, or the default one. -/
def basemul (c : Collab) : BaseMul := fun a0 a1 b0 b1 z =>
  match c with
  | .conforming => Config.teBasemul a0 a1 b0 b1 z
  | .defaults => basemulDefault a0 a1 b0 b1 z

/-- I-GK5 on one block of 2 * 2^d coefficients that uses ZETA[k], and on the blocks below it. The k-th block in
I-GK5's order has the blocks 2k and 2k+1 as its halves. -/
def nttDefaultBlock : Nat → Nat → List Coef → List Coef
  | 0, _, r => r
  | d + 1, k, r =>
    let lo := r.take (2 ^ (d + 1))
    let t := (r.drop (2 ^ (d + 1))).map (fqmulDefault (zeta .defaults k))
    nttDefaultBlock d (2 * k) (List.zipWith (· + ·) lo t) ++
      nttDefaultBlock d (2 * k + 1) (List.zipWith (· - ·) lo t)

/-- I-GK6 on one block of 2 * 2^d coefficients that uses ZETA[k], after the blocks below it. I-GK6 counts k
down, so the block's halves use 2k+1 and 2k. -/
def invnttDefaultBlock : Nat → Nat → List Coef → List Coef
  | 0, _, r => r
  | d + 1, k, r =>
    let lo := invnttDefaultBlock d (2 * k + 1) (r.take (2 ^ (d + 1)))
    let hi := invnttDefaultBlock d (2 * k) (r.drop (2 ^ (d + 1)))
    List.zipWith (fun x y => barrettDefault (x + y)) lo hi ++
      List.zipWith (fun x y => fqmulDefault (zeta .defaults k) (y - x)) lo hi

/-- The transform the engine computes on 256 values (R120): TE_NTT or TE_INVNTT. -/
def transform (c : Collab) (op : TeOp) (v : List Coef) : List Coef :=
  match c, op with
  | .conforming, .forward => (List.range ringDegree).map (Config.teNtt v)
  | .conforming, .inverse => (List.range ringDegree).map (Config.teInvntt v)
  | .defaults, .forward => nttDefaultBlock 7 1 v
  | .defaults, .inverse => (invnttDefaultBlock 7 1 v).map fun x => fqmulDefault x 1441#16

end Sys2Proof.Machine
end

