-- ==== Sys2Proof/Syntax.lean ====
section
/-! DEFINITION. The commands: one constructor per row of spec/opcode_table.json (R82), with the slot
fields its form uses (R83), in the order of the assembler syntax (R87). -/

namespace Sys2Proof

/-- A command of the engine (R82). -/
inductive Instr where
  | nop
  | tobytes (rs1 : Slot)
  | frombytes (rd : Slot)
  | compress (rs1 : Slot)
  | decompress (rd : Slot)
  | ntt (rd rs1 : Slot)
  | invntt (rd rs1 : Slot)
  | pmul (rd rs1 rs2 : Slot)
  | pmac (rd rs1 rs2 : Slot)
  | frommont (rd rs1 : Slot)
  | reduce (rd rs1 : Slot)
  | csubq (rd rs1 : Slot)
  | add (rd rs1 rs2 : Slot)
  | sub (rd rs1 rs2 : Slot)
  | tomsg (rs1 : Slot)
  | frommsg (rd : Slot)
  deriving DecidableEq, Repr

end Sys2Proof
end

