-- ==== Sys2Proof/WellFormed.lean ====
section
/-! DEFINITION. Which commands a block with NPOLY slots has: every slot field the form uses is below NPOLY
(R84). The other conditions of R84 (reserved bits and unused fields are 0) cannot be broken by an `Instr`:
the decoder checks them on the word. -/

namespace Sys2Proof

/-- The slot fields a command uses (R83). -/
def Instr.slots : Instr → List Slot
  | .nop => []
  | .tobytes rs1 => [rs1]
  | .frombytes rd => [rd]
  | .compress rs1 => [rs1]
  | .decompress rd => [rd]
  | .ntt rd rs1 => [rd, rs1]
  | .invntt rd rs1 => [rd, rs1]
  | .pmul rd rs1 rs2 => [rd, rs1, rs2]
  | .pmac rd rs1 rs2 => [rd, rs1, rs2]
  | .frommont rd rs1 => [rd, rs1]
  | .reduce rd rs1 => [rd, rs1]
  | .csubq rd rs1 => [rd, rs1]
  | .add rd rs1 rs2 => [rd, rs1, rs2]
  | .sub rd rs1 rs2 => [rd, rs1, rs2]
  | .tomsg rs1 => [rs1]
  | .frommsg rd => [rd]

/-- "every used slot field of w is < NPOLY" (R84). -/
def Instr.wf (npoly : Nat) (i : Instr) : Bool := i.slots.all fun r => r.toNat < npoly

end Sys2Proof
end

