-- ==== Sys2Proof/Decode.lean ====
section
/-! DEFINITION. The command word (R80 to R86): the decoder, total on every word and every list of bytes,
which rejects by name, and the encoder written from the same table. -/

namespace Sys2Proof

/-- Why a word is no legal command (R85, R211). `notOneWord` is no illegal word: a CMD write carries exactly
one 4-byte word (R52, R86), and a list of another length is no command word at all. -/
inductive IllReason where
  | undefinedOpc
  | reservedNonzero
  | unusedNonzero
  | slotOutOfRange
  | notOneWord
  deriving DecidableEq, Repr

/-- The decoder's answer: a command, or ILL with its reason (R84). -/
inductive Decoded where
  | cmd (i : Instr)
  | ill (why : IllReason)
  deriving DecidableEq, Repr

/-- The command in a decoder's answer, if there is one. -/
def Decoded.instr? : Decoded → Option Instr
  | .cmd i => some i
  | .ill _ => none

/-- OPC, bits [7:0] (R80). -/
def fieldOpc (w : Word) : BitVec 8 := w.extractLsb' 0 8

/-- RD, bits [11:8] (R80). -/
def fieldRd (w : Word) : Slot := w.extractLsb' 8 4

/-- RS1, bits [15:12] (R80). -/
def fieldRs1 (w : Word) : Slot := w.extractLsb' 12 4

/-- RS2, bits [19:16] (R80). -/
def fieldRs2 (w : Word) : Slot := w.extractLsb' 16 4

/-- RSV, bits [31:20] (R80). -/
def fieldRsv (w : Word) : BitVec 12 := w.extractLsb' 20 12

/-- Form N: RD, RS1 and RS2 must be 0 (R83). -/
def formN (w : Word) (i : Instr) : Decoded :=
  if fieldRd w = 0#4 ∧ fieldRs1 w = 0#4 ∧ fieldRs2 w = 0#4 then .cmd i else .ill .unusedNonzero

/-- Form S: RD and RS2 must be 0 (R83). -/
def formS (w : Word) (mk : Slot → Instr) : Decoded :=
  if fieldRd w = 0#4 ∧ fieldRs2 w = 0#4 then .cmd (mk (fieldRs1 w)) else .ill .unusedNonzero

/-- Form D: RS1 and RS2 must be 0 (R83). -/
def formD (w : Word) (mk : Slot → Instr) : Decoded :=
  if fieldRs1 w = 0#4 ∧ fieldRs2 w = 0#4 then .cmd (mk (fieldRd w)) else .ill .unusedNonzero

/-- Form R2: RS2 must be 0 (R83). -/
def formR2 (w : Word) (mk : Slot → Slot → Instr) : Decoded :=
  if fieldRs2 w = 0#4 then .cmd (mk (fieldRd w) (fieldRs1 w)) else .ill .unusedNonzero

/-- Form R3: every slot field is used (R83). -/
def formR3 (w : Word) (mk : Slot → Slot → Slot → Instr) : Decoded :=
  .cmd (mk (fieldRd w) (fieldRs1 w) (fieldRs2 w))

/-- The row of R82 that OPC selects, with its form's must-be-zero fields checked. -/
def decodeOpc (w : Word) : Decoded :=
  match fieldOpc w with
  | 0x00#8 => formN w .nop
  | 0x10#8 => formS w .tobytes
  | 0x11#8 => formD w .frombytes
  | 0x20#8 => formS w .compress
  | 0x21#8 => formD w .decompress
  | 0x30#8 => formR2 w .ntt
  | 0x31#8 => formR2 w .invntt
  | 0x32#8 => formR3 w .pmul
  | 0x33#8 => formR3 w .pmac
  | 0x34#8 => formR2 w .frommont
  | 0x40#8 => formR2 w .reduce
  | 0x41#8 => formR2 w .csubq
  | 0x42#8 => formR3 w .add
  | 0x43#8 => formR3 w .sub
  | 0x50#8 => formS w .tomsg
  | 0x51#8 => formD w .frommsg
  | _ => .ill .undefinedOpc

/-- The part of R84 that does not depend on NPOLY: which command, with which slot fields, the word names. -/
def decodeWord (w : Word) : Decoded :=
  if fieldRsv w = 0#12 then decodeOpc w else .ill .reservedNonzero

/-- R84 whole: the word's command if every used slot field is below NPOLY, else ILL. -/
def decode (npoly : Nat) (w : Word) : Decoded :=
  match decodeWord w with
  | .cmd i => if i.wf npoly then .cmd i else .ill .slotOutOfRange
  | .ill r => .ill r

/-- A command word from the four bytes of a CMD write, lowest address first (R55). -/
def decodeBytes (bs : List Byte) : Decoded :=
  match bs with
  | [b0, b1, b2, b3] => decodeWord (b3 ++ b2 ++ b1 ++ b0)
  | _ => .ill .notOneWord

/-- `word = (RS2 << 16) | (RS1 << 12) | (RD << 8) | OPC` (R80). -/
def packWord (opc : BitVec 8) (rd rs1 rs2 : Slot) : Word := 0#12 ++ rs2 ++ rs1 ++ rd ++ opc

/-- The opcode of a command (R82). -/
def Instr.opc : Instr → BitVec 8
  | .nop => 0x00
  | .tobytes _ => 0x10
  | .frombytes _ => 0x11
  | .compress _ => 0x20
  | .decompress _ => 0x21
  | .ntt _ _ => 0x30
  | .invntt _ _ => 0x31
  | .pmul _ _ _ => 0x32
  | .pmac _ _ _ => 0x33
  | .frommont _ _ => 0x34
  | .reduce _ _ => 0x40
  | .csubq _ _ => 0x41
  | .add _ _ _ => 0x42
  | .sub _ _ _ => 0x43
  | .tomsg _ => 0x50
  | .frommsg _ => 0x51

/-- The word of a command (R80, R83). -/
def encode (i : Instr) : Word :=
  match i with
  | .nop => packWord i.opc 0 0 0
  | .tobytes rs1 => packWord i.opc 0 rs1 0
  | .frombytes rd => packWord i.opc rd 0 0
  | .compress rs1 => packWord i.opc 0 rs1 0
  | .decompress rd => packWord i.opc rd 0 0
  | .ntt rd rs1 => packWord i.opc rd rs1 0
  | .invntt rd rs1 => packWord i.opc rd rs1 0
  | .pmul rd rs1 rs2 => packWord i.opc rd rs1 rs2
  | .pmac rd rs1 rs2 => packWord i.opc rd rs1 rs2
  | .frommont rd rs1 => packWord i.opc rd rs1 0
  | .reduce rd rs1 => packWord i.opc rd rs1 0
  | .csubq rd rs1 => packWord i.opc rd rs1 0
  | .add rd rs1 rs2 => packWord i.opc rd rs1 rs2
  | .sub rd rs1 rs2 => packWord i.opc rd rs1 rs2
  | .tomsg rs1 => packWord i.opc 0 rs1 0
  | .frommsg rd => packWord i.opc rd 0 0

/-- A word's four bytes as a little-endian host stores them (R55). -/
def bytesOfWord (w : Word) : List Byte :=
  [w.extractLsb' 0 8, w.extractLsb' 8 8, w.extractLsb' 16 8, w.extractLsb' 24 8]

/-- The command word whose low nbits bits are those of w and whose other bits are 0. -/
def tableWord (nbits w : Nat) : Word := BitVec.ofNat 32 (w % 2 ^ nbits)

/-- What the decoder reads from the word of an opcode-table row. The slot fields are read at every value the
field admits; NPOLY's check (R84) is `decode`'s, against the state's NPOLY. -/
def decodeTableWord (nbits w : Nat) : Option Instr :=
  (decodeBytes (bytesOfWord (tableWord nbits w))).instr?

/-- A row of R82 as R83's mask and pattern: a word is of the row when `w &&& mask = opc`. -/
structure Row where
  mask : Word
  opc : Word
  deriving DecidableEq, Repr

/-- Masks of the five forms (R83). -/
def maskN : Word := 0xFFFFFFFF
def maskS : Word := 0xFFFF0FFF
def maskD : Word := 0xFFFFF0FF
def maskR2 : Word := 0xFFFF00FF
def maskR3 : Word := 0xFFF000FF

/-- The opcode table of R82 and R83, in the table's order. -/
def opcodeTable : List Row :=
  [⟨maskN, 0x00⟩, ⟨maskS, 0x10⟩, ⟨maskD, 0x11⟩, ⟨maskS, 0x20⟩, ⟨maskD, 0x21⟩, ⟨maskR2, 0x30⟩,
   ⟨maskR2, 0x31⟩, ⟨maskR3, 0x32⟩, ⟨maskR3, 0x33⟩, ⟨maskR2, 0x34⟩, ⟨maskR2, 0x40⟩, ⟨maskR2, 0x41⟩,
   ⟨maskR3, 0x42⟩, ⟨maskR3, 0x43⟩, ⟨maskS, 0x50⟩, ⟨maskD, 0x51⟩]

/-- A word matches a row of the table (R84). -/
def Row.matchesWord (r : Row) (w : Word) : Bool := (w &&& r.mask) == r.opc

end Sys2Proof
end

