-- ==== Sys2Proof/Machine/Flags.lean ====
section
/-! DEFINITION. The flags and the register views the host reads (R27 to R31): ID, CTRL and STATUS as words, irq,
and write-1-to-clear. The engine has no arithmetic flags (R32). -/

namespace Sys2Proof.Machine

/-- A flag as a one-bit field. -/
def bit (b : Bool) : BitVec 1 := BitVec.ofBool b

/-- ID: {REV = 1, NSLOT = NPOLY, Q = 3329} (R27). -/
def State.idWord (s : State) : Word := 0x01#8 ++ BitVec.ofNat 8 s.npoly ++ 0x0D01#16

/-- CTRL as it reads: IE in bit 0; SRST and the reserved bits read 0 (R28). -/
def State.ctrlWord (s : State) : Word := 0#31 ++ bit s.ie

/-- STATUS: BUSY, DONE, ILL, REJ in bits 0 to 3; the reserved bits read 0 (R29). -/
def State.statusWord (s : State) : Word := 0#28 ++ bit s.rej ++ bit s.ill ++ bit s.done ++ bit s.busy

/-- irq = CTRL.IE & (STATUS.DONE | STATUS.ILL | STATUS.REJ) (R31, R219). -/
def State.irq (s : State) : Bool := s.ie && (s.done || s.ill || s.rej)

/-- Write-1-to-clear on one flag: writing 0 leaves it unchanged (R29). -/
def w1c (flag wbit : Bool) : Bool := flag && !wbit

end Sys2Proof.Machine
end

