-- ==== Sys2Proof/Machine/Ops.lean ====
section
/-! DEFINITION. The named operations every command and every host access is made of: memory (R51 to R58), the
interface events ILL and REJ and their acknowledgement (R211, R212, R217), acceptance's and completion's common
parts (R100, R103), the resets (R240, R241), and the frame of a command (R101). -/

namespace Sys2Proof.Machine

/-! ### Memory -/

/-- Host address of BUF[0] (R51). -/
def bufBase : Nat := 0x0800

/-- Host address of coefficient 0 of slot r (R51, R54). -/
def slotBase (r : Nat) : Nat := 0x1000 + 0x200 * r

/-- The byte at an address, if it is written (R35). -/
def Memory.read : Memory → Nat → Option Byte
  | [], _ => none
  | (k, b) :: t, a => if k = a then some b else Memory.read t a

/-- The cells of consecutive bytes from an address on. -/
def cellsFrom : Nat → List Byte → Memory
  | _, [] => []
  | a, b :: bs => (a, b) :: cellsFrom (a + 1) bs

/-- Write consecutive bytes from an address on: one step, all other bytes as before (R58, R101). -/
def Memory.writeRun (m : Memory) (a : Nat) (bs : List Byte) : Memory :=
  m.filter (fun c => c.1 < a) ++ cellsFrom a bs ++ m.filter (fun c => a + bs.length ≤ c.1)

/-- Consecutive bytes from an address on, unwritten ones without a value. -/
def Memory.readRun (m : Memory) (a n : Nat) : List (Option Byte) :=
  (List.range n).map fun j => m.read (a + j)

/-- Bytes with the unwritten ones filled by unspecified values: byte j of draw n at address a (R35).
Log entry 1. -/
def fillFree (n : Nat) : Nat → List (Option Byte) → List Byte
  | _, [] => []
  | a, ob :: t => ob.getD (Config.freeByte n a) :: fillFree n (a + 1) t

/-- The n-byte little-endian value of bytes, right-justified in the data word (R55). -/
def wordOfBytes : List Byte → Word
  | [] => 0
  | b :: bs => (wordOfBytes bs <<< 8) ||| b.setWidth 32

/-- The low n bytes of a data word, lowest address first (R55). -/
def bytesOfData (n : Nat) (v : Word) : List Byte :=
  (List.range n).map fun j => v.extractLsb' (8 * j) 8

/-- A command's result bytes, put at an address in one step; a byte computed from unwritten data gets an
unspecified value and is written from then on (R35, R101). -/
def State.writeResult (a : Nat) (bs : List (Option Byte)) (s : State) : State :=
  { s with mem := s.mem.writeRun a (fillFree s.freeIx a bs), freeIx := s.freeIx + 1 }

/-! ### The host response port -/

/-- The one response of an access (R33). -/
def State.respond (s : State) (data : Word) (err : Bool) : State := { s with rsp := some ⟨data, err⟩ }

/-! ### Interface events and their acknowledgement -/

/-- ILL (R211): CMDR records the word, STATUS.ILL is set, nothing else changes. -/
def State.raiseIll (s : State) (w : Word) : State := { s with cmdr := w, ill := true }

/-- REJ (R212): STATUS.REJ is set, nothing is recorded. -/
def State.raiseRej (s : State) : State := { s with rej := true }

/-- Acknowledgement, which stands in the place of a trap return (R217): a STATUS write clears the flags whose
bits are 1; BUSY and the reserved bits ignore it (R29). -/
def State.acknowledge (s : State) (v : Word) : State :=
  { s with done := w1c s.done (v.getLsbD 1), ill := w1c s.ill (v.getLsbD 2), rej := w1c s.rej (v.getLsbD 3) }

/-! ### Acceptance and completion -/

/-- Acceptance of a legal command word (R100): CMDR takes it, the operands are snapshot, BUSY is set. -/
def State.accept (s : State) (w : Word) : State := { s with cmdr := w, snap := s.mem, busy := true }

/-- No command in flight and no request pending. -/
def State.toIdle (s : State) : State := { s with busy := false, snap := [], ext := .none }

/-- Completion's flags (R103): BUSY is cleared and DONE set, with the results already in place. -/
def State.finish (s : State) : State := { s.toIdle with done := true }

/-- A command: if the block has every slot it names, its results and its completion in one step (R101, R103);
else the word is illegal and ILL is raised (R84, R85, R211), with no result and no completion. -/
def State.command (i : Instr) (results : State → State) (s : State) :
    Host.Outcome State Fault Refusal :=
  if i.wf s.npoly = true then .next (results s).finish else .next (s.toIdle.raiseIll (encode i))

/-! ### Resets -/

/-- Soft reset, performed while idle (R241): CTRL, STATUS and CMDR take their reset values; slots and BUF keep
their contents and their written or unwritten status. -/
def State.softReset (s : State) : State :=
  { s with ie := false, done := false, ill := false, rej := false, cmdr := 0 }

/-- rst_n = 0 (R240): registers take their reset values, a command in flight and its requests are abandoned,
slots, BUF and TB become unwritten. The parameters of the machine, the schedule and the index of free values
are not state of the block. -/
def State.hwReset (s : State) : State :=
  { State.reset with
    slotsM1 := s.slotsM1, collab := s.collab, rstN := false, moves := s.moves, freeIx := s.freeIx }

end Sys2Proof.Machine
end

