-- ==== Sys2Proof/Machine/Operands.lean ====
section
/-! DEFINITION. The operand forms of commands (R21, R23, R83): a source slot or BUF prefix read from the snapshot
(R101), a destination slot or BUF prefix, TB (R24, R120), and the coefficient functions the families share
(R110, R113, R115). A value computed from unwritten data has no value (R35). -/

namespace Sys2Proof.Machine

/-! ### Shared coefficient functions -/

/-- csubq (R110): one conditional subtraction of q, for every 16-bit x. -/
def csubq (x : Coef) : Coef := if (3329 : Int) ≤ x.toInt then wrap16 (x.toInt - 3329) else x

/-- u = zext(csubq(x)), the unsigned reading the rounding formulas use (R112, R113). -/
def canonU (x : Coef) : Nat := (csubq x).toNat

/-- add16 (R115). -/
def add16 (x y : Coef) : Coef := wrap16 (x.toInt + y.toInt)

/-- sub16 (R115). -/
def sub16 (x y : Coef) : Coef := wrap16 (x.toInt - y.toInt)

/-- A function of two operands, with no value where one of them is unwritten (R35). -/
def lift2 {α β γ : Type} (f : α → β → γ) (x : Option α) (y : Option β) : Option γ :=
  match x, y with
  | some a, some b => some (f a b)
  | _, _ => none

/-! ### Sources -/

/-- Coefficient i of slot r in a memory: low byte first (R54, R55). -/
def Memory.coef (m : Memory) (r : Slot) (i : Nat) : Option Coef :=
  lift2 (fun (hi lo : Byte) => hi ++ lo) (m.read (slotBase r.toNat + 2 * i + 1)) (m.read (slotBase r.toNat + 2 * i))

/-- The 256 coefficients of source slot r, from the snapshot (R101). -/
def State.srcPoly (s : State) (r : Slot) : List (Option Coef) :=
  (List.range ringDegree).map fun i => s.snap.coef r i

/-- The first n bytes of BUF, from the snapshot (R23, R101). -/
def State.srcBuf (s : State) (n : Nat) : List (Option Byte) := s.snap.readRun bufBase n

/-! ### Destinations -/

/-- Coefficients as bytes, low byte first (R55). -/
def coefBytes : List (Option Coef) → List (Option Byte)
  | [] => []
  | c :: cs => c.map (·.extractLsb' 0 8) :: c.map (·.extractLsb' 8 8) :: coefBytes cs

/-- Write the destination slot (R21). -/
def State.dstPoly (s : State) (r : Slot) (cs : List (Option Coef)) : State :=
  s.writeResult (slotBase r.toNat) (coefBytes cs)

/-- Write a prefix of BUF; the bytes outside it are unchanged (R23). -/
def State.dstBuf (s : State) (bs : List (Option Byte)) : State := s.writeResult bufBase bs

/-! ### TB and the base multiplier -/

/-- TB[i] <- P[RS1][i] (R120). -/
def State.tbLoad (s : State) (r : Slot) : State := { s with tb := s.srcPoly r }

/-- All values of a list, if each has one. -/
def allWritten : List (Option Coef) → Option (List Coef)
  | [] => some []
  | none :: _ => none
  | some c :: t => (allWritten t).map (c :: ·)

/-- TB <- TE_NTT(TB) or TE_INVNTT(TB) (R120). Every result depends on every input, so one unwritten input leaves
every result without a value (R35). -/
def State.tbTransform (s : State) (op : TeOp) : State :=
  { s with tb :=
      match allWritten s.tb with
      | some v => (transform s.collab op v).map some
      | none => tbUnwritten }

/-- The twiddle of pair k = 0..127 of PMUL's loop: +ZETA[64+i] for the first pair of block i, its 16-bit negation
for the second (R162, D21). -/
def pairZeta (c : Collab) (k : Nat) : Coef :=
  if k % 2 = 0 then zeta c (64 + k / 2) else wrap16 (-(zeta c (64 + k / 2)).toInt)

/-- The basemul request of pair k (R162): coefficients 2k and 2k+1 of both operands. -/
def State.bmRequest (s : State) (rs1 rs2 : Slot) (k : Nat) : BmRequest where
  a0 := s.snap.coef rs1 (2 * k)
  a1 := s.snap.coef rs1 (2 * k + 1)
  b0 := s.snap.coef rs2 (2 * k)
  b1 := s.snap.coef rs2 (2 * k + 1)
  zeta := pairZeta s.collab k

/-- The 128 requests of PMUL and PMAC in their fixed order (R125, R162). -/
def State.bmRequests (s : State) (rs1 rs2 : Slot) : List BmRequest :=
  (List.range 128).map (s.bmRequest rs1 rs2)

/-- The response of a base multiplier to a request (R121). -/
def bmResponse (bm : BaseMul) (r : BmRequest) : Option (Coef × Coef) :=
  match r.a0, r.a1, r.b0, r.b1 with
  | some a0, some a1, some b0, some b1 => some (bm a0 a1 b0 b1 r.zeta)
  | _, _, _, _ => none

/-- The responses' values in order: (r0, r1) of each pair (R162). -/
def pairCoefs : List (Option (Coef × Coef)) → List (Option Coef)
  | [] => []
  | p :: ps => p.map (·.1) :: p.map (·.2) :: pairCoefs ps

/-- The 256 values PMUL computes (R162), and PMAC accumulates (R163), with a base multiplier. -/
def State.products (s : State) (bm : BaseMul) (rs1 rs2 : Slot) : List (Option Coef) :=
  pairCoefs ((s.bmRequests rs1 rs2).map (bmResponse bm))

end Sys2Proof.Machine
end

