-- ==== Sys2Proof/Machine/Bus.lean ====
section
/-! DEFINITION. The host port (20_memory.md): address decoding, bus errors, register, BUF and slot accesses,
rejection while BUSY, and the acceptance of a command (R100). -/

namespace Sys2Proof.Machine

/-- The region an address lies in (R51). -/
inductive Region where
  | id
  | ctrl
  | status
  | cmd
  | buf
  | slot
  | unmapped
  deriving DecidableEq, Repr

/-- The address map of a block with NPOLY slots (R51). -/
def region (npoly a : Nat) : Region :=
  if a < 0x0004 then .id
  else if a < 0x0008 then .ctrl
  else if a < 0x000C then .status
  else if a < 0x0010 then .cmd
  else if a < 0x0800 then .unmapped
  else if a < 0x0980 then .buf
  else if a < 0x1000 then .unmapped
  else if a < slotBase npoly then .slot
  else .unmapped

/-- h_size: 0, 1, 2 are 1, 2, 4 bytes; 3 is illegal (R33). -/
def sizeBytes (size : BitVec 2) : Option Nat :=
  match size with
  | 0#2 => some 1
  | 1#2 => some 2
  | 2#2 => some 4
  | _ => none

/-- The access sizes a region allows (R51). -/
def Region.allows (r : Region) (n : Nat) : Bool :=
  match r with
  | .id => n == 4
  | .ctrl => n == 4
  | .status => n == 4
  | .cmd => n == 4
  | .buf => n == 1 || n == 2 || n == 4
  | .slot => n == 2 || n == 4
  | .unmapped => false

/-- The region and size of a legal access; none when it raises BusError (R56). -/
def BusReq.legal (npoly : Nat) (r : BusReq) : Option (Region × Nat) :=
  match sizeBytes r.size with
  | none => none
  | some n =>
    let reg := region npoly r.addr.toNat
    if reg.allows n = true ∧ r.addr.toNat % n = 0 then some (reg, n) else none

/-- A read of n bytes of BUF or of a slot while idle (R53, R54). Unwritten bytes read as unspecified values,
which are drawn only when there are some (R35). DESIGN CHOICE, log entry 17: D27 says that such a read returns some
32-bit value; here the written bytes of the same access stay exact and the bits above its size stay 0, as R53 and
R54 have them, and the unwritten bytes alone are free. Unsafe. -/
def State.windowRead (s : State) (a n : Nat) : State :=
  let bs := s.mem.readRun a n
  let t := s.respond (wordOfBytes (fillFree s.freeIx a bs)) false
  if bs.all Option.isSome = true then t else { t with freeIx := s.freeIx + 1 }

/-- A write of n bytes of BUF or of a slot while idle (R53, R54). -/
def State.windowWrite (s : State) (a n : Nat) (v : Word) : State :=
  { s with mem := s.mem.writeRun a (bytesOfData n v) }.respond 0 false

/-- A BUF or slot access: rejected while BUSY, with OK and 0 (R57). -/
def State.windowAccess (s : State) (r : BusReq) (n : Nat) : State :=
  if s.busy = true then s.raiseRej.respond 0 false
  else if r.we = true then s.windowWrite r.addr.toNat n r.wdata
  else s.windowRead r.addr.toNat n

/-- A write to CTRL (R28, R241): IE always takes bit 0; SRST resets while idle and is refused while BUSY. -/
def State.ctrlWrite (s : State) (v : Word) : State :=
  let t := { s with ie := v.getLsbD 0 }
  if v.getLsbD 1 = true then
    if s.busy = true then t.raiseRej else t.softReset
  else t

/-- The external request a command makes when it starts (R120, R121, R125): TB is loaded and handed over, or the
128 basemul requests are queued; other commands make none. -/
def State.startExternal (s : State) (i : Instr) : State :=
  match i with
  | .ntt _ rs1 => { s.tbLoad rs1 with ext := .transform .forward }
  | .invntt _ rs1 => { s.tbLoad rs1 with ext := .transform .inverse }
  | .pmul _ rs1 rs2 => { s with ext := .basemul (s.bmRequests rs1 rs2) }
  | .pmac _ rs1 rs2 => { s with ext := .basemul (s.bmRequests rs1 rs2) }
  | .nop => { s with ext := .none }
  | .tobytes _ => { s with ext := .none }
  | .frombytes _ => { s with ext := .none }
  | .compress _ => { s with ext := .none }
  | .decompress _ => { s with ext := .none }
  | .frommont _ _ => { s with ext := .none }
  | .reduce _ _ => { s with ext := .none }
  | .csubq _ _ => { s with ext := .none }
  | .add _ _ _ => { s with ext := .none }
  | .sub _ _ _ => { s with ext := .none }
  | .tomsg _ => { s with ext := .none }
  | .frommsg _ => { s with ext := .none }

/-- A write to CMD (R100): refused while BUSY; else an illegal word raises ILL and a legal one is accepted and
started. -/
def State.cmdWrite (s : State) (w : Word) : State :=
  if s.busy = true then s.raiseRej
  else
    match decode s.npoly w with
    | .cmd i => (s.accept w).startExternal i
    | .ill _ => s.raiseIll w

/-- A read of a register (R27 to R30, R52): no side effect. -/
def State.registerRead (s : State) (reg : Region) : Word :=
  match reg with
  | .id => s.idWord
  | .ctrl => s.ctrlWord
  | .status => s.statusWord
  | .cmd => s.cmdr
  | .buf => 0
  | .slot => 0
  | .unmapped => 0

/-- A write to a register (R52): ID ignores it. -/
def State.registerWrite (s : State) (reg : Region) (v : Word) : State :=
  match reg with
  | .id => s
  | .ctrl => s.ctrlWrite v
  | .status => s.acknowledge v
  | .cmd => s.cmdWrite v
  | .buf => s
  | .slot => s
  | .unmapped => s

/-- A register access (R52), answered OK; a write's read data is 0 (R33). -/
def State.registerAccess (s : State) (r : BusReq) (reg : Region) : State :=
  if r.we = true then (s.registerWrite reg r.wdata).respond 0 false
  else s.respond (s.registerRead reg) false

/-- One host access, performed whole with its response (R61). A BusError changes no state (R56, R213). -/
def State.access (s : State) (r : BusReq) : State :=
  match r.legal s.npoly with
  | none => s.respond 0 true
  | some (reg, n) =>
    if reg = .buf ∨ reg = .slot then s.windowAccess r n else s.registerAccess r reg

end Sys2Proof.Machine
end

