-- ==== Sys2Proof/Machine/Compress.lean ====
section
/-! DEFINITION. COMPRESS and DECOMPRESS (42_compression.md): 4 bits per coefficient. -/

namespace Sys2Proof.Machine

/-- compress4(x) = (((zext(csubq(x)) << 4) + 1664) / 3329) & 15 (R150). -/
def compress4 (x : Coef) : Nat := ((canonU x * 16 + 1664) / 3329) % 16

/-- Two 4-bit values in a byte, low nibble first (R150). -/
def compressByte (x y : Coef) : Byte := BitVec.ofNat 4 (compress4 y) ++ BitVec.ofNat 4 (compress4 x)

/-- R150's loop: each pair of coefficients gives one byte. -/
def compressBytes : List (Option Coef) → List (Option Byte)
  | x :: y :: t => lift2 compressByte x y :: compressBytes t
  | _ => []

/-- decompress4(v) = ((v * 3329) + 8) >> 4 (R151). -/
def decompress4 (v : Nat) : Nat := (v * 3329 + 8) / 16

/-- P'[2i] from the low nibble (R151). -/
def decompressEven (b : Byte) : Coef := BitVec.ofNat 16 (decompress4 (b.toNat % 16))

/-- P'[2i+1] from the high nibble (R151). -/
def decompressOdd (b : Byte) : Coef := BitVec.ofNat 16 (decompress4 (b.toNat / 16))

/-- R151's loop: each byte gives two coefficients. -/
def decompressBytes : List (Option Byte) → List (Option Coef)
  | [] => []
  | b :: t => b.map decompressEven :: b.map decompressOdd :: decompressBytes t

/-- COMPRESS rs1 (R150). -/
def execCompress (rs1 : Slot) (s : State) : Host.Outcome State Fault Refusal :=
  s.command (.compress rs1) fun s => s.dstBuf (compressBytes (s.srcPoly rs1))

/-- DECOMPRESS rd (R151). -/
def execDecompress (rd : Slot) (s : State) : Host.Outcome State Fault Refusal :=
  s.command (.decompress rd) fun s => s.dstPoly rd (decompressBytes (s.srcBuf 128))

end Sys2Proof.Machine
end

