-- ==== Sys2Proof/Machine/Control.lean ====
section
/-! DEFINITION. NOP (46_control.md). -/

namespace Sys2Proof.Machine

/-- NOP (R200): no write, no request; it completes. -/
def execNop (s : State) : Host.Outcome State Fault Refusal := s.command .nop id

end Sys2Proof.Machine
end

