-- ==== Sys2Proof/Machine/Linear.lean ====
section
/-! DEFINITION. REDUCE, CSUBQ, ADD and SUB (44_reduction_linear.md). -/

namespace Sys2Proof.Machine

/-- REDUCE rd, rs1 (R180). -/
def execReduce (rd rs1 : Slot) (s : State) : Host.Outcome State Fault Refusal :=
  s.command (.reduce rd rs1) fun s => s.dstPoly rd ((s.srcPoly rs1).map (Option.map (barrett s.collab)))

/-- CSUBQ rd, rs1 (R181). -/
def execCsubq (rd rs1 : Slot) (s : State) : Host.Outcome State Fault Refusal :=
  s.command (.csubq rd rs1) fun s => s.dstPoly rd ((s.srcPoly rs1).map (Option.map csubq))

/-- ADD rd, rs1, rs2 (R182). -/
def execAdd (rd rs1 rs2 : Slot) (s : State) : Host.Outcome State Fault Refusal :=
  s.command (.add rd rs1 rs2) fun s =>
    s.dstPoly rd (List.zipWith (lift2 add16) (s.srcPoly rs1) (s.srcPoly rs2))

/-- SUB rd, rs1, rs2 (R183): rs1 - rs2. -/
def execSub (rd rs1 rs2 : Slot) (s : State) : Host.Outcome State Fault Refusal :=
  s.command (.sub rd rs1 rs2) fun s =>
    s.dstPoly rd (List.zipWith (lift2 sub16) (s.srcPoly rs1) (s.srcPoly rs2))

end Sys2Proof.Machine
end

