-- ==== Sys2Proof/Machine/Message.lean ====
section
/-! DEFINITION. TOMSG and FROMMSG (45_message.md): one bit per coefficient. -/

namespace Sys2Proof.Machine

/-- msgbit(x) = (((zext(csubq(x)) << 1) + 1664) / 3329) & 1 (R190). -/
def msgbit (x : Coef) : Nat := ((canonU x * 2 + 1664) / 3329) % 2

/-- Eight bits in a byte, bit j from coefficient j (R190). -/
def packMessage (c0 c1 c2 c3 c4 c5 c6 c7 : Coef) : Byte :=
  BitVec.ofNat 8 (msgbit c0 + 2 * msgbit c1 + 4 * msgbit c2 + 8 * msgbit c3 + 16 * msgbit c4 + 32 * msgbit c5 +
    64 * msgbit c6 + 128 * msgbit c7)

/-- R190's loop: eight coefficients give one byte, which has no value if one of them has none (R35). -/
def messageBytes : List (Option Coef) → List (Option Byte)
  | c0 :: c1 :: c2 :: c3 :: c4 :: c5 :: c6 :: c7 :: t =>
    (match c0, c1, c2, c3, c4, c5, c6, c7 with
      | some c0, some c1, some c2, some c3, some c4, some c5, some c6, some c7 =>
        some (packMessage c0 c1 c2 c3 c4 c5 c6 c7)
      | _, _, _, _, _, _, _, _ => none) :: messageBytes t
  | _ => []

/-- P'[8i+j] = wrap16(0 - b) & 1665 with b bit j of BUF[i] (R191). -/
def messageCoef (b : Byte) (j : Nat) : Coef :=
  wrap16 (0 - ((b.toNat / 2 ^ j % 2 : Nat) : Int)) &&& 1665#16

/-- R191's loop: each byte gives eight coefficients. -/
def messageCoefs : List (Option Byte) → List (Option Coef)
  | [] => []
  | b :: t => (List.range 8).map (fun j => b.map (messageCoef · j)) ++ messageCoefs t

/-- TOMSG rs1 (R190). -/
def execTomsg (rs1 : Slot) (s : State) : Host.Outcome State Fault Refusal :=
  s.command (.tomsg rs1) fun s => s.dstBuf (messageBytes (s.srcPoly rs1))

/-- FROMMSG rd (R191). -/
def execFrommsg (rd : Slot) (s : State) : Host.Outcome State Fault Refusal :=
  s.command (.frommsg rd) fun s => s.dstPoly rd (messageCoefs (s.srcBuf 32))

end Sys2Proof.Machine
end

