-- ==== Sys2Proof/Machine/Serialize.lean ====
section
/-! DEFINITION. TOBYTES and FROMBYTES (41_serialization.md): 12 bits per coefficient. -/

namespace Sys2Proof.Machine

/-- t = csubq(x)[11:0] (R140). -/
def packField (x : Coef) : BitVec 12 := (csubq x).extractLsb' 0 12

/-- BUF'[3i] = t0[7:0] (R140). -/
def packByte0 (x : Coef) : Byte := (packField x).extractLsb' 0 8

/-- BUF'[3i+1] = t0[11:8] | (t1[3:0] << 4) (R140). -/
def packByte1 (x y : Coef) : Byte := (packField y).extractLsb' 0 4 ++ (packField x).extractLsb' 8 4

/-- BUF'[3i+2] = t1[11:4] (R140). -/
def packByte2 (y : Coef) : Byte := (packField y).extractLsb' 4 8

/-- R140's loop: each pair of coefficients gives three bytes. -/
def packBytes : List (Option Coef) → List (Option Byte)
  | x :: y :: t => x.map packByte0 :: lift2 packByte1 x y :: y.map packByte2 :: packBytes t
  | _ => []

/-- P'[2i] = BUF[3i] | ((BUF[3i+1] & 0x0F) << 8) (R141). -/
def unpackEven (b0 b1 : Byte) : Coef := 0#4 ++ b1.extractLsb' 0 4 ++ b0

/-- P'[2i+1] = (BUF[3i+1] >> 4) | (BUF[3i+2] << 4) (R141). -/
def unpackOdd (b1 b2 : Byte) : Coef := 0#4 ++ b2 ++ b1.extractLsb' 4 4

/-- R141's loop: three bytes give two coefficients. -/
def unpackBytes : List (Option Byte) → List (Option Coef)
  | b0 :: b1 :: b2 :: t => lift2 unpackEven b0 b1 :: lift2 unpackOdd b1 b2 :: unpackBytes t
  | _ => []

/-- TOBYTES rs1 (R140). -/
def execTobytes (rs1 : Slot) (s : State) : Host.Outcome State Fault Refusal :=
  s.command (.tobytes rs1) fun s => s.dstBuf (packBytes (s.srcPoly rs1))

/-- FROMBYTES rd (R141). -/
def execFrombytes (rd : Slot) (s : State) : Host.Outcome State Fault Refusal :=
  s.command (.frombytes rd) fun s => s.dstPoly rd (unpackBytes (s.srcBuf 384))

end Sys2Proof.Machine
end

