-- ==== Sys2Proof/Machine/Transform.lean ====
section
/-! DEFINITION. NTT, INVNTT, PMUL, PMAC and FROMMONT (43_ntt_mac.md): the NTT-domain commands, which call the
external collaborators. Each external request is applied as a pure function at the completion step (R11, R24,
R62); that its answer has arrived is `Sequencer.lean`'s condition for completing (R104). -/

namespace Sys2Proof.Machine

/-- NTT rd, rs1 (R160): through TB and the engine, then BARRETT on every coefficient. -/
def execNtt (rd rs1 : Slot) (s : State) : Host.Outcome State Fault Refusal :=
  s.command (.ntt rd rs1) fun s =>
    let t := (s.tbLoad rs1).tbTransform .forward
    t.dstPoly rd (t.tb.map (Option.map (barrett s.collab)))

/-- INVNTT rd, rs1 (R161): through TB and the engine, no reduction. -/
def execInvntt (rd rs1 : Slot) (s : State) : Host.Outcome State Fault Refusal :=
  s.command (.invntt rd rs1) fun s =>
    let t := (s.tbLoad rs1).tbTransform .inverse
    t.dstPoly rd t.tb

/-- PMUL with a base multiplier (R162). -/
def State.pmulWith (bm : BaseMul) (rd rs1 rs2 : Slot) (s : State) : Host.Outcome State Fault Refusal :=
  s.command (.pmul rd rs1 rs2) fun s => s.dstPoly rd (s.products bm rs1 rs2)

/-- PMAC with a base multiplier (R163): the accumulator RD is read from the snapshot. -/
def State.pmacWith (bm : BaseMul) (rd rs1 rs2 : Slot) (s : State) : Host.Outcome State Fault Refusal :=
  s.command (.pmac rd rs1 rs2) fun s =>
    s.dstPoly rd (List.zipWith (lift2 add16) (s.srcPoly rd) (s.products bm rs1 rs2))

/-- PMUL rd, rs1, rs2 (R162), with the attached base multiplier (R121). -/
def execPmul (rd rs1 rs2 : Slot) (s : State) : Host.Outcome State Fault Refusal :=
  s.pmulWith (basemul s.collab) rd rs1 rs2

/-- PMAC rd, rs1, rs2 (R163), with the attached base multiplier (R121). -/
def execPmac (rd rs1 rs2 : Slot) (s : State) : Host.Outcome State Fault Refusal :=
  s.pmacWith (basemul s.collab) rd rs1 rs2

/-- sext_32(c) * 1353, exact in 32 bits (R164). -/
def fromMontProduct (c : Coef) : Word := BitVec.ofInt 32 (c.toInt * 1353)

/-- FROMMONT rd, rs1 (R164). -/
def execFrommont (rd rs1 : Slot) (s : State) : Host.Outcome State Fault Refusal :=
  s.command (.frommont rd rs1) fun s =>
    s.dstPoly rd ((s.srcPoly rs1).map (Option.map fun c => mont s.collab (fromMontProduct c)))

end Sys2Proof.Machine
end

