-- ==== Sys2Proof/Machine/Dispatch.lean ====
section
/-! DEFINITION. The dispatch: one arm per command, each one call of its meaning. -/

namespace Sys2Proof.Machine

def exec (i : Instr) (s : State) : Host.Outcome State Fault Refusal :=
  match i with
  | .nop => Sys2Proof.Machine.execNop s
  | .tobytes rs1 => Sys2Proof.Machine.execTobytes rs1 s
  | .frombytes rd => Sys2Proof.Machine.execFrombytes rd s
  | .compress rs1 => Sys2Proof.Machine.execCompress rs1 s
  | .decompress rd => Sys2Proof.Machine.execDecompress rd s
  | .ntt rd rs1 => Sys2Proof.Machine.execNtt rd rs1 s
  | .invntt rd rs1 => Sys2Proof.Machine.execInvntt rd rs1 s
  | .pmul rd rs1 rs2 => Sys2Proof.Machine.execPmul rd rs1 rs2 s
  | .pmac rd rs1 rs2 => Sys2Proof.Machine.execPmac rd rs1 rs2 s
  | .frommont rd rs1 => Sys2Proof.Machine.execFrommont rd rs1 s
  | .reduce rd rs1 => Sys2Proof.Machine.execReduce rd rs1 s
  | .csubq rd rs1 => Sys2Proof.Machine.execCsubq rd rs1 s
  | .add rd rs1 rs2 => Sys2Proof.Machine.execAdd rd rs1 rs2 s
  | .sub rd rs1 rs2 => Sys2Proof.Machine.execSub rd rs1 rs2 s
  | .tomsg rs1 => Sys2Proof.Machine.execTomsg rs1 s
  | .frommsg rd => Sys2Proof.Machine.execFrommsg rd s

end Sys2Proof.Machine
end

