-- ==== Sys2Proof/Machine/Sequencer.lean ====
section
/-! DEFINITION. The sequencer and the moves of the other agents (R14, R62, R100 to R104, R120, R121, R240). A step
takes the next move of the schedule; when none is left, the sequencer goes on by itself (fairness, R251). -/

namespace Sys2Proof.Machine

/-- The next move is taken off the schedule, and the response port falls back to no response (R33: one response
per request). -/
def State.tick (s : State) : State := { s with moves := s.moves.tail, rsp := none }

/-- The in-flight command is due: BUSY, and every awaited answer has arrived (R104). -/
def State.due (s : State) : Bool := s.busy && s.ext == .none

/-- The sequencer's step: a due command, whose word stands in CMDR (R25), is decoded and executed; otherwise
nothing happens (idle, or waiting for an engine, R104). A word that is no command raises ILL as its CMD write
does (R211); no run reaches this, since acceptance decodes the word (R84). -/
def State.sequence (s : State) : Host.Outcome State Fault Refusal :=
  if s.due = true then
    match decodeWord s.cmdr with
    | .cmd i => exec i s
    | .ill _ => .next (s.toIdle.raiseIll s.cmdr)
  else .next s

/-- te_done (R120): the outstanding transform has been returned; ignored with none outstanding. -/
def State.teDone (s : State) : State :=
  match s.ext with
  | .transform _ => { s with ext := .none }
  | .basemul _ => s
  | .none => s

/-- A basemul response (R121): it answers the oldest request; ignored with none outstanding. -/
def State.bmRsp (s : State) : State :=
  match s.ext with
  | .basemul (_ :: r :: rs) => { s with ext := .basemul (r :: rs) }
  | .basemul [_] => { s with ext := .none }
  | .basemul [] => { s with ext := .none }
  | .transform _ => s
  | .none => s

/-- An engine write to TB (R33, R120): honoured while the engine owns TB, ignored otherwise. -/
def State.tbWrite (s : State) (k : BitVec 8) (v : Coef) : State :=
  match s.ext with
  | .transform _ => { s with tb := s.tb.set k.toNat (some v) }
  | .basemul _ => s
  | .none => s

/-- A change of rst_n (R240): low resets, high releases. -/
def State.setRst (s : State) (level : Bool) : State :=
  if level = true then { s with rstN := true } else s.hwReset

/-- A move with rst_n = 1. -/
def State.move (s : State) (m : Move) : Host.Outcome State Fault Refusal :=
  match m with
  | .host r => .next (s.access r)
  | .complete => s.sequence
  | .teDone => .next s.teDone
  | .bmRsp => .next s.bmRsp
  | .tbWrite k v => .next (s.tbWrite k v)
  | .rst level => .next (s.setRst level)
  | .zetaChange => .fault .zetaChanged
  | .engineBreach => .fault .engineBreach

/-- A move while rst_n = 0 (R240): only the line itself acts; no host access is answered and no answer of an
engine is taken. The integration may settle its table and engines then (R243). -/
def State.moveInReset (s : State) (m : Move) : State :=
  match m with
  | .rst level => s.setRst level
  | .host _ => s
  | .complete => s
  | .teDone => s
  | .bmRsp => s
  | .tbWrite _ _ => s
  | .zetaChange => s
  | .engineBreach => s

/-- One step of the machine: the next move of the schedule, or the sequencer when none is scheduled. -/
def State.advance (s : State) : Host.Outcome State Fault Refusal :=
  match s.moves with
  | [] => if s.rstN = true then s.tick.sequence else .next s.tick
  | m :: _ => if s.rstN = true then s.tick.move m else .next (s.tick.moveInReset m)

end Sys2Proof.Machine
end

