-- ==== Sys2Proof/Machine/Step.lean ====
section
/-! DEFINITION. The step, and the state in which a given command word is the next thing to run. -/

namespace Sys2Proof.Machine

/-- One step (Machine/Sequencer.lean). -/
def step (s : State) : Host.Outcome State Fault Refusal := s.advance

/-- s with the word w just accepted: in CMDR, which is where the sequencer takes the in-flight command from
(R25, R30), its operands snapshot, BUSY set (R100), every awaited answer arrived (R104), rst_n released, and the
command's completion the next move. Log entry 7. -/
def State.withFetchWord (s : State) (nbits w : Nat) : State :=
  { s.accept (tableWord nbits w) with
    ext := .none
    rstN := true
    moves := match s.moves with
      | [] => []
      | m :: ms => .complete :: m :: ms }

end Sys2Proof.Machine
end

