-- ==== Sys2Proof/Safety.lean ====
section
/-! DEFINITION. The terms statements are made in: the contracts of the external collaborators (R120 to R126), the
events of a command word (R211, R212), what completing means (R103), where a command's results go (R59), and
the invariant every step keeps. -/

namespace Sys2Proof.Machine

/-! ### Contracts and named properties of the collaborators -/

/-- x is canonical: in [0, q) (R12). -/
abbrev Canonical (x : Coef) : Prop := 0 ≤ x.toInt ∧ x.toInt < 3329

/-- BARRETT_CONGR and BARRETT_RANGE (R122). -/
def BarrettContract (f : Coef → Coef) : Prop :=
  ∀ x, (f x).toInt % 3329 = x.toInt % 3329 ∧ 0 ≤ (f x).toInt ∧ (f x).toInt < 4096

/-- MONT_CONGR and MONT_RANGE for a given MONT_RINV (R123). -/
def MontContract (f : Word → Coef) (rinv : Nat) : Prop :=
  ∀ y : Word, -109084672 ≤ y.toInt → y.toInt < 109084672 →
    (f y).toInt % 3329 = y.toInt * (rinv : Int) % 3329 ∧ -3329 < (f y).toInt ∧ (f y).toInt < 3329

/-- The range contract of the twiddle table (R124). -/
def ZetaContract (z : Nat → Coef) : Prop := ∀ k, -32767 ≤ (z k).toInt ∧ (z k).toInt ≤ 32767

/-- BASEMUL_CORRECT with scale BM_SCALE (R121): the scale is a nonzero residue mod q, and r0 + r1·x is the scaled
product mod x² - zeta, mod q. -/
def BasemulCorrect (bm : BaseMul) (scale : Nat) : Prop :=
  scale % 3329 ≠ 0 ∧ ∀ a0 a1 b0 b1 z : Coef,
    (bm a0 a1 b0 b1 z).1.toInt % 3329 =
      scale * (a0.toInt * b0.toInt + z.toInt * (a1.toInt * b1.toInt)) % 3329 ∧
    (bm a0 a1 b0 b1 z).2.toInt % 3329 =
      scale * (a0.toInt * b1.toInt + a1.toInt * b0.toInt) % 3329

/-- The named property BASEMUL_CORRECT of the attached base multiplier, with its BM_SCALE (R121); a claim assumes it
only by naming it. -/
def AttachedBasemulCorrect (c : Collab) : Prop := BasemulCorrect (basemul c) (bmScale c)

/-- TE_INVOLUTION (R126), a named property of the attached engine that no rule depends on. -/
def TeInvolution (c : Collab) : Prop :=
  ∀ p : List Coef, p.length = 256 → (∀ x ∈ p, Canonical x) →
    (transform c .inverse ((transform c .forward p).map (barrett c))).map
      (fun x => csubq (barrett c (mont c (fromMontProduct x)))) = p

/-! ### Events of a command word -/

/-- What a CMD write of a word with a given OPC does, when `bad` says which fields make it illegal (R100, R211,
R212): refused while BUSY; ILL while idle if RSV is nonzero or a field is bad; otherwise accepted, with no
event. -/
def WordEvents (opc : BitVec 8) (bad : Nat → Word → Prop) : Prop :=
  ∀ (s : State) (w : Word), fieldOpc w = opc →
    (s.busy = true → s.cmdWrite w = s.raiseRej) ∧
    (s.busy = false → (fieldRsv w ≠ 0 ∨ bad s.npoly w) → s.cmdWrite w = s.raiseIll w) ∧
    (s.busy = false → ¬ (fieldRsv w ≠ 0 ∨ bad s.npoly w) →
      (s.cmdWrite w).busy = true ∧ (s.cmdWrite w).cmdr = w ∧ (s.cmdWrite w).snap = s.mem ∧
      (s.cmdWrite w).ill = s.ill ∧ (s.cmdWrite w).rej = s.rej ∧ (s.cmdWrite w).mem = s.mem)

/-- Form N: RD, RS1 and RS2 must be 0 (R83). -/
def badN (_ : Nat) (w : Word) : Prop := fieldRd w ≠ 0 ∨ fieldRs1 w ≠ 0 ∨ fieldRs2 w ≠ 0

/-- Form S: RD and RS2 must be 0 and RS1 below NPOLY (R83, R84). -/
def badS (npoly : Nat) (w : Word) : Prop :=
  fieldRd w ≠ 0 ∨ fieldRs2 w ≠ 0 ∨ npoly ≤ (fieldRs1 w).toNat

/-- Form D: RS1 and RS2 must be 0 and RD below NPOLY (R83, R84). -/
def badD (npoly : Nat) (w : Word) : Prop :=
  fieldRs1 w ≠ 0 ∨ fieldRs2 w ≠ 0 ∨ npoly ≤ (fieldRd w).toNat

/-- Form R2: RS2 must be 0, RD and RS1 below NPOLY (R83, R84). -/
def badR2 (npoly : Nat) (w : Word) : Prop :=
  fieldRs2 w ≠ 0 ∨ npoly ≤ (fieldRd w).toNat ∨ npoly ≤ (fieldRs1 w).toNat

/-- Form R3: RD, RS1 and RS2 below NPOLY (R83, R84). -/
def badR3 (npoly : Nat) (w : Word) : Prop :=
  npoly ≤ (fieldRd w).toNat ∨ npoly ≤ (fieldRs1 w).toNat ∨ npoly ≤ (fieldRs2 w).toNat

/-- The field conditions that make a word with the opcode of i illegal: those of i's form (R82, R83). -/
def badFields (i : Instr) : Nat → Word → Prop :=
  match i with
  | .nop => badN
  | .tobytes _ => badS
  | .frombytes _ => badD
  | .compress _ => badS
  | .decompress _ => badD
  | .ntt _ _ => badR2
  | .invntt _ _ => badR2
  | .pmul _ _ _ => badR3
  | .pmac _ _ _ => badR3
  | .frommont _ _ => badR2
  | .reduce _ _ => badR2
  | .csubq _ _ => badR2
  | .add _ _ _ => badR3
  | .sub _ _ _ => badR3
  | .tomsg _ => badS
  | .frommsg _ => badD

/-- The word of R80 from its four fields, as a number. -/
def wordNumber (opc rd rs1 rs2 : Nat) : Nat := rs2 * 2 ^ 16 + rs1 * 2 ^ 12 + rd * 2 ^ 8 + opc

/-! ### Completion and destinations -/

/-- The command answers the next state t with its completion's flags: BUSY 0, DONE 1, every other flag, CTRL.IE and
CMDR as before, and nothing of it left in flight (R103). -/
def Completes (i : Instr) (s t : State) : Prop :=
  exec i s = .next t ∧ t.busy = false ∧ t.done = true ∧ t.ill = s.ill ∧ t.rej = s.rej ∧ t.ie = s.ie ∧
    t.cmdr = s.cmdr ∧ t.snap = [] ∧ t.ext = .none

/-- Where a command's results go: a host address and a number of bytes (R59). -/
def resultRange (i : Instr) : Option (Nat × Nat) :=
  match i with
  | .nop => none
  | .tobytes _ => some (bufBase, 384)
  | .frombytes rd => some (slotBase rd.toNat, 512)
  | .compress _ => some (bufBase, 128)
  | .decompress rd => some (slotBase rd.toNat, 512)
  | .ntt rd _ => some (slotBase rd.toNat, 512)
  | .invntt rd _ => some (slotBase rd.toNat, 512)
  | .pmul rd _ _ => some (slotBase rd.toNat, 512)
  | .pmac rd _ _ => some (slotBase rd.toNat, 512)
  | .frommont rd _ => some (slotBase rd.toNat, 512)
  | .reduce rd _ => some (slotBase rd.toNat, 512)
  | .csubq rd _ => some (slotBase rd.toNat, 512)
  | .add rd _ _ => some (slotBase rd.toNat, 512)
  | .sub rd _ _ => some (slotBase rd.toNat, 512)
  | .tomsg _ => some (bufBase, 32)
  | .frommsg rd => some (slotBase rd.toNat, 512)

/-- Memory outside a range reads as before. -/
def SameOutside (m n : Memory) (a len : Nat) : Prop :=
  ∀ k, ¬ (a ≤ k ∧ k < a + len) → n.read k = m.read k

/-- s with the snapshot that acceptance takes: the memory as it stands (R100). -/
def State.now (s : State) : State := { s with snap := s.mem }

/-- The command accepted in s and completed with nothing between (R62): its snapshot is the memory as it stands. -/
def runNow (i : Instr) (s : State) : Host.Outcome State Fault Refusal := exec i s.now

/-! ### Distributivity (R166) -/

/-- The operands of R166's law: slots a, b, c are written and no coefficient of b + c wraps at 16 bits. -/
def DistributiveOperands (s : State) (a b c : Slot) : Prop :=
  ∀ i < 256, ∃ x y z, s.mem.coef a i = some x ∧ s.mem.coef b i = some y ∧ s.mem.coef c i = some z ∧
    -32768 ≤ y.toInt + z.toInt ∧ y.toInt + z.toInt < 32768

/-- From s, ADD d, b, c and then PMUL e, a, d answers mod q the sums of what PMUL e, a, b and PMUL e, a, c answer;
ADD of those gives it too where it does not wrap. -/
def PmulDistributes (bm : BaseMul) (s : State) (a b c d e : Slot) : Prop :=
  ∃ t u ub uc, runNow (.add d b c) s = .next t ∧ t.now.pmulWith bm e a d = .next u ∧
    s.now.pmulWith bm e a b = .next ub ∧ s.now.pmulWith bm e a c = .next uc ∧
    ∀ i < 256, ∃ x y z, u.mem.coef e i = some x ∧ ub.mem.coef e i = some y ∧ uc.mem.coef e i = some z ∧
      x.toInt % 3329 = (y.toInt + z.toInt) % 3329 ∧
      (-32768 ≤ y.toInt + z.toInt → y.toInt + z.toInt < 32768 →
        (add16 y z).toInt % 3329 = x.toInt % 3329)

/-- From s, accumulating a·(b + c) into e by one PMAC answers mod q what accumulating a·b and then a·c does, wherever
no accumulation wraps. -/
def PmacDistributes (bm : BaseMul) (s : State) (a b c d e : Slot) : Prop :=
  ∃ t v w1 w2, runNow (.add d b c) s = .next t ∧ t.now.pmacWith bm e a d = .next v ∧
    s.now.pmacWith bm e a b = .next w1 ∧ w1.now.pmacWith bm e a c = .next w2 ∧
    ∀ i < 256, ∀ r, s.mem.coef e i = some r → ∃ x y z v' w',
      (t.now.products bm a d)[i]? = some (some x) ∧ (s.now.products bm a b)[i]? = some (some y) ∧
      (s.now.products bm a c)[i]? = some (some z) ∧ v.mem.coef e i = some v' ∧ w2.mem.coef e i = some w' ∧
      (-32768 ≤ r.toInt + x.toInt → r.toInt + x.toInt < 32768 →
        -32768 ≤ r.toInt + y.toInt → r.toInt + y.toInt < 32768 →
        -32768 ≤ r.toInt + y.toInt + z.toInt → r.toInt + y.toInt + z.toInt < 32768 →
        v'.toInt % 3329 = w'.toInt % 3329)

/-- The used slot fields of a row (those its mask leaves free, R83) are below NPOLY (R84). -/
def usedFieldsBelow (npoly : Nat) (r : Row) (w : Word) : Prop :=
  (r.mask.extractLsb' 8 4 = 0#4 → (fieldRd w).toNat < npoly) ∧
  (r.mask.extractLsb' 12 4 = 0#4 → (fieldRs1 w).toNat < npoly) ∧
  (r.mask.extractLsb' 16 4 = 0#4 → (fieldRs2 w).toNat < npoly)

/-- The map of R51 with its sizes: an access of n bytes at a is to a region that exists and allows n bytes. -/
def Mapped (npoly a n : Nat) : Prop :=
  (a < 0x10 ∧ n = 4) ∨ (0x0800 ≤ a ∧ a < 0x0980 ∧ (n = 1 ∨ n = 2 ∨ n = 4)) ∨
    ∃ r < npoly, 0x1000 + 0x200 * r ≤ a ∧ a < 0x1200 + 0x200 * r ∧ (n = 2 ∨ n = 4)

/-- The conditions of R56 under which an access raises BusError. -/
def BusErrorConditions (npoly : Nat) (r : BusReq) : Prop :=
  r.size = 3#2 ∨ ¬ Mapped npoly r.addr.toNat (2 ^ r.size.toNat) ∨ r.addr.toNat % 2 ^ r.size.toNat ≠ 0

/-- The two 12-bit fields of three packed bytes (R141). -/
def packedField0 (b0 b1 : Byte) : Nat := b0.toNat + (b1.toNat % 16) * 256

/-- The second field of three packed bytes (R141). -/
def packedField1 (b1 b2 : Byte) : Nat := b1.toNat / 16 + b2.toNat * 16

/-- What R142.4 replaces a 12-bit field by: itself below q, else itself minus q. -/
def reducedField (f : Nat) : Nat := if f < 3329 then f else f - 3329

/-- Circular distance mod q (R152). -/
def circularDistance (x y : Int) : Int := min ((x - y) % 3329) ((y - x) % 3329)

/-- The next move clears the STATUS flag of bit k (R29's "cleared by", R220): a STATUS write of 1 to the bit, a soft
reset (an idle CTRL write with SRST), or rst_n low. -/
def ClearsFlag (s : State) (k : Nat) : Prop :=
  s.moves.head? = some (.rst false) ∨ ∃ r ms, s.moves = .host r :: ms ∧ r.we = true ∧ r.size = 2#2 ∧
    ((r.addr = 0x0008#14 ∧ r.wdata.getLsbD k = true) ∨
      (r.addr = 0x0004#14 ∧ r.wdata.getLsbD 1 = true ∧ s.busy = false))

/-! ### The invariant -/

/-- Every written byte lies in BUF or in a slot the block has (R51). -/
def Memory.inMap (npoly : Nat) (m : Memory) : Prop :=
  ∀ c ∈ m, region npoly c.1 = .buf ∨ region npoly c.1 = .slot

/-- A coefficient is written whole: every write to a slot is of whole coefficients (R54). -/
def Memory.wholeCoefs (m : Memory) : Prop :=
  ∀ a, 0x1000 ≤ a → a % 2 = 0 → ((m.read a).isSome = (m.read (a + 1)).isSome)

/-- The pending request is one its command makes: the transform of NTT or INVNTT, or a nonempty rest of the 128
requests of PMUL or PMAC, in order (R120, R121, R125). -/
def State.requestFits (s : State) (i : Instr) : Prop :=
  match s.ext with
  | .none => True
  | .transform .forward => ∃ rd rs1, i = .ntt rd rs1
  | .transform .inverse => ∃ rd rs1, i = .invntt rd rs1
  | .basemul rest => rest ≠ [] ∧ ∃ rd rs1 rs2,
      (i = .pmul rd rs1 rs2 ∨ i = .pmac rd rs1 rs2) ∧ rest <:+ s.bmRequests rs1 rs2

/-- The in-flight command (R25, R101): while BUSY, CMDR is a legal word, the snapshot is the memory, and the
pending request is one of that command's; while idle, nothing is in flight. -/
def State.inFlightFits (s : State) : Prop :=
  if s.busy = true then
    s.snap = s.mem ∧ ∃ i, decode s.npoly s.cmdr = .cmd i ∧ s.requestFits i
  else s.snap = [] ∧ s.ext = .none

/-- While rst_n = 0 every register has its reset value and nothing is written (R240). -/
def State.resetFits (s : State) : Prop :=
  s.rstN = false →
    s.mem = [] ∧ s.tb = tbUnwritten ∧ s.ie = false ∧ s.busy = false ∧ s.done = false ∧ s.ill = false ∧
      s.rej = false ∧ s.cmdr = 0

/-- The invariant. -/
def State.Inv (s : State) : Prop :=
  s.mem.wf ∧ s.mem.inMap s.npoly ∧ s.mem.wholeCoefs ∧ s.tb.length = 256 ∧ s.inFlightFits ∧ s.resetFits

/-- The shape of a pending request: which port, how many requests, with which twiddles (R106). -/
def Ext.shape (e : Ext) : Option TeOp × List Coef :=
  match e with
  | .none => (Option.none, [])
  | .transform op => (some op, [])
  | .basemul rs => (Option.none, rs.map (·.zeta))

end Sys2Proof.Machine
end

