-- ==== Sys2Proof/Certificates/Slice0/Obligations.lean ====
section
/-! DEFINITION. The statements for the provers, from the numbered rules of spec/. Statements over all states also
hold in states no run reaches; where one needs an invariant it is a premise (`State.Inv`), and that invariant is
a statement of its own. A free value (Config) is never given a value here. -/

open Sys2Proof Sys2Proof.Machine

/-! ### Encoding (30_encoding.md) -/

/-- R80 to R84: decoding the word of a command, as a word or as the four bytes of a CMD write, gives the command
back with every field; with NPOLY's check, exactly when every slot it names is below NPOLY. -/
def Obligations.DecodeOfEncodeGivesTheCommand : Prop :=
  ∀ (i : Instr) (npoly : Nat),
    decodeWord (encode i) = .cmd i ∧
    decodeBytes (bytesOfWord (encode i)) = .cmd i ∧
    decode npoly (encode i) = if i.wf npoly = true then .cmd i else .ill .slotOutOfRange

/-- R83, R84: a word that decodes to a command is that command's word: no second spelling exists. -/
def Obligations.EncodeOfDecodeGivesTheWord : Prop :=
  ∀ (w : Word) (i : Instr), decodeWord w = .cmd i → encode i = w

/-- R84: a word is legal exactly when a row of the table matches it and its used slot fields are below NPOLY; at
most one row matches; the command is that row's; a word that is not legal raises ILL when written while idle. -/
def Obligations.LegalWordsAreTheTableRows : Prop :=
  ∀ (npoly : Nat) (w : Word),
    ((∃ i, decode npoly w = .cmd i) ↔
      ∃ r ∈ opcodeTable, r.matchesWord w = true ∧ usedFieldsBelow npoly r w) ∧
    (∀ i, decode npoly w = .cmd i →
      encode i = w ∧ ∃ r ∈ opcodeTable, r.matchesWord w = true ∧ r.opc = i.opc.setWidth 32) ∧
    (∀ r1 ∈ opcodeTable, ∀ r2 ∈ opcodeTable,
      r1.matchesWord w = true → r2.matchesWord w = true → r1 = r2) ∧
    (∀ s : State, s.npoly = npoly → s.busy = false → (¬ ∃ i, decode npoly w = .cmd i) →
      s.cmdWrite w = s.raiseIll w)

/-- R85: every listed kind of word is illegal and raises ILL, with the four examples for NPOLY = 8. -/
def Obligations.IllegalWordsRaiseIll : Prop :=
  (∀ (s : State) (w : Word), s.busy = false →
    ((∀ i : Instr, fieldOpc w ≠ i.opc) ∨ fieldRsv w ≠ 0 ∨
      ∃ i : Instr, fieldOpc w = i.opc ∧ badFields i s.npoly w) →
    (∃ why, decode s.npoly w = .ill why) ∧ s.cmdWrite w = s.raiseIll w) ∧
  (decode 8 0x00000006 = .ill .undefinedOpc ∧ decode 8 0x00100042 = .ill .reservedNonzero ∧
    decode 8 0x00000110 = .ill .unusedNonzero ∧ decode 8 0x00000842 = .ill .slotOutOfRange)

/-- L2-ENC of 95_test_vectors.md: one word of each command, and the illegal words of its second table. -/
def Obligations.TestVectorWordsDecode : Prop :=
  [0x00000000, 0x00003010, 0x00000211, 0x00000020, 0x00000121, 0x00000130, 0x00003331, 0x00005434,
    0x00003340, 0x00003341, 0x00010242, 0x00010243, 0x00002050, 0x00000051, 0x00010332, 0x00002333].map
      (fun w => decode 8 (BitVec.ofNat 32 w)) =
    [.cmd .nop, .cmd (.tobytes 3), .cmd (.frombytes 2), .cmd (.compress 0), .cmd (.decompress 1),
      .cmd (.ntt 1 0), .cmd (.invntt 3 3), .cmd (.frommont 4 5), .cmd (.reduce 3 3), .cmd (.csubq 3 3),
      .cmd (.add 2 0 1), .cmd (.sub 2 0 1), .cmd (.tomsg 2), .cmd (.frommsg 0), .cmd (.pmul 3 0 1),
      .cmd (.pmac 3 2 0)] ∧
  [0x00000006, 0x000000FF, 0x00100042, 0x80000000, 0x00000110, 0x00010011, 0x00001021, 0x00010030, 0x00000100,
    0x00000842, 0x00008032].all (fun w => (decode 8 (BitVec.ofNat 32 w)).instr? == none) = true ∧
  decode 9 0x00000842 = .cmd (.add 8 0 0)

/-! ### The step -/

/-- A step runs the decoded command: with rst_n released, a due command in flight and its completion next (or no
move scheduled), the step is exec of the command CMDR's word decodes to, on the state with the move taken off the
schedule and no response on the port. The schedule of moves is the model's (log entry 6). -/
def Obligations.StepRunsTheDueCommand : Prop :=
  ∀ (s : State) (i : Instr), s.rstN = true → s.busy = true → s.ext = .none →
    (s.moves = [] ∨ s.moves.head? = some .complete) → decodeWord s.cmdr = .cmd i →
    step s = exec i { s with moves := s.moves.tail, rsp := none }

/-- R61: a host access scheduled next (the model's schedule, log entry 6) is performed whole, with its response, in
one step. -/
def Obligations.StepPerformsTheHostAccess : Prop :=
  ∀ (s : State) (r : BusReq) (ms : List Move), s.rstN = true → s.moves = .host r :: ms →
    step s = .next (State.access { s with moves := ms, rsp := none } r)

/-- The word placed by withFetchWord is the one the next step runs, as an accepted command whose operands are the
present memory (what withFetchWord stands for is the model's, log entry 7). -/
def Obligations.FetchWordRunsNext : Prop :=
  ∀ (s : State) (w : Word) (i : Instr), decodeWord w = .cmd i →
    step (s.withFetchWord 32 w.toNat) =
      exec i { s with cmdr := w, snap := s.mem, busy := true, ext := .none, rstN := true, rsp := none }

/-- R104, I7: while an external answer is awaited, no move (the model's schedule, log entry 6) but the answer that is
awaited or rst_n low ends the wait: BUSY stays 1 and the pending request stands, whatever the host does and whichever
other answer arrives. -/
def Obligations.OnlyAnswersOrResetEndAWait : Prop :=
  ∀ s t : State, s.rstN = true → s.busy = true → s.ext ≠ .none →
    (∀ op, s.ext = .transform op → s.moves.head? ≠ some .teDone) →
    (∀ rs, s.ext = .basemul rs → s.moves.head? ≠ some .bmRsp) →
    s.moves.head? ≠ some (.rst false) →
    step s = .next t → t.busy = true ∧ t.ext = s.ext ∧ t.mem = s.mem ∧ t.cmdr = s.cmdr

/-- R104, R120, R121, R125: an accepted NTT or INVNTT is due after the one te_done it awaits, an accepted PMUL or
PMAC exactly after 128 basemul responses, and every other accepted command at once. -/
def Obligations.AnswersMakeACommandDue : Prop :=
  ∀ (s : State) (w : Word) (i : Instr), s.busy = false → decode s.npoly w = .cmd i →
    match i with
    | .ntt _ _ => (s.cmdWrite w).due = false ∧ (s.cmdWrite w).teDone.due = true
    | .invntt _ _ => (s.cmdWrite w).due = false ∧ (s.cmdWrite w).teDone.due = true
    | .pmul _ _ _ => (∀ n < 128, (State.bmRsp^[n] (s.cmdWrite w)).due = false) ∧
        (State.bmRsp^[128] (s.cmdWrite w)).due = true
    | .pmac _ _ _ => (∀ n < 128, (State.bmRsp^[n] (s.cmdWrite w)).due = false) ∧
        (State.bmRsp^[128] (s.cmdWrite w)).due = true
    | _ => (s.cmdWrite w).due = true

/-- R120, R121: te_done and an engine write to TB with no transform outstanding, and a basemul response with no
basemul request outstanding, as moves of the model's schedule (log entry 6), are ignored, whatever else is
outstanding. -/
def Obligations.StrayEngineAnswersAreIgnored : Prop :=
  ∀ (s : State) (m : Move) (ms : List Move), s.rstN = true → s.moves = m :: ms →
    (((m = .teDone ∨ ∃ k v, m = .tbWrite k v) ∧ ∀ op, s.ext ≠ .transform op) ∨
      (m = .bmRsp ∧ ∀ rs, s.ext ≠ .basemul rs)) →
    step s = .next { s with moves := ms, rsp := none }

/-! ### Coefficient functions and collaborators (40_datapath.md) -/

/-- R110 and R111: csubq's formula on every 16-bit value, without wrap, and its five properties. -/
def Obligations.CsubqFormulaAndProperties : Prop :=
  ∀ x : Coef,
    (csubq x).toInt = (if 3329 ≤ x.toInt then x.toInt - 3329 else x.toInt) ∧
    (-32768 ≤ (csubq x).toInt ∧ (csubq x).toInt ≤ 29438) ∧
    (0 ≤ x.toInt → x.toInt < 6658 → Canonical (csubq x) ∧ (csubq x).toInt % 3329 = x.toInt % 3329) ∧
    (Canonical x → csubq x = x) ∧
    (6658 ≤ x.toInt → (csubq x).toInt = x.toInt - 3329 ∧ 3329 ≤ (csubq x).toInt) ∧
    (x.toInt < 0 → csubq x = x) ∧
    (0 ≤ x.toInt → x.toInt < 6658 → csubq (csubq x) = csubq x)

/-- R115: the adders wrap at 16 bits, and for inputs in [-q, 2q) they are exact and in the stated ranges. -/
def Obligations.AddersWrapAtSixteenBits : Prop :=
  ∀ x y : Coef,
    ((add16 x y).toInt - (x.toInt + y.toInt)) % 65536 = 0 ∧
    ((sub16 x y).toInt - (x.toInt - y.toInt)) % 65536 = 0 ∧
    (-3329 ≤ x.toInt → x.toInt < 6658 → -3329 ≤ y.toInt → y.toInt < 6658 →
      (add16 x y).toInt = x.toInt + y.toInt ∧ (sub16 x y).toInt = x.toInt - y.toInt ∧
      -6658 ≤ (add16 x y).toInt ∧ (add16 x y).toInt < 13316 ∧
      -9987 < (sub16 x y).toInt ∧ (sub16 x y).toInt < 9987)

/-- R122: the model's BARRETT is free within its contract and no further: the functions `barrettOf` builds are
exactly the functions that meet BARRETT_CONGR and BARRETT_RANGE. -/
def Obligations.BarrettIsExactlyItsContract : Prop :=
  ∀ f : Coef → Coef, BarrettContract f ↔ ∃ high, f = barrettOf high

/-- R123: likewise MONT, for every MONT_RINV: the functions `montOf` builds are exactly those that meet MONT_CONGR
and MONT_RANGE. -/
def Obligations.MontIsExactlyItsContract : Prop :=
  ∀ (f : Word → Coef) (rinv : Nat),
    MontContract f rinv ↔ ∃ negative outside, f = montOf rinv negative outside

/-- I-GK1, I-GK2: the default BARRETT meets its contract, its result is in [0, q], and it is q for exactly nine
inputs; the default MONT meets its contract with MONT_RINV = 169 = 2^-16 mod q. -/
def Obligations.DefaultReducersMeetTheirContracts : Prop :=
  BarrettContract (barrett .defaults) ∧
  (∀ x : Coef, (barrett .defaults x).toInt ≤ 3329) ∧
  (∀ x : Coef, (barrett .defaults x).toInt = 3329 ↔
    x.toInt % 3329 = 0 ∧ -29961 ≤ x.toInt ∧ x.toInt ≤ -3329) ∧
  MontContract (mont .defaults) (montRinv .defaults) ∧ montRinv .defaults * 2 ^ 16 % 3329 = 1

/-- R126, C6: the default engine, whose transforms the model writes as a recursion over blocks (log entry 4), does not
have TE_INVOLUTION: for p = 1 its left side is 1353. -/
def Obligations.DefaultEngineLacksInvolution : Prop :=
  ¬ TeInvolution .defaults ∧
  ((transform .defaults .inverse ((transform .defaults .forward (1 :: List.replicate 255 0)).map
    (barrett .defaults))).map fun x => csubq (barrett .defaults (mont .defaults (fromMontProduct x)))) =
      1353 :: List.replicate 255 0

/-- I-GK3: for operands in [0, 4096) and |zeta| < q the default base multiplier is the product mod x² - 169·zeta
(the table's entries carry the factor 2^16, so 169·zeta is the twiddle an entry stands for, log entry 5), scaled by
BM_SCALE = 169 = 2^-16 mod q, each result in (-2q, 2q); with z = 2226 it gives the two examples of I-GK3. BM_SCALE of
any attached multiplier is a nonzero residue. -/
def Obligations.DefaultBasemulIsTheScaledProduct : Prop :=
  (∀ a0 a1 b0 b1 z : Coef,
    0 ≤ a0.toInt → a0.toInt < 4096 → 0 ≤ a1.toInt → a1.toInt < 4096 →
    0 ≤ b0.toInt → b0.toInt < 4096 → 0 ≤ b1.toInt → b1.toInt < 4096 → -3329 < z.toInt → z.toInt < 3329 →
    (basemul .defaults a0 a1 b0 b1 z).1.toInt % 3329 =
        169 * (a0.toInt * b0.toInt + 169 * z.toInt * (a1.toInt * b1.toInt)) % 3329 ∧
      (basemul .defaults a0 a1 b0 b1 z).2.toInt % 3329 =
        169 * (a0.toInt * b1.toInt + a1.toInt * b0.toInt) % 3329 ∧
      -6658 < (basemul .defaults a0 a1 b0 b1 z).1.toInt ∧ (basemul .defaults a0 a1 b0 b1 z).1.toInt < 6658 ∧
      -6658 < (basemul .defaults a0 a1 b0 b1 z).2.toInt ∧ (basemul .defaults a0 a1 b0 b1 z).2.toInt < 6658) ∧
  basemul .defaults 1 0 1 0 (zeta .defaults 64) = (169, 0) ∧
  basemul .defaults 0 1 0 1 (zeta .defaults 64) = (wrap16 (-456), 0) ∧
  bmScale .defaults = 169 ∧ bmScale .defaults * 2 ^ 16 % 3329 = 1 ∧ ∀ c, 0 < bmScale c ∧ bmScale c < 3329

/-- R166, over the commands: with a base multiplier that has BASEMUL_CORRECT, PMUL distributes over ADD mod q where no
coefficient of b + c wraps, and PMAC does in its accumulator where no accumulation wraps; the sum of two products is
the exact one, and ADD's where ADD does not wrap (log entry 13). PMUL and PMAC are their loops with the attached base
multiplier, and with the default one the law holds for operands in [0, 4096), as NTT produces them. -/
def Obligations.PmulDistributesOverAdd : Prop :=
  (∀ (s : State) (rd rs1 rs2 : Slot),
    exec (.pmul rd rs1 rs2) s = s.pmulWith (basemul s.collab) rd rs1 rs2 ∧
    exec (.pmac rd rs1 rs2) s = s.pmacWith (basemul s.collab) rd rs1 rs2) ∧
  (∀ (bm : BaseMul) (scale : Nat), BasemulCorrect bm scale →
    ∀ (s : State) (a b c d e : Slot), (∀ r ∈ [a, b, c, d, e], r.toNat < s.npoly) → d ≠ a →
      DistributiveOperands s a b c →
      PmulDistributes bm s a b c d e ∧
      (e ≠ a → e ≠ c → e ≠ d → (∀ i < 256, (s.mem.coef e i).isSome = true) → PmacDistributes bm s a b c d e)) ∧
  (∀ (s : State) (a b c d e : Slot), s.collab = .defaults → (∀ r ∈ [a, b, c, d, e], r.toNat < s.npoly) → d ≠ a →
    (∀ r ∈ [a, b, c], ∀ i < 256, ∃ x, s.mem.coef r i = some x ∧ 0 ≤ x.toInt ∧ x.toInt < 4096) →
    PmulDistributes (basemul s.collab) s a b c d e)

/-- R152: the compression error of every canonical coefficient is at most 104, with equality at exactly the 17
listed values. -/
def Obligations.CompressionErrorIsAtMostHundredFour : Prop :=
  ∀ c : Coef, Canonical c →
    circularDistance c.toInt (decompress4 (compress4 c)) ≤ 104 ∧
    (circularDistance c.toInt (decompress4 (compress4 c)) = 104 ↔
      c.toInt ∈ [104, 312, 520, 728, 936, 1144, 1352, 1560, 1561, 1769, 1977, 2185, 2393, 2601, 2809, 3017, 3225])

/-- R150, R151 (corner cases): the canonical coefficients that quantize to 0 and to each k = 1..15, the table of
decompress4, and compress4 after decompress4. -/
def Obligations.QuantizationIntervals : Prop :=
  (∀ c : Coef, Canonical c → (compress4 c = 0 ↔ c.toInt ≤ 104 ∨ 3225 ≤ c.toInt)) ∧
  (∀ c : Coef, Canonical c → ∀ k : Nat, 1 ≤ k → k ≤ 15 →
    (compress4 c = k ↔ ([105, 313, 521, 729, 937, 1145, 1353, 1561, 1769, 1977, 2185, 2393, 2601, 2809, 3017,
        3225].getD (k - 1) 0 : Int) ≤ c.toInt ∧
      c.toInt < ([105, 313, 521, 729, 937, 1145, 1353, 1561, 1769, 1977, 2185, 2393, 2601, 2809, 3017,
        3225].getD k 0 : Int))) ∧
  (List.range 16).map decompress4 =
    [0, 208, 416, 624, 832, 1040, 1248, 1456, 1665, 1873, 2081, 2289, 2497, 2705, 2913, 3121] ∧
  ∀ v < 16, compress4 (BitVec.ofNat 16 (decompress4 v)) = v

/-- R190 and R192 items 2 and 3: which canonical coefficients decode to 1, how much noise each bit survives, and
that a negative coefficient is read as x + 65536. -/
def Obligations.MessageBitNoiseTolerance : Prop :=
  (∀ c : Coef, Canonical c → (msgbit c = 1 ↔ 833 ≤ c.toInt ∧ c.toInt ≤ 2496)) ∧
  (∀ e : Int, -1664 ≤ e → e ≤ 1664 →
    (msgbit (wrap16 ((1665 + e) % 3329)) = 1 ↔ -832 ≤ e ∧ e ≤ 831) ∧
    (msgbit (wrap16 (e % 3329)) = 0 ↔ -832 ≤ e ∧ e ≤ 832)) ∧
  (∀ e : Int, -1665 ≤ e → e ≤ 4992 →
    msgbit (wrap16 (1665 + e)) = msgbit (wrap16 ((1665 + e) % 3329))) ∧
  (∀ x : Coef, x.toInt < 0 → msgbit x = ((x.toInt + 65536).toNat * 2 + 1664) / 3329 % 2) ∧
  msgbit (wrap16 (-1)) = 1

/-! ### The commands (41 to 46) -/

/-- R200: NOP sets BUSY and CMDR at acceptance and makes no external request; it completes and changes nothing else;
its only legal word is 0. -/
def Obligations.NopOnlyCompletes : Prop :=
  WordEvents 0x00#8 badN ∧ encode .nop = 0 ∧
  (∀ s : State, s.busy = false →
    s.cmdWrite 0 = { s with cmdr := 0, snap := s.mem, busy := true, ext := .none }) ∧
  ∀ s : State, exec .nop s = .next { s with busy := false, done := true, snap := [], ext := .none }

/-- R140: TOBYTES, with its encoding, events, completion, the bytes of every pair of written coefficients, and
everything else unchanged (RS1 among it). -/
def Obligations.TobytesPacksTwelveBits : Prop :=
  WordEvents 0x10#8 badS ∧
  ∀ rs1 : Slot, (encode (.tobytes rs1)).toNat = wordNumber 0x10 0 rs1.toNat 0 ∧
  ∀ s : State, rs1.toNat < s.npoly → ∃ t, Completes (.tobytes rs1) s t ∧
    SameOutside s.mem t.mem 0x0800 384 ∧
    ∀ i < 128,
      (∀ x0, s.snap.coef rs1 (2 * i) = some x0 →
        t.mem.read (0x0800 + 3 * i) = some ((csubq x0).extractLsb' 0 8)) ∧
      (∀ x0 x1, s.snap.coef rs1 (2 * i) = some x0 → s.snap.coef rs1 (2 * i + 1) = some x1 →
        t.mem.read (0x0800 + 3 * i + 1) =
          some ((csubq x1).extractLsb' 0 4 ++ (csubq x0).extractLsb' 8 4)) ∧
      (∀ x1, s.snap.coef rs1 (2 * i + 1) = some x1 →
        t.mem.read (0x0800 + 3 * i + 2) = some ((csubq x1).extractLsb' 4 8))

/-- R141: FROMBYTES. -/
def Obligations.FrombytesUnpacksTwelveBits : Prop :=
  WordEvents 0x11#8 badD ∧
  ∀ rd : Slot, (encode (.frombytes rd)).toNat = wordNumber 0x11 rd.toNat 0 0 ∧
  ∀ s : State, rd.toNat < s.npoly → ∃ t, Completes (.frombytes rd) s t ∧
    SameOutside s.mem t.mem (slotBase rd.toNat) 512 ∧
    ∀ i < 128,
      (∀ b0 b1, s.snap.read (0x0800 + 3 * i) = some b0 → s.snap.read (0x0800 + 3 * i + 1) = some b1 →
        t.mem.coef rd (2 * i) = some (BitVec.ofNat 16 (b0.toNat + (b1.toNat % 16) * 256))) ∧
      (∀ b1 b2, s.snap.read (0x0800 + 3 * i + 1) = some b1 → s.snap.read (0x0800 + 3 * i + 2) = some b2 →
        t.mem.coef rd (2 * i + 1) = some (BitVec.ofNat 16 (b1.toNat / 16 + b2.toNat * 16)))

/-- R150: COMPRESS. -/
def Obligations.CompressQuantizesToFourBits : Prop :=
  WordEvents 0x20#8 badS ∧
  ∀ rs1 : Slot, (encode (.compress rs1)).toNat = wordNumber 0x20 0 rs1.toNat 0 ∧
  ∀ s : State, rs1.toNat < s.npoly → ∃ t, Completes (.compress rs1) s t ∧
    SameOutside s.mem t.mem 0x0800 128 ∧
    ∀ i < 128, ∀ x0 x1, s.snap.coef rs1 (2 * i) = some x0 → s.snap.coef rs1 (2 * i + 1) = some x1 →
      t.mem.read (0x0800 + i) = some (BitVec.ofNat 8
        (((csubq x0).toNat * 16 + 1664) / 3329 % 16 + 16 * (((csubq x1).toNat * 16 + 1664) / 3329 % 16)))

/-- R151: DECOMPRESS. -/
def Obligations.DecompressScalesFourBits : Prop :=
  WordEvents 0x21#8 badD ∧
  ∀ rd : Slot, (encode (.decompress rd)).toNat = wordNumber 0x21 rd.toNat 0 0 ∧
  ∀ s : State, rd.toNat < s.npoly → ∃ t, Completes (.decompress rd) s t ∧
    SameOutside s.mem t.mem (slotBase rd.toNat) 512 ∧
    ∀ i < 128, ∀ b, s.snap.read (0x0800 + i) = some b → ∃ c0 c1,
      t.mem.coef rd (2 * i) = some c0 ∧ t.mem.coef rd (2 * i + 1) = some c1 ∧
      c0.toNat = (b.toNat % 16 * 3329 + 8) / 16 ∧ c1.toNat = (b.toNat / 16 * 3329 + 8) / 16 ∧
      Canonical c0 ∧ Canonical c1

/-- R160 (pseudocode, flags, range): NTT of a written slot is BARRETT of the engine's transform of its 256 values,
through TB. -/
def Obligations.NttTransformsThenReduces : Prop :=
  WordEvents 0x30#8 badR2 ∧
  ∀ rd rs1 : Slot, (encode (.ntt rd rs1)).toNat = wordNumber 0x30 rd.toNat rs1.toNat 0 ∧
  ∀ s : State, rd.toNat < s.npoly → rs1.toNat < s.npoly → ∃ t, Completes (.ntt rd rs1) s t ∧
    SameOutside s.mem t.mem (slotBase rd.toNat) 512 ∧
    ∀ p : List Coef, p.length = 256 → (∀ i < 256, s.snap.coef rs1 i = p[i]?) →
      t.tb = (transform s.collab .forward p).map some ∧
      ∀ i < 256, ∃ v, (transform s.collab .forward p)[i]? = some v ∧
        t.mem.coef rd i = some (barrett s.collab v) ∧
        0 ≤ (barrett s.collab v).toInt ∧ (barrett s.collab v).toInt < 4096 ∧
        (barrett s.collab v).toInt % 3329 = v.toInt % 3329

/-- R161 (pseudocode, flags): INVNTT of a written slot is the engine's inverse transform, unreduced. -/
def Obligations.InvnttTransformsWithoutReduction : Prop :=
  WordEvents 0x31#8 badR2 ∧
  ∀ rd rs1 : Slot, (encode (.invntt rd rs1)).toNat = wordNumber 0x31 rd.toNat rs1.toNat 0 ∧
  ∀ s : State, rd.toNat < s.npoly → rs1.toNat < s.npoly → ∃ t, Completes (.invntt rd rs1) s t ∧
    SameOutside s.mem t.mem (slotBase rd.toNat) 512 ∧
    ∀ p : List Coef, p.length = 256 → (∀ i < 256, s.snap.coef rs1 i = p[i]?) →
      t.tb = (transform s.collab .inverse p).map some ∧
      ∀ i < 256, ∃ v, (transform s.collab .inverse p)[i]? = some v ∧ t.mem.coef rd i = some v

/-- R162 (pseudocode, flags): PMUL's 64 blocks, the first pair of each with +zeta, the second with -zeta. -/
def Obligations.PmulMultipliesPairs : Prop :=
  WordEvents 0x32#8 badR3 ∧
  ∀ rd rs1 rs2 : Slot, (encode (.pmul rd rs1 rs2)).toNat = wordNumber 0x32 rd.toNat rs1.toNat rs2.toNat ∧
  ∀ s : State, rd.toNat < s.npoly → rs1.toNat < s.npoly → rs2.toNat < s.npoly →
    ∃ t, Completes (.pmul rd rs1 rs2) s t ∧ SameOutside s.mem t.mem (slotBase rd.toNat) 512 ∧
    ∀ i < 64, ∀ a0 a1 b0 b1,
      (s.snap.coef rs1 (4 * i) = some a0 → s.snap.coef rs1 (4 * i + 1) = some a1 →
        s.snap.coef rs2 (4 * i) = some b0 → s.snap.coef rs2 (4 * i + 1) = some b1 →
        t.mem.coef rd (4 * i) = some (basemul s.collab a0 a1 b0 b1 (zeta s.collab (64 + i))).1 ∧
        t.mem.coef rd (4 * i + 1) = some (basemul s.collab a0 a1 b0 b1 (zeta s.collab (64 + i))).2) ∧
      (s.snap.coef rs1 (4 * i + 2) = some a0 → s.snap.coef rs1 (4 * i + 3) = some a1 →
        s.snap.coef rs2 (4 * i + 2) = some b0 → s.snap.coef rs2 (4 * i + 3) = some b1 →
        t.mem.coef rd (4 * i + 2) =
          some (basemul s.collab a0 a1 b0 b1 (wrap16 (-(zeta s.collab (64 + i)).toInt))).1 ∧
        t.mem.coef rd (4 * i + 3) =
          some (basemul s.collab a0 a1 b0 b1 (wrap16 (-(zeta s.collab (64 + i)).toInt))).2)

/-- R163 (pseudocode, flags): PMAC adds PMUL's products to RD as it stood at acceptance, wrapping at 16 bits. -/
def Obligations.PmacAccumulatesProducts : Prop :=
  WordEvents 0x33#8 badR3 ∧
  ∀ rd rs1 rs2 : Slot, (encode (.pmac rd rs1 rs2)).toNat = wordNumber 0x33 rd.toNat rs1.toNat rs2.toNat ∧
  ∀ s : State, rd.toNat < s.npoly → rs1.toNat < s.npoly → rs2.toNat < s.npoly →
    ∃ t, Completes (.pmac rd rs1 rs2) s t ∧ SameOutside s.mem t.mem (slotBase rd.toNat) 512 ∧
    ∀ i < 64, ∀ a0 a1 b0 b1 r0 r1,
      (s.snap.coef rs1 (4 * i) = some a0 → s.snap.coef rs1 (4 * i + 1) = some a1 →
        s.snap.coef rs2 (4 * i) = some b0 → s.snap.coef rs2 (4 * i + 1) = some b1 →
        s.snap.coef rd (4 * i) = some r0 → s.snap.coef rd (4 * i + 1) = some r1 →
        t.mem.coef rd (4 * i) =
          some (wrap16 (r0.toInt + (basemul s.collab a0 a1 b0 b1 (zeta s.collab (64 + i))).1.toInt)) ∧
        t.mem.coef rd (4 * i + 1) =
          some (wrap16 (r1.toInt + (basemul s.collab a0 a1 b0 b1 (zeta s.collab (64 + i))).2.toInt))) ∧
      (s.snap.coef rs1 (4 * i + 2) = some a0 → s.snap.coef rs1 (4 * i + 3) = some a1 →
        s.snap.coef rs2 (4 * i + 2) = some b0 → s.snap.coef rs2 (4 * i + 3) = some b1 →
        s.snap.coef rd (4 * i + 2) = some r0 → s.snap.coef rd (4 * i + 3) = some r1 →
        t.mem.coef rd (4 * i + 2) = some (wrap16 (r0.toInt +
          (basemul s.collab a0 a1 b0 b1 (wrap16 (-(zeta s.collab (64 + i)).toInt))).1.toInt)) ∧
        t.mem.coef rd (4 * i + 3) = some (wrap16 (r1.toInt +
          (basemul s.collab a0 a1 b0 b1 (wrap16 (-(zeta s.collab (64 + i)).toInt))).2.toInt)))

/-- R164: FROMMONT, with its contract range and congruence for every 16-bit input and its default examples. -/
def Obligations.FrommontMultipliesAndReduces : Prop :=
  WordEvents 0x34#8 badR2 ∧
  (∀ rd rs1 : Slot, (encode (.frommont rd rs1)).toNat = wordNumber 0x34 rd.toNat rs1.toNat 0 ∧
    ∀ s : State, rd.toNat < s.npoly → rs1.toNat < s.npoly → ∃ t, Completes (.frommont rd rs1) s t ∧
      SameOutside s.mem t.mem (slotBase rd.toNat) 512 ∧
      ∀ i < 256, ∀ x, s.snap.coef rs1 i = some x → ∃ c,
        t.mem.coef rd i = some c ∧ c = mont s.collab (BitVec.ofInt 32 (x.toInt * 1353)) ∧
        (BitVec.ofInt 32 (x.toInt * 1353)).toInt = x.toInt * 1353 ∧
        -3329 < c.toInt ∧ c.toInt < 3329 ∧
        c.toInt % 3329 = x.toInt * 1353 * (montRinv s.collab : Int) % 3329) ∧
  [1, 3328, -32768, 32767].map (fun c : Int => (mont .defaults (fromMontProduct (wrap16 c))).toInt) =
    [-1044, 1044, 988, 56]

/-- R180: REDUCE, with BARRETT's range and congruence for every input, CSUBQ after it canonical, and the default
examples. -/
def Obligations.ReduceAppliesBarrett : Prop :=
  WordEvents 0x40#8 badR2 ∧
  (∀ rd rs1 : Slot, (encode (.reduce rd rs1)).toNat = wordNumber 0x40 rd.toNat rs1.toNat 0 ∧
    ∀ s : State, rd.toNat < s.npoly → rs1.toNat < s.npoly → ∃ t, Completes (.reduce rd rs1) s t ∧
      SameOutside s.mem t.mem (slotBase rd.toNat) 512 ∧
      ∀ i < 256, ∀ x, s.snap.coef rs1 i = some x → ∃ c,
        t.mem.coef rd i = some c ∧ c = barrett s.collab x ∧ 0 ≤ c.toInt ∧ c.toInt < 4096 ∧
        c.toInt % 3329 = x.toInt % 3329 ∧ (csubq c).toInt = x.toInt % 3329) ∧
  [3329, 6657, -1, 4095, 32767, -32768, -3329, -29961].map
      (fun c : Int => (barrett .defaults (wrap16 c)).toInt) =
    [0, 3328, 3328, 766, 2806, 522, 3329, 3329]

/-- R181: CSUBQ. -/
def Obligations.CsubqSubtractsOnce : Prop :=
  WordEvents 0x41#8 badR2 ∧
  ∀ rd rs1 : Slot, (encode (.csubq rd rs1)).toNat = wordNumber 0x41 rd.toNat rs1.toNat 0 ∧
  ∀ s : State, rd.toNat < s.npoly → rs1.toNat < s.npoly → ∃ t, Completes (.csubq rd rs1) s t ∧
    SameOutside s.mem t.mem (slotBase rd.toNat) 512 ∧
    ∀ i < 256, ∀ x, s.snap.coef rs1 i = some x → ∃ c, t.mem.coef rd i = some c ∧
      c.toInt = if 3329 ≤ x.toInt then x.toInt - 3329 else x.toInt

/-- R182: ADD. -/
def Obligations.AddWrapsWithoutReduction : Prop :=
  WordEvents 0x42#8 badR3 ∧
  ∀ rd rs1 rs2 : Slot, (encode (.add rd rs1 rs2)).toNat = wordNumber 0x42 rd.toNat rs1.toNat rs2.toNat ∧
  ∀ s : State, rd.toNat < s.npoly → rs1.toNat < s.npoly → rs2.toNat < s.npoly →
    ∃ t, Completes (.add rd rs1 rs2) s t ∧ SameOutside s.mem t.mem (slotBase rd.toNat) 512 ∧
    ∀ i < 256, ∀ x y, s.snap.coef rs1 i = some x → s.snap.coef rs2 i = some y →
      t.mem.coef rd i = some (wrap16 (x.toInt + y.toInt))

/-- R183: SUB, rs1 - rs2. -/
def Obligations.SubWrapsWithoutReduction : Prop :=
  WordEvents 0x43#8 badR3 ∧
  ∀ rd rs1 rs2 : Slot, (encode (.sub rd rs1 rs2)).toNat = wordNumber 0x43 rd.toNat rs1.toNat rs2.toNat ∧
  ∀ s : State, rd.toNat < s.npoly → rs1.toNat < s.npoly → rs2.toNat < s.npoly →
    ∃ t, Completes (.sub rd rs1 rs2) s t ∧ SameOutside s.mem t.mem (slotBase rd.toNat) 512 ∧
    ∀ i < 256, ∀ x y, s.snap.coef rs1 i = some x → s.snap.coef rs2 i = some y →
      t.mem.coef rd i = some (wrap16 (x.toInt - y.toInt))

/-- R190: TOMSG, bit j of byte i from coefficient 8i + j. -/
def Obligations.TomsgDecodesOneBitPerCoefficient : Prop :=
  WordEvents 0x50#8 badS ∧
  ∀ rs1 : Slot, (encode (.tomsg rs1)).toNat = wordNumber 0x50 0 rs1.toNat 0 ∧
  ∀ s : State, rs1.toNat < s.npoly → ∃ t, Completes (.tomsg rs1) s t ∧
    SameOutside s.mem t.mem 0x0800 32 ∧
    ∀ i < 32, ∀ x : Nat → Coef, (∀ j < 8, s.snap.coef rs1 (8 * i + j) = some (x j)) →
      ∃ b, t.mem.read (0x0800 + i) = some b ∧
        ∀ j < 8, b.getLsbD j = decide (((csubq (x j)).toNat * 2 + 1664) / 3329 % 2 = 1)

/-- R191: FROMMSG, every coefficient 0 or 1665. -/
def Obligations.FrommsgEmbedsOneBitPerCoefficient : Prop :=
  WordEvents 0x51#8 badD ∧
  ∀ rd : Slot, (encode (.frommsg rd)).toNat = wordNumber 0x51 rd.toNat 0 0 ∧
  ∀ s : State, rd.toNat < s.npoly → ∃ t, Completes (.frommsg rd) s t ∧
    SameOutside s.mem t.mem (slotBase rd.toNat) 512 ∧
    ∀ i < 32, ∀ b, s.snap.read (0x0800 + i) = some b → ∀ j < 8,
      t.mem.coef rd (8 * i + j) = some (if b.getLsbD j = true then 1665#16 else 0#16)

/-- R101, R21, R23, R103: the frame of every command: no register but BUSY, DONE and the in-flight state changes,
TB changes only under NTT and INVNTT, and every byte outside the result range reads as before. -/
def Obligations.CommandFrame : Prop :=
  ∀ (i : Instr) (s t : State), i.wf s.npoly = true → exec i s = .next t →
    t.ie = s.ie ∧ t.ill = s.ill ∧ t.rej = s.rej ∧ t.cmdr = s.cmdr ∧ t.rsp = s.rsp ∧ t.rstN = s.rstN ∧
    t.moves = s.moves ∧ t.slotsM1 = s.slotsM1 ∧ t.collab = s.collab ∧
    ((∀ rd rs1, i ≠ .ntt rd rs1 ∧ i ≠ .invntt rd rs1) → t.tb = s.tb) ∧
    match resultRange i with
    | none => t.mem = s.mem
    | some (a, n) => SameOutside s.mem t.mem a n

/-- What exec does with a command that names a slot the block does not have, which no run reaches (`State.Inv`: the
word in flight is legal). It is the model's choice, log entry 7: the command ends idle, without a result, and raises
ILL with its word in CMDR, as its CMD write does by R211. -/
def Obligations.MissingSlotRaisesIll : Prop :=
  ∀ (i : Instr) (s : State), i.wf s.npoly = false →
    exec i s = .next { s with busy := false, snap := [], ext := .none, cmdr := encode i, ill := true }

/-- R35: a result is written whole: after a command every byte of its result range is written, whatever inputs
were unwritten (the model runs a command on unwritten inputs, log entry 1). -/
def Obligations.ResultsAreWritten : Prop :=
  ∀ (i : Instr) (s t : State) (a n : Nat), i.wf s.npoly = true → exec i s = .next t →
    resultRange i = some (a, n) → ∀ k, a ≤ k → k < a + n → (t.mem.read k).isSome = true

/-! ### Laws of command sequences -/

/-- R142: TOBYTES then FROMBYTES gives csubq of every coefficient in [0, 2q), itself in [0, q); FROMBYTES then
TOBYTES gives every three bytes back with each 12-bit field reduced once, unchanged when both fields are below
q. -/
def Obligations.SerializationRoundTrips : Prop :=
  (∀ (s : State) (rs1 rd : Slot), rs1.toNat < s.npoly → rd.toNat < s.npoly →
    (∀ i < 256, ∃ x, s.mem.coef rs1 i = some x ∧ 0 ≤ x.toInt ∧ x.toInt < 6658) →
    ∃ t u, runNow (.tobytes rs1) s = .next t ∧ runNow (.frombytes rd) t = .next u ∧
      ∀ i < 256, ∀ x, s.mem.coef rs1 i = some x →
        u.mem.coef rd i = some (csubq x) ∧ (x.toInt < 3329 → u.mem.coef rd i = some x)) ∧
  (∀ (s : State) (rd : Slot), rd.toNat < s.npoly →
    (∀ k < 384, (s.mem.read (0x0800 + k)).isSome = true) →
    ∃ t u, runNow (.frombytes rd) s = .next t ∧ runNow (.tobytes rd) t = .next u ∧
      ∀ i < 128, ∀ b0 b1 b2, s.mem.read (0x0800 + 3 * i) = some b0 →
        s.mem.read (0x0800 + 3 * i + 1) = some b1 → s.mem.read (0x0800 + 3 * i + 2) = some b2 →
        ∃ c0 c1 c2, u.mem.read (0x0800 + 3 * i) = some c0 ∧ u.mem.read (0x0800 + 3 * i + 1) = some c1 ∧
          u.mem.read (0x0800 + 3 * i + 2) = some c2 ∧
          packedField0 c0 c1 = reducedField (packedField0 b0 b1) ∧
          packedField1 c1 c2 = reducedField (packedField1 b1 b2) ∧
          (packedField0 b0 b1 < 3329 → packedField1 b1 b2 < 3329 → c0 = b0 ∧ c1 = b1 ∧ c2 = b2))

/-- R192 item 1: FROMMSG then TOMSG gives every 32-byte message back. -/
def Obligations.MessageRoundTripWithoutNoise : Prop :=
  ∀ (s : State) (r : Slot), r.toNat < s.npoly → (∀ i < 32, (s.mem.read (0x0800 + i)).isSome = true) →
    ∃ t u, runNow (.frommsg r) s = .next t ∧ runNow (.tomsg r) t = .next u ∧
      ∀ i < 32, u.mem.read (0x0800 + i) = s.mem.read (0x0800 + i)

/-- R192 item 2: FROMMSG, ADD of a noise polynomial with every coefficient in [-832, 831], REDUCE, CSUBQ, TOMSG
gives the message back, for every conforming BARRETT and for the default one. -/
def Obligations.NoisyMessageIsRecovered : Prop :=
  ∀ (s : State) (r e : Slot), r.toNat < s.npoly → e.toNat < s.npoly → r ≠ e →
    (∀ i < 32, (s.mem.read (0x0800 + i)).isSome = true) →
    (∀ i < 256, ∃ x, s.mem.coef e i = some x ∧ -832 ≤ x.toInt ∧ x.toInt ≤ 831) →
    ∃ t1 t2 t3 t4 u, runNow (.frommsg r) s = .next t1 ∧ runNow (.add r r e) t1 = .next t2 ∧
      runNow (.reduce r r) t2 = .next t3 ∧ runNow (.csubq r r) t3 = .next t4 ∧
      runNow (.tomsg r) t4 = .next u ∧
      ∀ i < 32, u.mem.read (0x0800 + i) = s.mem.read (0x0800 + i)

/-! ### The host port (20_memory.md, 60_exceptions.md) -/

/-- R56: an access raises BusError exactly under R56's conditions; it then changes nothing but the response, which
is err = 1 and rdata = 0, whatever BUSY is; every other access is answered OK. -/
def Obligations.BusErrorsAreExactlyTheListed : Prop :=
  ∀ (s : State) (r : BusReq),
    (BusErrorConditions s.npoly r → s.access r = { s with rsp := some ⟨0, true⟩ }) ∧
    (¬ BusErrorConditions s.npoly r → ∃ d, (s.access r).rsp = some ⟨d, false⟩)

/-- R57: while BUSY, a legal BUF or slot access and a CMD write set REJ, answer OK with 0 and change nothing else;
an SRST write does so too, but for IE; and no access at all changes memory, the snapshot, CMDR, TB or the pending
request. -/
def Obligations.BusyRejectsAccesses : Prop :=
  ∀ (s : State) (r : BusReq), s.busy = true →
    (¬ BusErrorConditions s.npoly r → 0x0800 ≤ r.addr.toNat →
      s.access r = { s with rej := true, rsp := some ⟨0, false⟩ }) ∧
    (r.size = 2#2 → r.addr = 0x000C#14 → r.we = true →
      s.access r = { s with rej := true, rsp := some ⟨0, false⟩ }) ∧
    (r.size = 2#2 → r.addr = 0x0004#14 → r.we = true → r.wdata.getLsbD 1 = true →
      s.access r = { s with ie := r.wdata.getLsbD 0, rej := true, rsp := some ⟨0, false⟩ }) ∧
    ((s.access r).mem = s.mem ∧ (s.access r).snap = s.snap ∧ (s.access r).cmdr = s.cmdr ∧
      (s.access r).tb = s.tb ∧ (s.access r).ext = s.ext ∧ (s.access r).busy = true)

/-- R53: a BUF access of 1, 2 or 4 bytes. While idle it is little-endian: a write changes those bytes alone, a read of
written bytes changes nothing. While BUSY it is rejected as R57 says. A read of bytes some of which are unwritten is
answered OK too and changes nothing but the response and the index of free values (R35, the model's log entry 1). -/
def Obligations.BufWindowIsLittleEndian : Prop :=
  ∀ (s : State) (r : BusReq) (n : Nat), r.size ≠ 3#2 → n = 2 ^ r.size.toNat →
    r.addr.toNat % n = 0 → 0x0800 ≤ r.addr.toNat → r.addr.toNat ≤ 0x0980 - n →
    (s.busy = false → r.we = true → ∃ m, s.access r = { s with mem := m, rsp := some ⟨0, false⟩ } ∧
      (∀ j < n, m.read (r.addr.toNat + j) = some (r.wdata.extractLsb' (8 * j) 8)) ∧
      SameOutside s.mem m r.addr.toNat n) ∧
    (s.busy = false → r.we = false → ∀ b : Nat → Byte, (∀ j < n, s.mem.read (r.addr.toNat + j) = some (b j)) →
      s.access r = { s with
        rsp := some ⟨BitVec.ofNat 32 (((List.range n).map fun j => (b j).toNat * 256 ^ j).sum), false⟩ }) ∧
    (s.busy = false → r.we = false → ∃ d k, s.access r = { s with rsp := some ⟨d, false⟩, freeIx := k }) ∧
    (s.busy = true → s.access r = { s with rej := true, rsp := some ⟨0, false⟩ })

/-- R54: a slot access of 2 or 4 bytes. While idle it moves one or two whole coefficients, the even one in the low
half: a write changes those alone and takes any 16-bit pattern, a read of written ones changes nothing. While BUSY it
is rejected as R57 says. A read of coefficients some of which are unwritten is answered OK too and changes nothing but
the response and the index of free values (R35, the model's log entry 1). -/
def Obligations.SlotWindowMovesCoefficients : Prop :=
  ∀ (s : State) (r : BusReq) (p : Slot) (i : Nat), p.toNat < s.npoly → i < 256 →
    r.addr.toNat = 0x1000 + 0x200 * p.toNat + 2 * i →
    (r.size = 1#2 →
      (s.busy = false → r.we = true → ∃ m, s.access r = { s with mem := m, rsp := some ⟨0, false⟩ } ∧
        m.coef p i = some (r.wdata.extractLsb' 0 16) ∧ SameOutside s.mem m r.addr.toNat 2) ∧
      (s.busy = false → r.we = false → ∀ c, s.mem.coef p i = some c →
        s.access r = { s with rsp := some ⟨c.setWidth 32, false⟩ }) ∧
      (s.busy = false → r.we = false → ∃ d k, s.access r = { s with rsp := some ⟨d, false⟩, freeIx := k }) ∧
      (s.busy = true → s.access r = { s with rej := true, rsp := some ⟨0, false⟩ })) ∧
    (r.size = 2#2 → i % 2 = 0 →
      (s.busy = false → r.we = true → ∃ m, s.access r = { s with mem := m, rsp := some ⟨0, false⟩ } ∧
        m.coef p i = some (r.wdata.extractLsb' 0 16) ∧ m.coef p (i + 1) = some (r.wdata.extractLsb' 16 16) ∧
        SameOutside s.mem m r.addr.toNat 4) ∧
      (s.busy = false → r.we = false → ∀ c0 c1, s.mem.coef p i = some c0 → s.mem.coef p (i + 1) = some c1 →
        s.access r = { s with rsp := some ⟨c1 ++ c0, false⟩ }) ∧
      (s.busy = false → r.we = false → ∃ d k, s.access r = { s with rsp := some ⟨d, false⟩, freeIx := k }) ∧
      (s.busy = true → s.access r = { s with rej := true, rsp := some ⟨0, false⟩ }))

/-- R27 to R30, R52: what the four registers read as, field by field, with reserved bits 0 and no side effect, and
that an ID write is ignored with OK. -/
def Obligations.RegistersReadAsTheirFields : Prop :=
  ∀ (s : State) (r : BusReq), r.size = 2#2 →
    (r.addr = 0x0000#14 →
      (r.we = true → s.access r = { s with rsp := some ⟨0, false⟩ }) ∧
      (r.we = false → ∃ d, s.access r = { s with rsp := some ⟨d, false⟩ } ∧ d.extractLsb' 0 16 = 0x0D01#16 ∧
        (d.extractLsb' 16 8).toNat = s.npoly ∧ d.extractLsb' 24 8 = 0x01#8)) ∧
    (r.we = false → r.addr = 0x0004#14 →
      ∃ d, s.access r = { s with rsp := some ⟨d, false⟩ } ∧ d.toNat = s.ie.toNat) ∧
    (r.we = false → r.addr = 0x0008#14 →
      ∃ d, s.access r = { s with rsp := some ⟨d, false⟩ } ∧
        d.toNat = s.busy.toNat + 2 * s.done.toNat + 4 * s.ill.toNat + 8 * s.rej.toNat) ∧
    (r.we = false → r.addr = 0x000C#14 → s.access r = { s with rsp := some ⟨s.cmdr, false⟩ })

/-- R28 and R241: a CTRL write takes IE from bit 0 whatever BUSY is; with SRST it resets IE, the flags and CMDR
while idle, keeping slots and BUF, and is refused with REJ while BUSY. -/
def Obligations.CtrlWriteAndSoftReset : Prop :=
  ∀ (s : State) (r : BusReq), r.size = 2#2 → r.addr = 0x0004#14 → r.we = true →
    (r.wdata.getLsbD 1 = false →
      s.access r = { s with ie := r.wdata.getLsbD 0, rsp := some ⟨0, false⟩ }) ∧
    (r.wdata.getLsbD 1 = true → s.busy = false →
      s.access r = { s with
        ie := false, done := false, ill := false, rej := false, cmdr := 0, rsp := some ⟨0, false⟩ }) ∧
    (r.wdata.getLsbD 1 = true → s.busy = true →
      s.access r = { s with ie := r.wdata.getLsbD 0, rej := true, rsp := some ⟨0, false⟩ })

/-- R29, R31, R217, R219: a STATUS write clears exactly the flags whose bits are 1, whatever BUSY is, and irq
follows at once; a command that completes after it sets DONE again. -/
def Obligations.StatusWriteOneClears : Prop :=
  ∀ (s : State) (r : BusReq), r.size = 2#2 → r.addr = 0x0008#14 → r.we = true →
    s.access r = { s with
      done := s.done && !r.wdata.getLsbD 1, ill := s.ill && !r.wdata.getLsbD 2,
      rej := s.rej && !r.wdata.getLsbD 3, rsp := some ⟨0, false⟩ } ∧
    (s.access r).irq = (s.ie && ((s.done && !r.wdata.getLsbD 1) || (s.ill && !r.wdata.getLsbD 2) ||
      (s.rej && !r.wdata.getLsbD 3))) ∧
    ∀ (i : Instr) (t : State), i.wf s.npoly = true → exec i (s.access r) = .next t → t.done = true

/-- R100, R30: the three cases of a CMD write, each answered OK; an accepted NTT or INVNTT hands its source over in TB
(R120), an accepted PMUL or PMAC queues its 128 requests (R121, R125), and any other command requests nothing. -/
def Obligations.CmdWriteAcceptsRefusesOrRaises : Prop :=
  ∀ (s : State) (r : BusReq), r.size = 2#2 → r.addr = 0x000C#14 → r.we = true →
    (s.busy = true → s.access r = { s with rej := true, rsp := some ⟨0, false⟩ }) ∧
    (s.busy = false → (∀ i, decode s.npoly r.wdata ≠ .cmd i) →
      s.access r = { s with cmdr := r.wdata, ill := true, rsp := some ⟨0, false⟩ }) ∧
    (s.busy = false → ∀ i, decode s.npoly r.wdata = .cmd i → ∃ tb ext,
      s.access r = { s with
        cmdr := r.wdata, busy := true, snap := s.mem, tb := tb, ext := ext, rsp := some ⟨0, false⟩ } ∧
      (∀ rd rs1, i = .ntt rd rs1 →
        tb = (List.range 256).map (s.mem.coef rs1) ∧ ext = .transform .forward) ∧
      (∀ rd rs1, i = .invntt rd rs1 →
        tb = (List.range 256).map (s.mem.coef rs1) ∧ ext = .transform .inverse) ∧
      (∀ rd rs1 rs2, i = .pmul rd rs1 rs2 ∨ i = .pmac rd rs1 rs2 →
        tb = s.tb ∧ ext = .basemul (s.now.bmRequests rs1 rs2)) ∧
      ((∀ rd rs1 rs2, i ≠ .ntt rd rs1 ∧ i ≠ .invntt rd rs1 ∧ i ≠ .pmul rd rs1 rs2 ∧ i ≠ .pmac rd rs1 rs2) →
        tb = s.tb ∧ ext = .none))

/-- R240, R34, R242: after rst_n low every register has its reset value, nothing is in flight or written, and the
level's return to 1 changes nothing else; `State.reset` is that state for the default parameters. While
rst_n = 0 no host access is answered and no engine's answer or write is taken: every move but one of the line itself
leaves the block as it is, with no response (the moves of a breach among them: log entry 11). That the schedule and
the index of free values survive, and that an idle machine with no move repeats its state, is the model's (log entries
1 and 6). -/
def Obligations.HardwareResetGivesTheResetState : Prop :=
  (∀ (s : State) (ms : List Move), s.moves = .rst false :: .rst true :: ms →
    ∃ t u, step s = .next t ∧ step t = .next u ∧
      t.busy = false ∧ t.mem = [] ∧ t.rstN = false ∧ t.irq = false ∧
      u = { State.reset with
        slotsM1 := s.slotsM1, collab := s.collab, moves := ms, freeIx := s.freeIx }) ∧
  (∀ s : State, s.rstN = false → (∀ level, s.moves.head? ≠ some (.rst level)) →
    step s = .next { s with moves := s.moves.tail, rsp := none }) ∧
  State.reset.statusWord = 0 ∧ State.reset.ctrlWord = 0 ∧ State.reset.cmdr = 0 ∧ State.reset.irq = false ∧
  State.reset.idWord = 0x01080D01#32 ∧ State.reset.ext = .none ∧
  (∀ a, State.reset.mem.read a = none) ∧ step State.reset = .next State.reset

/-! ### The whole machine -/

/-- The invariant holds after reset. -/
def Obligations.InvariantHoldsAtReset : Prop := State.reset.Inv

/-- Every step keeps the invariant: memory canonical, inside the map and written in whole coefficients; TB of 256
entries; while BUSY, CMDR a legal word, the snapshot equal to the memory (R101, R62), and the pending request that
command's; while idle, nothing in flight; while rst_n = 0, the reset values. -/
def Obligations.StepKeepsTheInvariant : Prop :=
  ∀ s t : State, s.Inv → step s = .next t → t.Inv

/-- Every step keeps the canonical form of the memory, in every state. -/
def Obligations.StepKeepsMemoryCanonical : Prop :=
  ∀ s t : State, s.mem.wf → step s = .next t → t.mem.wf

/-- R7, R124, R243: no step changes NPOLY or the attached collaborators. -/
def Obligations.StepKeepsTheParameters : Prop :=
  ∀ s t : State, step s = .next t → t.slotsM1 = s.slotsM1 ∧ t.collab = s.collab

/-- R29, R32, R215, R220: a flag rises only by its own event: DONE by the completion of a due command, BUSY by an idle
CMD write of a legal word, ILL by an idle CMD write of an illegal word, REJ by an access while BUSY. And it
falls only by what clears it: BUSY by a due command's completion or rst_n low; DONE, ILL and REJ by a STATUS write of
1 to the flag's bit, a soft reset or rst_n low. The events are moves of the model's schedule (log entry 6). -/
def Obligations.FlagsChangeOnlyByTheirEvents : Prop :=
  ∀ s t : State, s.Inv → step s = .next t →
    (s.done = false → t.done = true →
      s.due = true ∧ (s.moves = [] ∨ s.moves.head? = some .complete)) ∧
    (s.busy = false → t.busy = true → ∃ r ms i, s.moves = .host r :: ms ∧ r.we = true ∧
      r.addr = 0x000C#14 ∧ decode s.npoly r.wdata = .cmd i) ∧
    (s.ill = false → t.ill = true → s.busy = false ∧ ∃ r ms, s.moves = .host r :: ms ∧ r.we = true ∧
      r.addr = 0x000C#14 ∧ ∀ i, decode s.npoly r.wdata ≠ .cmd i) ∧
    (s.rej = false → t.rej = true → s.busy = true ∧ ∃ r ms, s.moves = .host r :: ms) ∧
    (s.busy = true → t.busy = false →
      (s.due = true ∧ (s.moves = [] ∨ s.moves.head? = some .complete)) ∨ s.moves.head? = some (.rst false)) ∧
    (s.done = true → t.done = false → ClearsFlag s 1) ∧
    (s.ill = true → t.ill = false → ClearsFlag s 2) ∧
    (s.rej = true → t.rej = false → ClearsFlag s 3)

/-- R62, R101: memory changes only by a host write while idle, by a due command's completion, or by rst_n low; these
are moves of the model's schedule (log entry 6). -/
def Obligations.MemoryChangesOnlyByWriteCompletionOrReset : Prop :=
  ∀ s t : State, step s = .next t → t.mem ≠ s.mem →
    (∃ r ms, s.moves = .host r :: ms ∧ r.we = true ∧ s.busy = false ∧ 0x0800 ≤ r.addr.toNat) ∨
    (s.due = true ∧ (s.moves = [] ∨ s.moves.head? = some .complete)) ∨
    s.moves.head? = some (.rst false)

/-- R106, R125: the external requests a command makes (port, number, order, twiddles) depend on the command word
and not on any coefficient or byte. -/
def Obligations.RequestsDependOnTheWordAlone : Prop :=
  ∀ (s1 s2 : State) (w : Word) (i : Instr), s1.busy = false → s2.busy = false →
    s1.slotsM1 = s2.slotsM1 → s1.collab = s2.collab → decode s1.npoly w = .cmd i →
    (s1.cmdWrite w).ext.shape = (s2.cmdWrite w).ext.shape
end

