-- ==== Sys2Proof/Laws/Arith.lean ====
section
/-! SUPPORT. The 16-bit arithmetic of commands as integers: one lemma per function. -/

namespace Sys2Proof.Machine

/-- wrap16 leaves a value in range alone (R9). -/
theorem toInt_wrap16_of_range {v : Int} (h1 : -32768 ≤ v) (h2 : v < 32768) : (wrap16 v).toInt = v := by
  rw [wrap16, BitVec.toInt_ofInt, Int.bmod_def]
  omega

/-- wrap16 of any value (R9). -/
theorem toInt_wrap16 (v : Int) : (wrap16 v).toInt = (v + 32768) % 65536 - 32768 := by
  rw [wrap16, BitVec.toInt_ofInt, Int.bmod_def]
  omega

/-- Every coefficient is in [-32768, 32767] (R20). -/
theorem coef_range (x : Coef) : -32768 ≤ x.toInt ∧ x.toInt < 32768 := by
  have h1 := BitVec.toInt_lt (x := x)
  have h2 := BitVec.le_toInt (x := x)
  constructor <;> simpa using by assumption

/-- csubq as an integer: no wrap on any input (R110). -/
theorem toInt_csubq (x : Coef) : (csubq x).toInt = if 3329 ≤ x.toInt then x.toInt - 3329 else x.toInt := by
  have := coef_range x
  unfold csubq
  split
  · rw [toInt_wrap16_of_range] <;> omega
  · rfl

/-- The unsigned reading of a coefficient (R113). -/
theorem toNat_coef (x : Coef) : (x.toNat : Int) = if x.toInt < 0 then x.toInt + 65536 else x.toInt := by
  have := x.isLt
  rw [BitVec.toInt_eq_toNat_cond]
  split <;> split <;> omega

/-- The value the rounding formulas are applied to (R112, R113). -/
theorem canonU_eq (x : Coef) :
    (canonU x : Int) =
      if x.toInt < 0 then x.toInt + 65536 else if 3329 ≤ x.toInt then x.toInt - 3329 else x.toInt := by
  rw [canonU, toNat_coef, toInt_csubq]
  split_ifs <;> omega

/-- The default MONT: a - u·q is an exact multiple of 2^16, and the quotient fits (I-GK2). -/
theorem toInt_montDefault (y : Word) (h1 : -1090846720 ≤ y.toInt) (h2 : y.toInt < 1090846720) :
    (montDefault y).toInt * 65536 = y.toInt - (wrap16 (y.toInt * 62209)).toInt * 3329 := by
  unfold montDefault
  simp only
  have hu := coef_range (wrap16 (y.toInt * 62209))
  have hu2 := toInt_wrap16 (y.toInt * 62209)
  generalize (wrap16 (y.toInt * 62209)).toInt = u at *
  rw [toInt_wrap16_of_range] <;> omega

/-- FROMMONT's product is exact in 32 bits (R164). -/
theorem toInt_fromMontProduct (c : Coef) : (fromMontProduct c).toInt = c.toInt * 1353 := by
  have := coef_range c
  rw [fromMontProduct, BitVec.toInt_ofInt, Int.bmod_def]
  omega

end Sys2Proof.Machine
end

