-- ==== Sys2Proof/Laws/Memory.lean ====
section
/-! SUPPORT. What the memory operations do: one lemma per operation, and the canonical form is kept. -/

namespace Sys2Proof.Machine

@[simp] theorem Memory.read_nil (a : Nat) : Memory.read [] a = none := rfl

theorem Memory.read_cons (k : Nat) (b : Byte) (t : Memory) (a : Nat) :
    Memory.read ((k, b) :: t) a = if k = a then some b else Memory.read t a := rfl

theorem Memory.read_append (m n : Memory) (a : Nat) :
    Memory.read (m ++ n) a = (Memory.read m a).or (Memory.read n a) := by
  induction m with
  | nil => rfl
  | cons c t ih =>
    obtain ⟨k, b⟩ := c
    rw [List.cons_append, Memory.read_cons, Memory.read_cons, ih]
    split <;> rfl

/-- Keeping the cells whose address meets a test keeps exactly those reads. -/
theorem Memory.read_filter (p : Nat → Bool) (m : Memory) (a : Nat) :
    Memory.read (m.filter fun c => p c.1) a = if p a = true then Memory.read m a else none := by
  induction m with
  | nil => simp
  | cons c t ih =>
    obtain ⟨k, b⟩ := c
    by_cases hk : p k = true
    · rw [List.filter_cons_of_pos (by simpa using hk), Memory.read_cons, Memory.read_cons, ih]
      by_cases h : k = a
      · subst h; simp [hk]
      · simp [h]
    · rw [List.filter_cons_of_neg (by simpa using hk), ih, Memory.read_cons]
      by_cases h : k = a
      · subst h; simp [hk]
      · simp [h]

theorem read_cellsFrom (bs : List Byte) (base a : Nat) :
    Memory.read (cellsFrom base bs) a = if base ≤ a then bs[a - base]? else none := by
  induction bs generalizing base with
  | nil => simp [cellsFrom]
  | cons b t ih =>
    rw [cellsFrom, Memory.read_cons, ih]
    by_cases h : base = a
    · subst h; simp
    · by_cases h' : base ≤ a
      · have : a - base = a - (base + 1) + 1 := by omega
        have h2 : base + 1 ≤ a := by omega
        simp [h, h', h2, this]
      · have h2 : ¬ base + 1 ≤ a := by omega
        simp [h, h', h2]

/-- A read after a run of bytes is written: the byte written there, or what stood there before. -/
theorem Memory.read_writeRun (m : Memory) (base : Nat) (bs : List Byte) (a : Nat) :
    (m.writeRun base bs).read a =
      if base ≤ a ∧ a < base + bs.length then bs[a - base]? else m.read a := by
  have e1 := Memory.read_filter (fun k => decide (k < base)) m a
  have e2 := Memory.read_filter (fun k => decide (base + bs.length ≤ k)) m a
  simp only [decide_eq_true_eq] at e1 e2
  rw [Memory.writeRun, Memory.read_append, Memory.read_append, e1, e2, read_cellsFrom]
  by_cases h1 : a < base
  · have h2 : ¬ base ≤ a := by omega
    have h3 : ¬ base + bs.length ≤ a := by omega
    simp [h1, h2, h3]
  · by_cases h3 : base + bs.length ≤ a
    · have h2 : base ≤ a := by omega
      have h4 : ¬ a < base + bs.length := by omega
      have h5 : bs[a - base]? = none := by rw [List.getElem?_eq_none]; omega
      simp [h1, h2, h3, h4, h5]
    · have h2 : base ≤ a := by omega
      have h4 : a < base + bs.length := by omega
      simp [h1, h2, h3, h4]

/-- Bytes outside a written run are left alone. -/
theorem Memory.read_writeRun_outside {m : Memory} {base a : Nat} {bs : List Byte}
    (h : ¬ (base ≤ a ∧ a < base + bs.length)) : (m.writeRun base bs).read a = m.read a := by
  rw [Memory.read_writeRun, if_neg h]

theorem mem_cellsFrom {bs : List Byte} {base : Nat} {c : Host.Cell} (h : c ∈ cellsFrom base bs) :
    base ≤ c.1 ∧ c.1 < base + bs.length := by
  induction bs generalizing base with
  | nil => simp [cellsFrom] at h
  | cons b t ih =>
    rcases List.mem_cons.1 h with rfl | h
    · simp
    · have := ih h
      simp only [List.length_cons]
      omega

theorem wf_cellsFrom (bs : List Byte) (base : Nat) : Memory.wf (cellsFrom base bs) := by
  induction bs generalizing base with
  | nil => exact List.Pairwise.nil
  | cons b t ih => exact List.Pairwise.cons (fun c hc => by have := mem_cellsFrom hc; omega) (ih _)

/-- A cell of a memory after a write is a new one of the run or an old one outside it. -/
theorem Memory.mem_writeRun {m : Memory} {base : Nat} {bs : List Byte} {c : Host.Cell}
    (h : c ∈ m.writeRun base bs) : (base ≤ c.1 ∧ c.1 < base + bs.length) ∨ c ∈ m := by
  simp only [Memory.writeRun, List.mem_append, List.mem_filter] at h
  rcases h with (h | h) | h
  · exact Or.inr h.1
  · exact Or.inl (mem_cellsFrom h)
  · exact Or.inr h.1

/-- Every write keeps the canonical form. -/
theorem Memory.wf_writeRun {m : Memory} (hm : m.wf) (base : Nat) (bs : List Byte) :
    (m.writeRun base bs).wf := by
  have h3 := List.Pairwise.filter (fun c => decide (base + bs.length ≤ c.1)) hm
  have h1 := List.Pairwise.filter (fun c => decide (c.1 < base)) hm
  refine List.pairwise_append.2 ⟨List.pairwise_append.2 ⟨h1, wf_cellsFrom bs base, ?_⟩, h3, ?_⟩
  · intro x hx y hy
    have hx' := (List.mem_filter.1 hx).2
    have := mem_cellsFrom hy
    simp only [decide_eq_true_eq] at hx'
    omega
  · intro x hx y hy
    have hy' := (List.mem_filter.1 hy).2
    simp only [decide_eq_true_eq] at hy'
    rcases List.mem_append.1 hx with hx | hx
    · have hx' := (List.mem_filter.1 hx).2
      simp only [decide_eq_true_eq] at hx'
      omega
    · have := mem_cellsFrom hx
      omega

/-- In a canonical memory a listed cell is what its address reads as. -/
theorem Memory.read_of_mem {m : Memory} (hm : m.wf) {c : Host.Cell} (h : c ∈ m) :
    m.read c.1 = some c.2 := by
  induction m with
  | nil => simp at h
  | cons d t ih =>
    obtain ⟨k, b⟩ := d
    rw [Memory.read_cons]
    rcases List.mem_cons.1 h with rfl | h
    · simp
    · have hlt := (List.pairwise_cons.1 hm).1 c h
      have hne : ¬ k = c.1 := by
        have : k < c.1 := hlt
        omega
      rw [if_neg hne]
      exact ih (List.pairwise_cons.1 hm).2 h

/-- What a memory reads at an address is the byte of a cell it lists there. -/
theorem Memory.mem_of_read {m : Memory} {a : Nat} {b : Byte} (h : m.read a = some b) : (a, b) ∈ m := by
  induction m with
  | nil => simp at h
  | cons d t ih =>
    obtain ⟨k, e⟩ := d
    rw [Memory.read_cons] at h
    split at h
    · rename_i hk
      subst hk
      simp only [Option.some.injEq] at h
      subst h
      exact List.mem_cons_self
    · exact List.mem_cons_of_mem _ (ih h)

/-- Canonical memories that read the same are equal data. -/
theorem Memory.eq_of_read_eq {m n : Memory} (hm : m.wf) (hn : n.wf)
    (h : ∀ a, m.read a = n.read a) : m = n := by
  apply List.Perm.eq_of_pairwise (le := fun x y : Host.Cell => x.1 < y.1) ?_ hm hn
  · rw [List.perm_ext_iff_of_nodup]
    · intro c
      constructor
      · intro hc
        exact Memory.mem_of_read ((h c.1).symm.trans (Memory.read_of_mem hm hc))
      · intro hc
        exact Memory.mem_of_read ((h c.1).trans (Memory.read_of_mem hn hc))
    · exact hm.imp (fun hxy he => by rw [he] at hxy; omega)
    · exact hn.imp (fun hxy he => by rw [he] at hxy; omega)
  · intro a b _ _ h1 h2
    omega

@[simp] theorem length_fillFree (n a : Nat) (bs : List (Option Byte)) :
    (fillFree n a bs).length = bs.length := by
  induction bs generalizing a with
  | nil => rfl
  | cons b t ih => simp [fillFree, ih]

/-- Byte j of a filled result: the byte, or the free value of its address. -/
theorem getElem?_fillFree (n a : Nat) (bs : List (Option Byte)) (j : Nat) :
    (fillFree n a bs)[j]? = bs[j]?.map fun ob => ob.getD (Config.freeByte n (a + j)) := by
  induction bs generalizing a j with
  | nil => simp [fillFree]
  | cons b t ih =>
    cases j with
    | zero => simp [fillFree]
    | succ j =>
      simp only [fillFree, List.getElem?_cons_succ, ih]
      rw [show a + 1 + j = a + (j + 1) by omega]

/-- Filling a result without gaps draws no free value. -/
theorem fillFree_map_some (n a : Nat) (bs : List Byte) : fillFree n a (bs.map some) = bs := by
  induction bs generalizing a with
  | nil => rfl
  | cons b t ih => simp [fillFree, ih]

@[simp] theorem length_bytesOfData (n : Nat) (v : Word) : (bytesOfData n v).length = n := by
  simp [bytesOfData]

@[simp] theorem length_readRun (m : Memory) (a n : Nat) : (m.readRun a n).length = n := by
  simp [Memory.readRun]

end Sys2Proof.Machine
end

