-- ==== Sys2Proof/Laws/State.lean ====
section
/-! SUPPORT. Every field after every state update, true by rfl, so that no later proof unfolds an update. -/

namespace Sys2Proof.Machine

/-! ### respond -/

@[simp] theorem State.respond_slotsM1 (s : State) (data : Word) (err : Bool) :
    (s.respond data err).slotsM1 = s.slotsM1 := rfl
@[simp] theorem State.respond_collab (s : State) (data : Word) (err : Bool) :
    (s.respond data err).collab = s.collab := rfl
@[simp] theorem State.respond_mem (s : State) (data : Word) (err : Bool) :
    (s.respond data err).mem = s.mem := rfl
@[simp] theorem State.respond_tb (s : State) (data : Word) (err : Bool) :
    (s.respond data err).tb = s.tb := rfl
@[simp] theorem State.respond_ie (s : State) (data : Word) (err : Bool) :
    (s.respond data err).ie = s.ie := rfl
@[simp] theorem State.respond_busy (s : State) (data : Word) (err : Bool) :
    (s.respond data err).busy = s.busy := rfl
@[simp] theorem State.respond_done (s : State) (data : Word) (err : Bool) :
    (s.respond data err).done = s.done := rfl
@[simp] theorem State.respond_ill (s : State) (data : Word) (err : Bool) :
    (s.respond data err).ill = s.ill := rfl
@[simp] theorem State.respond_rej (s : State) (data : Word) (err : Bool) :
    (s.respond data err).rej = s.rej := rfl
@[simp] theorem State.respond_cmdr (s : State) (data : Word) (err : Bool) :
    (s.respond data err).cmdr = s.cmdr := rfl
@[simp] theorem State.respond_snap (s : State) (data : Word) (err : Bool) :
    (s.respond data err).snap = s.snap := rfl
@[simp] theorem State.respond_ext (s : State) (data : Word) (err : Bool) :
    (s.respond data err).ext = s.ext := rfl
@[simp] theorem State.respond_rsp (s : State) (data : Word) (err : Bool) :
    (s.respond data err).rsp = some ⟨data, err⟩ := rfl
@[simp] theorem State.respond_rstN (s : State) (data : Word) (err : Bool) :
    (s.respond data err).rstN = s.rstN := rfl
@[simp] theorem State.respond_moves (s : State) (data : Word) (err : Bool) :
    (s.respond data err).moves = s.moves := rfl
@[simp] theorem State.respond_freeIx (s : State) (data : Word) (err : Bool) :
    (s.respond data err).freeIx = s.freeIx := rfl

/-! ### raiseIll -/

@[simp] theorem State.raiseIll_slotsM1 (s : State) (w : Word) : (s.raiseIll w).slotsM1 = s.slotsM1 := rfl
@[simp] theorem State.raiseIll_collab (s : State) (w : Word) : (s.raiseIll w).collab = s.collab := rfl
@[simp] theorem State.raiseIll_mem (s : State) (w : Word) : (s.raiseIll w).mem = s.mem := rfl
@[simp] theorem State.raiseIll_tb (s : State) (w : Word) : (s.raiseIll w).tb = s.tb := rfl
@[simp] theorem State.raiseIll_ie (s : State) (w : Word) : (s.raiseIll w).ie = s.ie := rfl
@[simp] theorem State.raiseIll_busy (s : State) (w : Word) : (s.raiseIll w).busy = s.busy := rfl
@[simp] theorem State.raiseIll_done (s : State) (w : Word) : (s.raiseIll w).done = s.done := rfl
@[simp] theorem State.raiseIll_ill (s : State) (w : Word) : (s.raiseIll w).ill = true := rfl
@[simp] theorem State.raiseIll_rej (s : State) (w : Word) : (s.raiseIll w).rej = s.rej := rfl
@[simp] theorem State.raiseIll_cmdr (s : State) (w : Word) : (s.raiseIll w).cmdr = w := rfl
@[simp] theorem State.raiseIll_snap (s : State) (w : Word) : (s.raiseIll w).snap = s.snap := rfl
@[simp] theorem State.raiseIll_ext (s : State) (w : Word) : (s.raiseIll w).ext = s.ext := rfl
@[simp] theorem State.raiseIll_rsp (s : State) (w : Word) : (s.raiseIll w).rsp = s.rsp := rfl
@[simp] theorem State.raiseIll_rstN (s : State) (w : Word) : (s.raiseIll w).rstN = s.rstN := rfl
@[simp] theorem State.raiseIll_moves (s : State) (w : Word) : (s.raiseIll w).moves = s.moves := rfl
@[simp] theorem State.raiseIll_freeIx (s : State) (w : Word) : (s.raiseIll w).freeIx = s.freeIx := rfl

/-! ### raiseRej -/

@[simp] theorem State.raiseRej_slotsM1 (s : State) : s.raiseRej.slotsM1 = s.slotsM1 := rfl
@[simp] theorem State.raiseRej_collab (s : State) : s.raiseRej.collab = s.collab := rfl
@[simp] theorem State.raiseRej_mem (s : State) : s.raiseRej.mem = s.mem := rfl
@[simp] theorem State.raiseRej_tb (s : State) : s.raiseRej.tb = s.tb := rfl
@[simp] theorem State.raiseRej_ie (s : State) : s.raiseRej.ie = s.ie := rfl
@[simp] theorem State.raiseRej_busy (s : State) : s.raiseRej.busy = s.busy := rfl
@[simp] theorem State.raiseRej_done (s : State) : s.raiseRej.done = s.done := rfl
@[simp] theorem State.raiseRej_ill (s : State) : s.raiseRej.ill = s.ill := rfl
@[simp] theorem State.raiseRej_rej (s : State) : s.raiseRej.rej = true := rfl
@[simp] theorem State.raiseRej_cmdr (s : State) : s.raiseRej.cmdr = s.cmdr := rfl
@[simp] theorem State.raiseRej_snap (s : State) : s.raiseRej.snap = s.snap := rfl
@[simp] theorem State.raiseRej_ext (s : State) : s.raiseRej.ext = s.ext := rfl
@[simp] theorem State.raiseRej_rsp (s : State) : s.raiseRej.rsp = s.rsp := rfl
@[simp] theorem State.raiseRej_rstN (s : State) : s.raiseRej.rstN = s.rstN := rfl
@[simp] theorem State.raiseRej_moves (s : State) : s.raiseRej.moves = s.moves := rfl
@[simp] theorem State.raiseRej_freeIx (s : State) : s.raiseRej.freeIx = s.freeIx := rfl

/-! ### acknowledge -/

@[simp] theorem State.acknowledge_slotsM1 (s : State) (v : Word) :
    (s.acknowledge v).slotsM1 = s.slotsM1 := rfl
@[simp] theorem State.acknowledge_collab (s : State) (v : Word) : (s.acknowledge v).collab = s.collab := rfl
@[simp] theorem State.acknowledge_mem (s : State) (v : Word) : (s.acknowledge v).mem = s.mem := rfl
@[simp] theorem State.acknowledge_tb (s : State) (v : Word) : (s.acknowledge v).tb = s.tb := rfl
@[simp] theorem State.acknowledge_ie (s : State) (v : Word) : (s.acknowledge v).ie = s.ie := rfl
@[simp] theorem State.acknowledge_busy (s : State) (v : Word) : (s.acknowledge v).busy = s.busy := rfl
@[simp] theorem State.acknowledge_done (s : State) (v : Word) :
    (s.acknowledge v).done = w1c s.done (v.getLsbD 1) := rfl
@[simp] theorem State.acknowledge_ill (s : State) (v : Word) :
    (s.acknowledge v).ill = w1c s.ill (v.getLsbD 2) := rfl
@[simp] theorem State.acknowledge_rej (s : State) (v : Word) :
    (s.acknowledge v).rej = w1c s.rej (v.getLsbD 3) := rfl
@[simp] theorem State.acknowledge_cmdr (s : State) (v : Word) : (s.acknowledge v).cmdr = s.cmdr := rfl
@[simp] theorem State.acknowledge_snap (s : State) (v : Word) : (s.acknowledge v).snap = s.snap := rfl
@[simp] theorem State.acknowledge_ext (s : State) (v : Word) : (s.acknowledge v).ext = s.ext := rfl
@[simp] theorem State.acknowledge_rsp (s : State) (v : Word) : (s.acknowledge v).rsp = s.rsp := rfl
@[simp] theorem State.acknowledge_rstN (s : State) (v : Word) : (s.acknowledge v).rstN = s.rstN := rfl
@[simp] theorem State.acknowledge_moves (s : State) (v : Word) : (s.acknowledge v).moves = s.moves := rfl
@[simp] theorem State.acknowledge_freeIx (s : State) (v : Word) : (s.acknowledge v).freeIx = s.freeIx := rfl

/-! ### accept -/

@[simp] theorem State.accept_slotsM1 (s : State) (w : Word) : (s.accept w).slotsM1 = s.slotsM1 := rfl
@[simp] theorem State.accept_collab (s : State) (w : Word) : (s.accept w).collab = s.collab := rfl
@[simp] theorem State.accept_mem (s : State) (w : Word) : (s.accept w).mem = s.mem := rfl
@[simp] theorem State.accept_tb (s : State) (w : Word) : (s.accept w).tb = s.tb := rfl
@[simp] theorem State.accept_ie (s : State) (w : Word) : (s.accept w).ie = s.ie := rfl
@[simp] theorem State.accept_busy (s : State) (w : Word) : (s.accept w).busy = true := rfl
@[simp] theorem State.accept_done (s : State) (w : Word) : (s.accept w).done = s.done := rfl
@[simp] theorem State.accept_ill (s : State) (w : Word) : (s.accept w).ill = s.ill := rfl
@[simp] theorem State.accept_rej (s : State) (w : Word) : (s.accept w).rej = s.rej := rfl
@[simp] theorem State.accept_cmdr (s : State) (w : Word) : (s.accept w).cmdr = w := rfl
@[simp] theorem State.accept_snap (s : State) (w : Word) : (s.accept w).snap = s.mem := rfl
@[simp] theorem State.accept_ext (s : State) (w : Word) : (s.accept w).ext = s.ext := rfl
@[simp] theorem State.accept_rsp (s : State) (w : Word) : (s.accept w).rsp = s.rsp := rfl
@[simp] theorem State.accept_rstN (s : State) (w : Word) : (s.accept w).rstN = s.rstN := rfl
@[simp] theorem State.accept_moves (s : State) (w : Word) : (s.accept w).moves = s.moves := rfl
@[simp] theorem State.accept_freeIx (s : State) (w : Word) : (s.accept w).freeIx = s.freeIx := rfl

/-! ### toIdle -/

@[simp] theorem State.toIdle_slotsM1 (s : State) : s.toIdle.slotsM1 = s.slotsM1 := rfl
@[simp] theorem State.toIdle_collab (s : State) : s.toIdle.collab = s.collab := rfl
@[simp] theorem State.toIdle_mem (s : State) : s.toIdle.mem = s.mem := rfl
@[simp] theorem State.toIdle_tb (s : State) : s.toIdle.tb = s.tb := rfl
@[simp] theorem State.toIdle_ie (s : State) : s.toIdle.ie = s.ie := rfl
@[simp] theorem State.toIdle_busy (s : State) : s.toIdle.busy = false := rfl
@[simp] theorem State.toIdle_done (s : State) : s.toIdle.done = s.done := rfl
@[simp] theorem State.toIdle_ill (s : State) : s.toIdle.ill = s.ill := rfl
@[simp] theorem State.toIdle_rej (s : State) : s.toIdle.rej = s.rej := rfl
@[simp] theorem State.toIdle_cmdr (s : State) : s.toIdle.cmdr = s.cmdr := rfl
@[simp] theorem State.toIdle_snap (s : State) : s.toIdle.snap = [] := rfl
@[simp] theorem State.toIdle_ext (s : State) : s.toIdle.ext = .none := rfl
@[simp] theorem State.toIdle_rsp (s : State) : s.toIdle.rsp = s.rsp := rfl
@[simp] theorem State.toIdle_rstN (s : State) : s.toIdle.rstN = s.rstN := rfl
@[simp] theorem State.toIdle_moves (s : State) : s.toIdle.moves = s.moves := rfl
@[simp] theorem State.toIdle_freeIx (s : State) : s.toIdle.freeIx = s.freeIx := rfl

/-! ### finish -/

@[simp] theorem State.finish_slotsM1 (s : State) : s.finish.slotsM1 = s.slotsM1 := rfl
@[simp] theorem State.finish_collab (s : State) : s.finish.collab = s.collab := rfl
@[simp] theorem State.finish_mem (s : State) : s.finish.mem = s.mem := rfl
@[simp] theorem State.finish_tb (s : State) : s.finish.tb = s.tb := rfl
@[simp] theorem State.finish_ie (s : State) : s.finish.ie = s.ie := rfl
@[simp] theorem State.finish_busy (s : State) : s.finish.busy = false := rfl
@[simp] theorem State.finish_done (s : State) : s.finish.done = true := rfl
@[simp] theorem State.finish_ill (s : State) : s.finish.ill = s.ill := rfl
@[simp] theorem State.finish_rej (s : State) : s.finish.rej = s.rej := rfl
@[simp] theorem State.finish_cmdr (s : State) : s.finish.cmdr = s.cmdr := rfl
@[simp] theorem State.finish_snap (s : State) : s.finish.snap = [] := rfl
@[simp] theorem State.finish_ext (s : State) : s.finish.ext = .none := rfl
@[simp] theorem State.finish_rsp (s : State) : s.finish.rsp = s.rsp := rfl
@[simp] theorem State.finish_rstN (s : State) : s.finish.rstN = s.rstN := rfl
@[simp] theorem State.finish_moves (s : State) : s.finish.moves = s.moves := rfl
@[simp] theorem State.finish_freeIx (s : State) : s.finish.freeIx = s.freeIx := rfl

/-! ### softReset -/

@[simp] theorem State.softReset_slotsM1 (s : State) : s.softReset.slotsM1 = s.slotsM1 := rfl
@[simp] theorem State.softReset_collab (s : State) : s.softReset.collab = s.collab := rfl
@[simp] theorem State.softReset_mem (s : State) : s.softReset.mem = s.mem := rfl
@[simp] theorem State.softReset_tb (s : State) : s.softReset.tb = s.tb := rfl
@[simp] theorem State.softReset_ie (s : State) : s.softReset.ie = false := rfl
@[simp] theorem State.softReset_busy (s : State) : s.softReset.busy = s.busy := rfl
@[simp] theorem State.softReset_done (s : State) : s.softReset.done = false := rfl
@[simp] theorem State.softReset_ill (s : State) : s.softReset.ill = false := rfl
@[simp] theorem State.softReset_rej (s : State) : s.softReset.rej = false := rfl
@[simp] theorem State.softReset_cmdr (s : State) : s.softReset.cmdr = 0 := rfl
@[simp] theorem State.softReset_snap (s : State) : s.softReset.snap = s.snap := rfl
@[simp] theorem State.softReset_ext (s : State) : s.softReset.ext = s.ext := rfl
@[simp] theorem State.softReset_rsp (s : State) : s.softReset.rsp = s.rsp := rfl
@[simp] theorem State.softReset_rstN (s : State) : s.softReset.rstN = s.rstN := rfl
@[simp] theorem State.softReset_moves (s : State) : s.softReset.moves = s.moves := rfl
@[simp] theorem State.softReset_freeIx (s : State) : s.softReset.freeIx = s.freeIx := rfl

/-! ### hwReset -/

@[simp] theorem State.hwReset_slotsM1 (s : State) : s.hwReset.slotsM1 = s.slotsM1 := rfl
@[simp] theorem State.hwReset_collab (s : State) : s.hwReset.collab = s.collab := rfl
@[simp] theorem State.hwReset_mem (s : State) : s.hwReset.mem = [] := rfl
@[simp] theorem State.hwReset_tb (s : State) : s.hwReset.tb = tbUnwritten := rfl
@[simp] theorem State.hwReset_ie (s : State) : s.hwReset.ie = false := rfl
@[simp] theorem State.hwReset_busy (s : State) : s.hwReset.busy = false := rfl
@[simp] theorem State.hwReset_done (s : State) : s.hwReset.done = false := rfl
@[simp] theorem State.hwReset_ill (s : State) : s.hwReset.ill = false := rfl
@[simp] theorem State.hwReset_rej (s : State) : s.hwReset.rej = false := rfl
@[simp] theorem State.hwReset_cmdr (s : State) : s.hwReset.cmdr = 0 := rfl
@[simp] theorem State.hwReset_snap (s : State) : s.hwReset.snap = [] := rfl
@[simp] theorem State.hwReset_ext (s : State) : s.hwReset.ext = .none := rfl
@[simp] theorem State.hwReset_rsp (s : State) : s.hwReset.rsp = none := rfl
@[simp] theorem State.hwReset_rstN (s : State) : s.hwReset.rstN = false := rfl
@[simp] theorem State.hwReset_moves (s : State) : s.hwReset.moves = s.moves := rfl
@[simp] theorem State.hwReset_freeIx (s : State) : s.hwReset.freeIx = s.freeIx := rfl

/-! ### writeResult -/

@[simp] theorem State.writeResult_slotsM1 (s : State) (a : Nat) (bs : List (Option Byte)) :
    (s.writeResult a bs).slotsM1 = s.slotsM1 := rfl
@[simp] theorem State.writeResult_collab (s : State) (a : Nat) (bs : List (Option Byte)) :
    (s.writeResult a bs).collab = s.collab := rfl
@[simp] theorem State.writeResult_mem (s : State) (a : Nat) (bs : List (Option Byte)) :
    (s.writeResult a bs).mem = s.mem.writeRun a (fillFree s.freeIx a bs) := rfl
@[simp] theorem State.writeResult_tb (s : State) (a : Nat) (bs : List (Option Byte)) :
    (s.writeResult a bs).tb = s.tb := rfl
@[simp] theorem State.writeResult_ie (s : State) (a : Nat) (bs : List (Option Byte)) :
    (s.writeResult a bs).ie = s.ie := rfl
@[simp] theorem State.writeResult_busy (s : State) (a : Nat) (bs : List (Option Byte)) :
    (s.writeResult a bs).busy = s.busy := rfl
@[simp] theorem State.writeResult_done (s : State) (a : Nat) (bs : List (Option Byte)) :
    (s.writeResult a bs).done = s.done := rfl
@[simp] theorem State.writeResult_ill (s : State) (a : Nat) (bs : List (Option Byte)) :
    (s.writeResult a bs).ill = s.ill := rfl
@[simp] theorem State.writeResult_rej (s : State) (a : Nat) (bs : List (Option Byte)) :
    (s.writeResult a bs).rej = s.rej := rfl
@[simp] theorem State.writeResult_cmdr (s : State) (a : Nat) (bs : List (Option Byte)) :
    (s.writeResult a bs).cmdr = s.cmdr := rfl
@[simp] theorem State.writeResult_snap (s : State) (a : Nat) (bs : List (Option Byte)) :
    (s.writeResult a bs).snap = s.snap := rfl
@[simp] theorem State.writeResult_ext (s : State) (a : Nat) (bs : List (Option Byte)) :
    (s.writeResult a bs).ext = s.ext := rfl
@[simp] theorem State.writeResult_rsp (s : State) (a : Nat) (bs : List (Option Byte)) :
    (s.writeResult a bs).rsp = s.rsp := rfl
@[simp] theorem State.writeResult_rstN (s : State) (a : Nat) (bs : List (Option Byte)) :
    (s.writeResult a bs).rstN = s.rstN := rfl
@[simp] theorem State.writeResult_moves (s : State) (a : Nat) (bs : List (Option Byte)) :
    (s.writeResult a bs).moves = s.moves := rfl
@[simp] theorem State.writeResult_freeIx (s : State) (a : Nat) (bs : List (Option Byte)) :
    (s.writeResult a bs).freeIx = s.freeIx + 1 := rfl

/-! ### tbLoad -/

@[simp] theorem State.tbLoad_slotsM1 (s : State) (r : Slot) : (s.tbLoad r).slotsM1 = s.slotsM1 := rfl
@[simp] theorem State.tbLoad_collab (s : State) (r : Slot) : (s.tbLoad r).collab = s.collab := rfl
@[simp] theorem State.tbLoad_mem (s : State) (r : Slot) : (s.tbLoad r).mem = s.mem := rfl
@[simp] theorem State.tbLoad_tb (s : State) (r : Slot) : (s.tbLoad r).tb = s.srcPoly r := rfl
@[simp] theorem State.tbLoad_ie (s : State) (r : Slot) : (s.tbLoad r).ie = s.ie := rfl
@[simp] theorem State.tbLoad_busy (s : State) (r : Slot) : (s.tbLoad r).busy = s.busy := rfl
@[simp] theorem State.tbLoad_done (s : State) (r : Slot) : (s.tbLoad r).done = s.done := rfl
@[simp] theorem State.tbLoad_ill (s : State) (r : Slot) : (s.tbLoad r).ill = s.ill := rfl
@[simp] theorem State.tbLoad_rej (s : State) (r : Slot) : (s.tbLoad r).rej = s.rej := rfl
@[simp] theorem State.tbLoad_cmdr (s : State) (r : Slot) : (s.tbLoad r).cmdr = s.cmdr := rfl
@[simp] theorem State.tbLoad_snap (s : State) (r : Slot) : (s.tbLoad r).snap = s.snap := rfl
@[simp] theorem State.tbLoad_ext (s : State) (r : Slot) : (s.tbLoad r).ext = s.ext := rfl
@[simp] theorem State.tbLoad_rsp (s : State) (r : Slot) : (s.tbLoad r).rsp = s.rsp := rfl
@[simp] theorem State.tbLoad_rstN (s : State) (r : Slot) : (s.tbLoad r).rstN = s.rstN := rfl
@[simp] theorem State.tbLoad_moves (s : State) (r : Slot) : (s.tbLoad r).moves = s.moves := rfl
@[simp] theorem State.tbLoad_freeIx (s : State) (r : Slot) : (s.tbLoad r).freeIx = s.freeIx := rfl

/-! ### tbTransform -/

@[simp] theorem State.tbTransform_slotsM1 (s : State) (op : TeOp) :
    (s.tbTransform op).slotsM1 = s.slotsM1 := rfl
@[simp] theorem State.tbTransform_collab (s : State) (op : TeOp) : (s.tbTransform op).collab = s.collab := rfl
@[simp] theorem State.tbTransform_mem (s : State) (op : TeOp) : (s.tbTransform op).mem = s.mem := rfl
@[simp] theorem State.tbTransform_tb (s : State) (op : TeOp) :
    (s.tbTransform op).tb = (match allWritten s.tb with
      | some v => (transform s.collab op v).map some
      | none => tbUnwritten) := rfl
@[simp] theorem State.tbTransform_ie (s : State) (op : TeOp) : (s.tbTransform op).ie = s.ie := rfl
@[simp] theorem State.tbTransform_busy (s : State) (op : TeOp) : (s.tbTransform op).busy = s.busy := rfl
@[simp] theorem State.tbTransform_done (s : State) (op : TeOp) : (s.tbTransform op).done = s.done := rfl
@[simp] theorem State.tbTransform_ill (s : State) (op : TeOp) : (s.tbTransform op).ill = s.ill := rfl
@[simp] theorem State.tbTransform_rej (s : State) (op : TeOp) : (s.tbTransform op).rej = s.rej := rfl
@[simp] theorem State.tbTransform_cmdr (s : State) (op : TeOp) : (s.tbTransform op).cmdr = s.cmdr := rfl
@[simp] theorem State.tbTransform_snap (s : State) (op : TeOp) : (s.tbTransform op).snap = s.snap := rfl
@[simp] theorem State.tbTransform_ext (s : State) (op : TeOp) : (s.tbTransform op).ext = s.ext := rfl
@[simp] theorem State.tbTransform_rsp (s : State) (op : TeOp) : (s.tbTransform op).rsp = s.rsp := rfl
@[simp] theorem State.tbTransform_rstN (s : State) (op : TeOp) : (s.tbTransform op).rstN = s.rstN := rfl
@[simp] theorem State.tbTransform_moves (s : State) (op : TeOp) : (s.tbTransform op).moves = s.moves := rfl
@[simp] theorem State.tbTransform_freeIx (s : State) (op : TeOp) : (s.tbTransform op).freeIx = s.freeIx := rfl

/-! ### dstPoly -/

@[simp] theorem State.dstPoly_slotsM1 (s : State) (r : Slot) (cs : List (Option Coef)) :
    (s.dstPoly r cs).slotsM1 = s.slotsM1 := rfl
@[simp] theorem State.dstPoly_collab (s : State) (r : Slot) (cs : List (Option Coef)) :
    (s.dstPoly r cs).collab = s.collab := rfl
@[simp] theorem State.dstPoly_mem (s : State) (r : Slot) (cs : List (Option Coef)) :
    (s.dstPoly r cs).mem = s.mem.writeRun (slotBase r.toNat) (fillFree s.freeIx (slotBase r.toNat) (coefBytes cs)) := rfl
@[simp] theorem State.dstPoly_tb (s : State) (r : Slot) (cs : List (Option Coef)) :
    (s.dstPoly r cs).tb = s.tb := rfl
@[simp] theorem State.dstPoly_ie (s : State) (r : Slot) (cs : List (Option Coef)) :
    (s.dstPoly r cs).ie = s.ie := rfl
@[simp] theorem State.dstPoly_busy (s : State) (r : Slot) (cs : List (Option Coef)) :
    (s.dstPoly r cs).busy = s.busy := rfl
@[simp] theorem State.dstPoly_done (s : State) (r : Slot) (cs : List (Option Coef)) :
    (s.dstPoly r cs).done = s.done := rfl
@[simp] theorem State.dstPoly_ill (s : State) (r : Slot) (cs : List (Option Coef)) :
    (s.dstPoly r cs).ill = s.ill := rfl
@[simp] theorem State.dstPoly_rej (s : State) (r : Slot) (cs : List (Option Coef)) :
    (s.dstPoly r cs).rej = s.rej := rfl
@[simp] theorem State.dstPoly_cmdr (s : State) (r : Slot) (cs : List (Option Coef)) :
    (s.dstPoly r cs).cmdr = s.cmdr := rfl
@[simp] theorem State.dstPoly_snap (s : State) (r : Slot) (cs : List (Option Coef)) :
    (s.dstPoly r cs).snap = s.snap := rfl
@[simp] theorem State.dstPoly_ext (s : State) (r : Slot) (cs : List (Option Coef)) :
    (s.dstPoly r cs).ext = s.ext := rfl
@[simp] theorem State.dstPoly_rsp (s : State) (r : Slot) (cs : List (Option Coef)) :
    (s.dstPoly r cs).rsp = s.rsp := rfl
@[simp] theorem State.dstPoly_rstN (s : State) (r : Slot) (cs : List (Option Coef)) :
    (s.dstPoly r cs).rstN = s.rstN := rfl
@[simp] theorem State.dstPoly_moves (s : State) (r : Slot) (cs : List (Option Coef)) :
    (s.dstPoly r cs).moves = s.moves := rfl
@[simp] theorem State.dstPoly_freeIx (s : State) (r : Slot) (cs : List (Option Coef)) :
    (s.dstPoly r cs).freeIx = s.freeIx + 1 := rfl

/-! ### dstBuf -/

@[simp] theorem State.dstBuf_slotsM1 (s : State) (bs : List (Option Byte)) :
    (s.dstBuf bs).slotsM1 = s.slotsM1 := rfl
@[simp] theorem State.dstBuf_collab (s : State) (bs : List (Option Byte)) :
    (s.dstBuf bs).collab = s.collab := rfl
@[simp] theorem State.dstBuf_mem (s : State) (bs : List (Option Byte)) :
    (s.dstBuf bs).mem = s.mem.writeRun bufBase (fillFree s.freeIx bufBase bs) := rfl
@[simp] theorem State.dstBuf_tb (s : State) (bs : List (Option Byte)) : (s.dstBuf bs).tb = s.tb := rfl
@[simp] theorem State.dstBuf_ie (s : State) (bs : List (Option Byte)) : (s.dstBuf bs).ie = s.ie := rfl
@[simp] theorem State.dstBuf_busy (s : State) (bs : List (Option Byte)) : (s.dstBuf bs).busy = s.busy := rfl
@[simp] theorem State.dstBuf_done (s : State) (bs : List (Option Byte)) : (s.dstBuf bs).done = s.done := rfl
@[simp] theorem State.dstBuf_ill (s : State) (bs : List (Option Byte)) : (s.dstBuf bs).ill = s.ill := rfl
@[simp] theorem State.dstBuf_rej (s : State) (bs : List (Option Byte)) : (s.dstBuf bs).rej = s.rej := rfl
@[simp] theorem State.dstBuf_cmdr (s : State) (bs : List (Option Byte)) : (s.dstBuf bs).cmdr = s.cmdr := rfl
@[simp] theorem State.dstBuf_snap (s : State) (bs : List (Option Byte)) : (s.dstBuf bs).snap = s.snap := rfl
@[simp] theorem State.dstBuf_ext (s : State) (bs : List (Option Byte)) : (s.dstBuf bs).ext = s.ext := rfl
@[simp] theorem State.dstBuf_rsp (s : State) (bs : List (Option Byte)) : (s.dstBuf bs).rsp = s.rsp := rfl
@[simp] theorem State.dstBuf_rstN (s : State) (bs : List (Option Byte)) : (s.dstBuf bs).rstN = s.rstN := rfl
@[simp] theorem State.dstBuf_moves (s : State) (bs : List (Option Byte)) :
    (s.dstBuf bs).moves = s.moves := rfl
@[simp] theorem State.dstBuf_freeIx (s : State) (bs : List (Option Byte)) :
    (s.dstBuf bs).freeIx = s.freeIx + 1 := rfl

/-! ### tick -/

@[simp] theorem State.tick_slotsM1 (s : State) : s.tick.slotsM1 = s.slotsM1 := rfl
@[simp] theorem State.tick_collab (s : State) : s.tick.collab = s.collab := rfl
@[simp] theorem State.tick_mem (s : State) : s.tick.mem = s.mem := rfl
@[simp] theorem State.tick_tb (s : State) : s.tick.tb = s.tb := rfl
@[simp] theorem State.tick_ie (s : State) : s.tick.ie = s.ie := rfl
@[simp] theorem State.tick_busy (s : State) : s.tick.busy = s.busy := rfl
@[simp] theorem State.tick_done (s : State) : s.tick.done = s.done := rfl
@[simp] theorem State.tick_ill (s : State) : s.tick.ill = s.ill := rfl
@[simp] theorem State.tick_rej (s : State) : s.tick.rej = s.rej := rfl
@[simp] theorem State.tick_cmdr (s : State) : s.tick.cmdr = s.cmdr := rfl
@[simp] theorem State.tick_snap (s : State) : s.tick.snap = s.snap := rfl
@[simp] theorem State.tick_ext (s : State) : s.tick.ext = s.ext := rfl
@[simp] theorem State.tick_rsp (s : State) : s.tick.rsp = none := rfl
@[simp] theorem State.tick_rstN (s : State) : s.tick.rstN = s.rstN := rfl
@[simp] theorem State.tick_moves (s : State) : s.tick.moves = s.moves.tail := rfl
@[simp] theorem State.tick_freeIx (s : State) : s.tick.freeIx = s.freeIx := rfl

/-! ### NPOLY is a function of the strap alone -/

@[simp] theorem State.respond_npoly (s : State) (data : Word) (err : Bool) : (s.respond data err).npoly = s.npoly := rfl
@[simp] theorem State.raiseIll_npoly (s : State) (w : Word) : (s.raiseIll w).npoly = s.npoly := rfl
@[simp] theorem State.raiseRej_npoly (s : State) : s.raiseRej.npoly = s.npoly := rfl
@[simp] theorem State.acknowledge_npoly (s : State) (v : Word) : (s.acknowledge v).npoly = s.npoly := rfl
@[simp] theorem State.accept_npoly (s : State) (w : Word) : (s.accept w).npoly = s.npoly := rfl
@[simp] theorem State.toIdle_npoly (s : State) : s.toIdle.npoly = s.npoly := rfl
@[simp] theorem State.finish_npoly (s : State) : s.finish.npoly = s.npoly := rfl
@[simp] theorem State.softReset_npoly (s : State) : s.softReset.npoly = s.npoly := rfl
@[simp] theorem State.hwReset_npoly (s : State) : s.hwReset.npoly = s.npoly := rfl
@[simp] theorem State.writeResult_npoly (s : State) (a : Nat) (bs : List (Option Byte)) : (s.writeResult a bs).npoly = s.npoly := rfl
@[simp] theorem State.tbLoad_npoly (s : State) (r : Slot) : (s.tbLoad r).npoly = s.npoly := rfl
@[simp] theorem State.tbTransform_npoly (s : State) (op : TeOp) : (s.tbTransform op).npoly = s.npoly := rfl
@[simp] theorem State.dstPoly_npoly (s : State) (r : Slot) (cs : List (Option Coef)) : (s.dstPoly r cs).npoly = s.npoly := rfl
@[simp] theorem State.dstBuf_npoly (s : State) (bs : List (Option Byte)) : (s.dstBuf bs).npoly = s.npoly := rfl
@[simp] theorem State.tick_npoly (s : State) : s.tick.npoly = s.npoly := rfl

/-! ### A command's operands depend on the snapshot and the collaborators alone -/

theorem State.srcPoly_congr {s t : State} (h : s.snap = t.snap) (r : Slot) : s.srcPoly r = t.srcPoly r := by
  simp only [State.srcPoly, h]

theorem State.srcBuf_congr {s t : State} (h : s.snap = t.snap) (n : Nat) : s.srcBuf n = t.srcBuf n := by
  simp only [State.srcBuf, h]

theorem State.npoly_pos (s : State) : 1 ≤ s.npoly := by simp [State.npoly]

theorem State.npoly_le (s : State) : s.npoly ≤ 16 := by
  have := s.slotsM1.isLt
  simp only [State.npoly]
  omega

end Sys2Proof.Machine
end

