-- ==== Sys2Proof/Laws/Operands.lean ====
section
/-! SUPPORT. The elements of the lists commands are made of, and what a destination write leaves in memory. -/

namespace Sys2Proof.Machine

/-! ### Lists of coefficients and bytes -/

@[simp] theorem State.length_srcPoly (s : State) (r : Slot) : (s.srcPoly r).length = 256 := by
  simp [State.srcPoly, ringDegree]

@[simp] theorem State.length_srcBuf (s : State) (n : Nat) : (s.srcBuf n).length = n := by
  simp [State.srcBuf]

theorem State.getElem?_srcPoly (s : State) (r : Slot) {i : Nat} (hi : i < 256) :
    (s.srcPoly r)[i]? = some (s.snap.coef r i) := by
  simp [State.srcPoly, ringDegree, hi]

theorem State.getElem?_srcBuf (s : State) {n k : Nat} (hk : k < n) :
    (s.srcBuf n)[k]? = some (s.snap.read (bufBase + k)) := by
  simp [State.srcBuf, Memory.readRun, hk]

@[simp] theorem length_coefBytes (cs : List (Option Coef)) : (coefBytes cs).length = 2 * cs.length := by
  induction cs with
  | nil => rfl
  | cons c t ih => simp only [coefBytes, List.length_cons, ih]; omega

theorem getElem?_coefBytes_even (cs : List (Option Coef)) (i : Nat) :
    (coefBytes cs)[2 * i]? = cs[i]?.map (Option.map (·.extractLsb' 0 8)) := by
  induction cs generalizing i with
  | nil => simp [coefBytes]
  | cons c t ih =>
    cases i with
    | zero => simp [coefBytes]
    | succ i =>
      rw [show 2 * (i + 1) = 2 * i + 1 + 1 by omega]
      simp only [coefBytes, List.getElem?_cons_succ, ih]

theorem getElem?_coefBytes_odd (cs : List (Option Coef)) (i : Nat) :
    (coefBytes cs)[2 * i + 1]? = cs[i]?.map (Option.map (·.extractLsb' 8 8)) := by
  induction cs generalizing i with
  | nil => simp [coefBytes]
  | cons c t ih =>
    cases i with
    | zero => simp [coefBytes]
    | succ i =>
      rw [show 2 * (i + 1) + 1 = 2 * i + 1 + 1 + 1 by omega]
      simp only [coefBytes, List.getElem?_cons_succ, ih]

/-- A coefficient is its two bytes, high byte in front. -/
theorem coef_of_bytes (c : Coef) : c.extractLsb' 8 8 ++ c.extractLsb' 0 8 = c := by
  ext i hi
  simp only [BitVec.getElem_append, BitVec.getElem_extractLsb']
  split
  · simp [BitVec.getLsbD_eq_getElem hi]
  · rename_i h
    rw [show 8 + (i - 8) = i by omega, BitVec.getLsbD_eq_getElem hi]

@[simp] theorem length_pairCoefs (ps : List (Option (Coef × Coef))) : (pairCoefs ps).length = 2 * ps.length := by
  induction ps with
  | nil => rfl
  | cons c t ih => simp only [pairCoefs, List.length_cons, ih]; omega

theorem getElem?_pairCoefs_even (ps : List (Option (Coef × Coef))) (i : Nat) :
    (pairCoefs ps)[2 * i]? = ps[i]?.map (Option.map (·.1)) := by
  induction ps generalizing i with
  | nil => simp [pairCoefs]
  | cons c t ih =>
    cases i with
    | zero => simp [pairCoefs]
    | succ i =>
      rw [show 2 * (i + 1) = 2 * i + 1 + 1 by omega]
      simp only [pairCoefs, List.getElem?_cons_succ, ih]

theorem getElem?_pairCoefs_odd (ps : List (Option (Coef × Coef))) (i : Nat) :
    (pairCoefs ps)[2 * i + 1]? = ps[i]?.map (Option.map (·.2)) := by
  induction ps generalizing i with
  | nil => simp [pairCoefs]
  | cons c t ih =>
    cases i with
    | zero => simp [pairCoefs]
    | succ i =>
      rw [show 2 * (i + 1) + 1 = 2 * i + 1 + 1 + 1 by omega]
      simp only [pairCoefs, List.getElem?_cons_succ, ih]

@[simp] theorem State.length_products (s : State) (bm : BaseMul) (rs1 rs2 : Slot) :
    (s.products bm rs1 rs2).length = 256 := by
  simp [State.products, State.bmRequests]

/-- The pair of products of pair k (R162). -/
theorem State.getElem?_products (s : State) (bm : BaseMul) (rs1 rs2 : Slot) {k : Nat} (hk : k < 128) :
    (s.products bm rs1 rs2)[2 * k]? = some ((bmResponse bm (s.bmRequest rs1 rs2 k)).map (·.1)) ∧
    (s.products bm rs1 rs2)[2 * k + 1]? = some ((bmResponse bm (s.bmRequest rs1 rs2 k)).map (·.2)) := by
  simp [State.products, State.bmRequests, getElem?_pairCoefs_even, getElem?_pairCoefs_odd, hk]

/-- The products of pair k where its four operands are written (R162). -/
theorem State.products_of_written {s : State} {bm : BaseMul} {rs1 rs2 : Slot} {k : Nat} (hk : k < 128)
    {a0 a1 b0 b1 : Coef} (h0 : s.snap.coef rs1 (2 * k) = some a0) (h1 : s.snap.coef rs1 (2 * k + 1) = some a1)
    (h2 : s.snap.coef rs2 (2 * k) = some b0) (h3 : s.snap.coef rs2 (2 * k + 1) = some b1) :
    (s.products bm rs1 rs2)[2 * k]? = some (some (bm a0 a1 b0 b1 (pairZeta s.collab k)).1) ∧
    (s.products bm rs1 rs2)[2 * k + 1]? = some (some (bm a0 a1 b0 b1 (pairZeta s.collab k)).2) := by
  obtain ⟨he, ho⟩ := s.getElem?_products bm rs1 rs2 hk
  rw [he, ho]
  simp [State.bmRequest, bmResponse, h0, h1, h2, h3]

/-- A list of values is written everywhere. -/
theorem allWritten_map_some (v : List Coef) : allWritten (v.map some) = some v := by
  induction v with
  | nil => rfl
  | cons c t ih => simp [allWritten, ih]

theorem eq_map_some_of_allWritten {l : List (Option Coef)} {v : List Coef} (h : allWritten l = some v) :
    l = v.map some := by
  induction l generalizing v with
  | nil => simp [allWritten] at h; subst h; rfl
  | cons c t ih =>
    cases c with
    | none => simp [allWritten] at h
    | some c =>
      simp only [allWritten, Option.map_eq_some_iff] at h
      obtain ⟨w, hw, rfl⟩ := h
      simp [ih hw]

/-! ### Destination writes -/

theorem Memory.coef_eq_some {m : Memory} {r : Slot} {i : Nat} {hi lo : Byte}
    (h0 : m.read (slotBase r.toNat + 2 * i) = some lo) (h1 : m.read (slotBase r.toNat + 2 * i + 1) = some hi) :
    m.coef r i = some (hi ++ lo) := by
  simp [Memory.coef, h0, h1, lift2]

/-- Coefficient i of the destination slot after its write: the result, or two free bytes where the result has no
value (R35). -/
theorem State.coef_dstPoly (s : State) (r : Slot) {cs : List (Option Coef)} {i : Nat} {c : Option Coef}
    (hi : cs[i]? = some c) :
    (s.dstPoly r cs).mem.coef r i =
      some (c.getD (Config.freeByte s.freeIx (slotBase r.toNat + 2 * i + 1) ++
        Config.freeByte s.freeIx (slotBase r.toNat + 2 * i))) := by
  have hlt : i < cs.length := by
    by_contra h
    rw [List.getElem?_eq_none (by omega)] at hi
    simp at hi
  have e0 : (s.dstPoly r cs).mem.read (slotBase r.toNat + 2 * i) =
      some ((c.map (·.extractLsb' 0 8)).getD (Config.freeByte s.freeIx (slotBase r.toNat + 2 * i))) := by
    rw [State.dstPoly_mem, Memory.read_writeRun, if_pos (by simp; omega)]
    rw [show slotBase r.toNat + 2 * i - slotBase r.toNat = 2 * i by omega, getElem?_fillFree,
      getElem?_coefBytes_even, hi]
    rfl
  have e1 : (s.dstPoly r cs).mem.read (slotBase r.toNat + 2 * i + 1) =
      some ((c.map (·.extractLsb' 8 8)).getD (Config.freeByte s.freeIx (slotBase r.toNat + 2 * i + 1))) := by
    rw [State.dstPoly_mem, Memory.read_writeRun, if_pos (by simp; omega)]
    rw [show slotBase r.toNat + 2 * i + 1 - slotBase r.toNat = 2 * i + 1 by omega, getElem?_fillFree,
      getElem?_coefBytes_odd, hi]
    rfl
  rw [Memory.coef_eq_some e0 e1]
  cases c with
  | none => rfl
  | some c => simp [coef_of_bytes]

/-- Byte k of the written BUF prefix: the result, or a free byte where it has no value (R35). -/
theorem State.read_dstBuf (s : State) {bs : List (Option Byte)} {k : Nat} {b : Option Byte}
    (hk : bs[k]? = some b) :
    (s.dstBuf bs).mem.read (bufBase + k) = some (b.getD (Config.freeByte s.freeIx (bufBase + k))) := by
  have hlt : k < bs.length := by
    by_contra h
    rw [List.getElem?_eq_none (by omega)] at hk
    simp at hk
  rw [State.dstBuf_mem, Memory.read_writeRun, if_pos (by simp; omega),
    show bufBase + k - bufBase = k by omega, getElem?_fillFree, hk]
  rfl

/-- A slot write leaves every byte outside the slot alone (R101). -/
theorem State.read_dstPoly_outside (s : State) (r : Slot) {cs : List (Option Coef)} {a : Nat}
    (h : ¬ (slotBase r.toNat ≤ a ∧ a < slotBase r.toNat + 2 * cs.length)) :
    (s.dstPoly r cs).mem.read a = s.mem.read a := by
  rw [State.dstPoly_mem, Memory.read_writeRun_outside (by simpa using h)]

/-- A BUF write leaves every byte outside the prefix alone (R23). -/
theorem State.read_dstBuf_outside (s : State) {bs : List (Option Byte)} {a : Nat}
    (h : ¬ (bufBase ≤ a ∧ a < bufBase + bs.length)) : (s.dstBuf bs).mem.read a = s.mem.read a := by
  rw [State.dstBuf_mem, Memory.read_writeRun_outside (by simpa using h)]

/-- A slot write leaves every coefficient of every other slot alone (R21, R101). -/
theorem State.coef_dstPoly_other (s : State) {r p : Slot} (h : r ≠ p) {cs : List (Option Coef)}
    (hl : cs.length = 256) {i : Nat} (hi : i < 256) : (s.dstPoly r cs).mem.coef p i = s.mem.coef p i := by
  have hn : r.toNat ≠ p.toNat := fun e => h (BitVec.eq_of_toNat_eq e)
  unfold Memory.coef
  rw [State.read_dstPoly_outside s r (by rw [hl]; unfold slotBase; omega),
    State.read_dstPoly_outside s r (by rw [hl]; unfold slotBase; omega)]

/-- A BUF write leaves every coefficient alone (R23, R101). -/
theorem State.coef_dstBuf (s : State) {bs : List (Option Byte)} (hl : bs.length ≤ 384) (p : Slot) (i : Nat) :
    (s.dstBuf bs).mem.coef p i = s.mem.coef p i := by
  unfold Memory.coef
  rw [State.read_dstBuf_outside s (by unfold slotBase bufBase; omega),
    State.read_dstBuf_outside s (by unfold slotBase bufBase; omega)]

/-! ### The frame of a command -/

/-- A command the block has completes with its results (R101, R103). -/
theorem State.command_of_wf {i : Instr} {f : State → State} {s : State} (h : i.wf s.npoly = true) :
    s.command i f = .next (f s).finish := by
  simp [State.command, h]

/-- A command that names a slot the block does not have raises ILL (R84, R211). -/
theorem State.command_of_not_wf {i : Instr} {f : State → State} {s : State} (h : i.wf s.npoly = false) :
    s.command i f = .next (s.toIdle.raiseIll (encode i)) := by
  simp [State.command, h]

/-- Everything a command can answer. -/
theorem State.command_cases (i : Instr) (f : State → State) (s : State) :
    (i.wf s.npoly = true ∧ s.command i f = .next (f s).finish) ∨
    (i.wf s.npoly = false ∧ s.command i f = .next (s.toIdle.raiseIll (encode i))) := by
  cases h : i.wf s.npoly with
  | true => exact Or.inl ⟨rfl, State.command_of_wf h⟩
  | false => exact Or.inr ⟨rfl, State.command_of_not_wf h⟩

end Sys2Proof.Machine
end

