-- ==== Sys2Proof/Laws/Bus.lean ====
section
/-! SUPPORT. The host port: the address map as intervals, what a legal request is, and what an access can do. -/

namespace Sys2Proof.Machine

/-- The BUF region is 0x0800..0x097F (R51). -/
theorem region_eq_buf {npoly a : Nat} : region npoly a = .buf ↔ 0x0800 ≤ a ∧ a < 0x0980 := by
  unfold region
  split_ifs <;> simp <;> omega

/-- The slot region is the NPOLY slots from 0x1000 on (R51). -/
theorem region_eq_slot {npoly a : Nat} : region npoly a = .slot ↔ 0x1000 ≤ a ∧ a < 0x1000 + 0x200 * npoly := by
  unfold region slotBase
  split_ifs <;> simp <;> omega

/-- What a legal request is (R56): a size that is not 3, aligned, in a region that allows it. -/
theorem BusReq.legal_some {npoly : Nat} {r : BusReq} {reg : Region} {n : Nat}
    (h : r.legal npoly = some (reg, n)) :
    sizeBytes r.size = some n ∧ reg = region npoly r.addr.toNat ∧ reg.allows n = true ∧
      r.addr.toNat % n = 0 := by
  unfold BusReq.legal at h
  split at h
  · simp at h
  · rename_i m hm
    simp only at h
    split at h
    · rename_i hc
      simp only [Option.some.injEq, Prod.mk.injEq] at h
      obtain ⟨rfl, rfl⟩ := h
      exact ⟨hm, rfl, hc.1, hc.2⟩
    · simp at h

/-- A window read changes the response and the index of free values alone. -/
theorem State.windowRead_eq (s : State) (a n : Nat) :
    ∃ d k, s.windowRead a n = { s with rsp := some ⟨d, false⟩, freeIx := k } := by
  unfold State.windowRead
  simp only
  split
  · exact ⟨_, s.freeIx, rfl⟩
  · exact ⟨_, _, rfl⟩

/-- A window read whose bytes are all written changes the response alone (R53, R54, R58). -/
theorem State.windowRead_of_written {s : State} {a n : Nat} {bs : List Byte}
    (h : s.mem.readRun a n = bs.map some) :
    s.windowRead a n = s.respond (wordOfBytes bs) false := by
  unfold State.windowRead
  simp [h, fillFree_map_some, List.all_map]

/-- The fields startExternal leaves alone: all but TB and the pending request (R120, R121). -/
theorem State.startExternal_eq (s : State) (i : Instr) :
    ∃ tb ext, s.startExternal i = { s with tb := tb, ext := ext } ∧ (tb = s.tb ∨ ∃ r, tb = s.srcPoly r) := by
  cases i with
  | ntt rd rs1 => exact ⟨_, _, rfl, Or.inr ⟨rs1, rfl⟩⟩
  | invntt rd rs1 => exact ⟨_, _, rfl, Or.inr ⟨rs1, rfl⟩⟩
  | _ => exact ⟨_, _, rfl, Or.inl rfl⟩

/-- The cases of a CMD write (R100). -/
theorem State.cmdWrite_cases (s : State) (w : Word) :
    (s.busy = true ∧ s.cmdWrite w = s.raiseRej) ∨
    (s.busy = false ∧ (∀ i, decode s.npoly w ≠ .cmd i) ∧ s.cmdWrite w = s.raiseIll w) ∨
    (s.busy = false ∧ ∃ i, decode s.npoly w = .cmd i ∧ s.cmdWrite w = (s.accept w).startExternal i) := by
  unfold State.cmdWrite
  cases hb : s.busy with
  | true => exact Or.inl ⟨rfl, rfl⟩
  | false =>
    right
    cases hd : decode s.npoly w with
    | cmd i => exact Or.inr ⟨rfl, i, rfl, rfl⟩
    | ill why => exact Or.inl ⟨rfl, fun i h => by simp at h, rfl⟩

/-- Everything a host access can do: a bus error; a window access, rejected, written or read; or a register
access, written or read. -/
theorem State.access_cases (s : State) (r : BusReq) :
    (r.legal s.npoly = none ∧ s.access r = s.respond 0 true) ∨
    (∃ reg n, r.legal s.npoly = some (reg, n) ∧ (reg = .buf ∨ reg = .slot) ∧
      ((s.busy = true ∧ s.access r = s.raiseRej.respond 0 false) ∨
       (s.busy = false ∧ r.we = true ∧ s.access r = s.windowWrite r.addr.toNat n r.wdata) ∨
       (s.busy = false ∧ r.we = false ∧ s.access r = s.windowRead r.addr.toNat n))) ∨
    (∃ reg n, r.legal s.npoly = some (reg, n) ∧ ¬ (reg = .buf ∨ reg = .slot) ∧
      ((r.we = true ∧ s.access r = (s.registerWrite reg r.wdata).respond 0 false) ∨
       (r.we = false ∧ s.access r = s.respond (s.registerRead reg) false))) := by
  unfold State.access
  cases hl : r.legal s.npoly with
  | none => exact Or.inl ⟨rfl, rfl⟩
  | some p =>
    obtain ⟨reg, n⟩ := p
    right
    by_cases hreg : reg = .buf ∨ reg = .slot
    · left
      refine ⟨reg, n, rfl, hreg, ?_⟩
      simp only [hreg, if_true, State.windowAccess]
      cases hb : s.busy with
      | true => exact Or.inl ⟨rfl, rfl⟩
      | false =>
        right
        cases hw : r.we with
        | true => exact Or.inl ⟨rfl, rfl, rfl⟩
        | false => exact Or.inr ⟨rfl, rfl, rfl⟩
    · right
      refine ⟨reg, n, rfl, hreg, ?_⟩
      simp only [hreg, if_false, State.registerAccess]
      cases hw : r.we with
      | true => exact Or.inl ⟨rfl, rfl⟩
      | false => exact Or.inr ⟨rfl, rfl⟩

end Sys2Proof.Machine
end

