-- ==== Sys2Proof/Laws/Decode.lean ====
section
/-! SUPPORT. The fields of a packed word, the word its fields make, and a word as its four bytes. -/

namespace Sys2Proof

@[simp] theorem fieldOpc_packWord (o : BitVec 8) (rd rs1 rs2 : Slot) : fieldOpc (packWord o rd rs1 rs2) = o := by
  apply BitVec.eq_of_getElem_eq; intro i hi
  simp only [fieldOpc, packWord, BitVec.getElem_extractLsb', BitVec.getLsbD_append]
  simp [BitVec.getLsbD_eq_getElem, hi]

@[simp] theorem fieldRd_packWord (o : BitVec 8) (rd rs1 rs2 : Slot) : fieldRd (packWord o rd rs1 rs2) = rd := by
  apply BitVec.eq_of_getElem_eq; intro i hi
  simp only [fieldRd, packWord, BitVec.getElem_extractLsb', BitVec.getLsbD_append]
  have h : ¬ 8 + i < 8 := by omega
  simp [h, BitVec.getLsbD_eq_getElem, hi]

@[simp] theorem fieldRs1_packWord (o : BitVec 8) (rd rs1 rs2 : Slot) : fieldRs1 (packWord o rd rs1 rs2) = rs1 := by
  apply BitVec.eq_of_getElem_eq; intro i hi
  simp only [fieldRs1, packWord, BitVec.getElem_extractLsb', BitVec.getLsbD_append]
  have h : ¬ 12 + i < 8 := by omega
  have h2 : ¬ 12 + i - 8 < 4 := by omega
  have h3 : 12 + i - 8 - 4 = i := by omega
  simp [h, h2, h3, BitVec.getLsbD_eq_getElem, hi]

@[simp] theorem fieldRs2_packWord (o : BitVec 8) (rd rs1 rs2 : Slot) : fieldRs2 (packWord o rd rs1 rs2) = rs2 := by
  apply BitVec.eq_of_getElem_eq; intro i hi
  simp only [fieldRs2, packWord, BitVec.getElem_extractLsb', BitVec.getLsbD_append]
  have h : ¬ 16 + i < 8 := by omega
  have h2 : ¬ 16 + i - 8 < 4 := by omega
  have h3 : ¬ 16 + i - 8 - 4 < 4 := by omega
  have h4 : 16 + i - 8 - 4 - 4 = i := by omega
  simp [h, h2, h3, h4, BitVec.getLsbD_eq_getElem, hi]

@[simp] theorem fieldRsv_packWord (o : BitVec 8) (rd rs1 rs2 : Slot) : fieldRsv (packWord o rd rs1 rs2) = 0#12 := by
  apply BitVec.eq_of_getElem_eq; intro i hi
  simp only [fieldRsv, packWord, BitVec.getElem_extractLsb', BitVec.getLsbD_append]
  have h : ¬ 20 + i < 8 := by omega
  have h2 : ¬ 20 + i - 8 < 4 := by omega
  have h3 : ¬ 20 + i - 8 - 4 < 4 := by omega
  have h4 : ¬ 20 + i - 8 - 4 - 4 < 4 := by omega
  simp [h, h2, h3, h4]
/-- A word with RSV = 0 is its four fields. -/
theorem packWord_fields {w : Word} (h : fieldRsv w = 0#12) :
    packWord (fieldOpc w) (fieldRd w) (fieldRs1 w) (fieldRs2 w) = w := by
  rw [packWord, ← h]
  apply BitVec.eq_of_getElem_eq; intro i hi
  simp only [fieldOpc, fieldRd, fieldRs1, fieldRs2, fieldRsv, BitVec.getElem_append, BitVec.getElem_extractLsb']
  split
  · simp [BitVec.getLsbD_eq_getElem, hi]
  split
  · rw [← BitVec.getLsbD_eq_getElem hi]; congr 1; omega
  split
  · rw [← BitVec.getLsbD_eq_getElem hi]; congr 1; omega
  split
  · rw [← BitVec.getLsbD_eq_getElem hi]; congr 1; omega
  · rw [← BitVec.getLsbD_eq_getElem hi]; congr 1; omega

/-- The decoder reads the same from a word and from its four bytes. -/
theorem decodeBytes_bytesOfWord (w : Word) : decodeBytes (bytesOfWord w) = decodeWord w := by
  simp only [bytesOfWord, decodeBytes]
  congr 1
  apply BitVec.eq_of_getElem_eq; intro i hi
  simp only [BitVec.getElem_append, BitVec.getElem_extractLsb']
  split
  · simp [BitVec.getLsbD_eq_getElem, hi]
  split
  · rw [← BitVec.getLsbD_eq_getElem hi]; congr 1; omega
  split
  · rw [← BitVec.getLsbD_eq_getElem hi]; congr 1; omega
  · rw [← BitVec.getLsbD_eq_getElem hi]; congr 1; omega

/-- decode adds exactly NPOLY's check to decodeWord (R84). -/
theorem decode_eq_cmd_iff {npoly : Nat} {w : Word} {i : Instr} :
    decode npoly w = .cmd i ↔ decodeWord w = .cmd i ∧ i.wf npoly = true := by
  unfold decode
  split
  · rename_i j hj
    rw [hj]
    constructor
    · intro h
      split at h
      · simp_all
      · simp at h
    · rintro ⟨h, hw⟩
      simp only [Decoded.cmd.injEq] at h
      subst h
      simp [hw]
  · rename_i r hr
    simp [hr]

end Sys2Proof
end

