-- ==== Sys2Proof/Laws/Packing.lean ====
section
/-! SUPPORT. The packed formats element by element: where each coefficient or byte of a loop of 41, 42 and 45
stands in the list the command writes. -/

namespace Sys2Proof.Machine

/-! ### 12 bits per coefficient (R140, R141) -/

theorem getElem?_packBytes {cs : List (Option Coef)} {i : Nat} {x y : Option Coef}
    (hx : cs[2 * i]? = some x) (hy : cs[2 * i + 1]? = some y) :
    (packBytes cs)[3 * i]? = some (x.map packByte0) ∧
    (packBytes cs)[3 * i + 1]? = some (lift2 packByte1 x y) ∧
    (packBytes cs)[3 * i + 2]? = some (y.map packByte2) := by
  induction i generalizing cs with
  | zero =>
    match cs, hx, hy with
    | a :: b :: t, hx, hy => simp_all [packBytes]
  | succ i ih =>
    match cs, hx, hy with
    | a :: b :: t, hx, hy =>
      rw [show 2 * (i + 1) = 2 * i + 1 + 1 by omega] at hx hy
      rw [show 3 * (i + 1) = 3 * i + 1 + 1 + 1 by omega]
      simp only [List.getElem?_cons_succ, packBytes] at hx hy ⊢
      exact ih hx hy

theorem length_packBytes : ∀ cs : List (Option Coef), (packBytes cs).length = 3 * (cs.length / 2)
  | [] => rfl
  | [_] => by simp [packBytes]
  | _ :: _ :: t => by
    simp only [packBytes, List.length_cons, length_packBytes t]
    omega

theorem getElem?_unpackBytes {bs : List (Option Byte)} {i : Nat} {b0 b1 b2 : Option Byte}
    (h0 : bs[3 * i]? = some b0) (h1 : bs[3 * i + 1]? = some b1) (h2 : bs[3 * i + 2]? = some b2) :
    (unpackBytes bs)[2 * i]? = some (lift2 unpackEven b0 b1) ∧
    (unpackBytes bs)[2 * i + 1]? = some (lift2 unpackOdd b1 b2) := by
  induction i generalizing bs with
  | zero =>
    match bs, h0, h1, h2 with
    | a :: b :: c :: t, h0, h1, h2 => simp_all [unpackBytes]
  | succ i ih =>
    match bs, h0, h1, h2 with
    | a :: b :: c :: t, h0, h1, h2 =>
      rw [show 3 * (i + 1) = 3 * i + 1 + 1 + 1 by omega] at h0 h1 h2
      rw [show 2 * (i + 1) = 2 * i + 1 + 1 by omega]
      simp only [List.getElem?_cons_succ, unpackBytes] at h0 h1 h2 ⊢
      exact ih h0 h1 h2

theorem length_unpackBytes : ∀ bs : List (Option Byte), (unpackBytes bs).length = 2 * (bs.length / 3)
  | [] => rfl
  | [_] => by simp [unpackBytes]
  | [_, _] => by simp [unpackBytes]
  | _ :: _ :: _ :: t => by
    simp only [unpackBytes, List.length_cons, length_unpackBytes t]
    omega

/-! ### 4 bits per coefficient (R150, R151) -/

theorem getElem?_compressBytes {cs : List (Option Coef)} {i : Nat} {x y : Option Coef}
    (hx : cs[2 * i]? = some x) (hy : cs[2 * i + 1]? = some y) :
    (compressBytes cs)[i]? = some (lift2 compressByte x y) := by
  induction i generalizing cs with
  | zero =>
    match cs, hx, hy with
    | a :: b :: t, hx, hy => simp_all [compressBytes]
  | succ i ih =>
    match cs, hx, hy with
    | a :: b :: t, hx, hy =>
      rw [show 2 * (i + 1) = 2 * i + 1 + 1 by omega] at hx hy
      simp only [List.getElem?_cons_succ, compressBytes] at hx hy ⊢
      exact ih hx hy

theorem length_compressBytes : ∀ cs : List (Option Coef), (compressBytes cs).length = cs.length / 2
  | [] => rfl
  | [_] => by simp [compressBytes]
  | _ :: _ :: t => by
    simp only [compressBytes, List.length_cons, length_compressBytes t]
    omega

theorem getElem?_decompressBytes {bs : List (Option Byte)} {i : Nat} {b : Option Byte}
    (h : bs[i]? = some b) :
    (decompressBytes bs)[2 * i]? = some (b.map decompressEven) ∧
    (decompressBytes bs)[2 * i + 1]? = some (b.map decompressOdd) := by
  induction i generalizing bs with
  | zero =>
    match bs, h with
    | a :: t, h => simp_all [decompressBytes]
  | succ i ih =>
    match bs, h with
    | a :: t, h =>
      rw [show 2 * (i + 1) = 2 * i + 1 + 1 by omega]
      simp only [List.getElem?_cons_succ, decompressBytes] at h ⊢
      exact ih h

theorem length_decompressBytes (bs : List (Option Byte)) : (decompressBytes bs).length = 2 * bs.length := by
  induction bs with
  | nil => rfl
  | cons b t ih => simp only [decompressBytes, List.length_cons, ih]; omega

/-! ### One bit per coefficient (R190, R191) -/

theorem getElem?_messageBytes {cs : List (Option Coef)} {i : Nat} {c : Nat → Coef}
    (h : ∀ j < 8, cs[8 * i + j]? = some (some (c j))) :
    (messageBytes cs)[i]? =
      some (some (packMessage (c 0) (c 1) (c 2) (c 3) (c 4) (c 5) (c 6) (c 7))) := by
  induction i generalizing cs with
  | zero =>
    have h0 := h 0 (by omega)
    have h1 := h 1 (by omega)
    have h2 := h 2 (by omega)
    have h3 := h 3 (by omega)
    have h4 := h 4 (by omega)
    have h5 := h 5 (by omega)
    have h6 := h 6 (by omega)
    have h7 := h 7 (by omega)
    match cs, h0, h1, h2, h3, h4, h5, h6, h7 with
    | c0 :: c1 :: c2 :: c3 :: c4 :: c5 :: c6 :: c7 :: t, h0, h1, h2, h3, h4, h5, h6, h7 =>
      simp at h0 h1 h2 h3 h4 h5 h6 h7
      subst h0 h1 h2 h3 h4 h5 h6 h7
      simp [messageBytes]
  | succ i ih =>
    have h7 := h 7 (by omega)
    have hl : 8 ≤ cs.length := by
      by_contra hh
      rw [List.getElem?_eq_none (by omega)] at h7
      simp at h7
    match cs, hl with
    | c0 :: c1 :: c2 :: c3 :: c4 :: c5 :: c6 :: c7 :: t, _ =>
      simp only [messageBytes, List.getElem?_cons_succ]
      refine ih fun j hj => ?_
      have := h j hj
      rw [show 8 * (i + 1) + j = 8 * i + j + 1 + 1 + 1 + 1 + 1 + 1 + 1 + 1 by omega] at this
      simpa only [List.getElem?_cons_succ] using this

theorem length_messageBytes : ∀ cs : List (Option Coef), (messageBytes cs).length = cs.length / 8
  | [] => rfl
  | [_] => by simp [messageBytes]
  | [_, _] => by simp [messageBytes]
  | [_, _, _] => by simp [messageBytes]
  | [_, _, _, _] => by simp [messageBytes]
  | [_, _, _, _, _] => by simp [messageBytes]
  | [_, _, _, _, _, _] => by simp [messageBytes]
  | [_, _, _, _, _, _, _] => by simp [messageBytes]
  | _ :: _ :: _ :: _ :: _ :: _ :: _ :: _ :: t => by
    simp only [messageBytes, List.length_cons, length_messageBytes t]
    omega

theorem getElem?_messageCoefs {bs : List (Option Byte)} {i j : Nat} {b : Option Byte}
    (h : bs[i]? = some b) (hj : j < 8) :
    (messageCoefs bs)[8 * i + j]? = some (b.map (messageCoef · j)) := by
  induction i generalizing bs with
  | zero =>
    match bs, h with
    | a :: t, h =>
      simp only [List.getElem?_cons_zero, Option.some.injEq] at h
      subst h
      rw [messageCoefs, List.getElem?_append_left (by simp; omega)]
      simp [hj]
  | succ i ih =>
    match bs, h with
    | a :: t, h =>
      simp only [List.getElem?_cons_succ] at h
      rw [messageCoefs, List.getElem?_append_right (by simp; omega)]
      simp only [List.length_map, List.length_range]
      rw [show 8 * (i + 1) + j - 8 = 8 * i + j by omega]
      exact ih h

theorem length_messageCoefs (bs : List (Option Byte)) : (messageCoefs bs).length = 8 * bs.length := by
  induction bs with
  | nil => rfl
  | cons b t ih => simp only [messageCoefs, List.length_append, List.length_map, List.length_range, List.length_cons, ih]; omega

end Sys2Proof.Machine
end

