-- ==== Sys2Proof/Laws/Exec.lean ====
section
/-! SUPPORT. What a command can do: the lengths of the results, and the one inversion lemma of exec. -/

namespace Sys2Proof.Machine

theorem length_nttDefaultBlock (d k : Nat) (v : List Coef) (h : v.length = 2 ^ (d + 1)) :
    (nttDefaultBlock d k v).length = 2 ^ (d + 1) := by
  induction d generalizing k v with
  | zero => exact h
  | succ d ih =>
    have h2 : 2 ^ (d + 1 + 1) = 2 ^ (d + 1) + 2 ^ (d + 1) := by rw [Nat.pow_succ]; omega
    simp only [nttDefaultBlock, List.length_append]
    rw [ih, ih, h2] <;> simp only [List.length_zipWith, List.length_take, List.length_map, List.length_drop] <;>
      omega

theorem length_invnttDefaultBlock (d k : Nat) (v : List Coef) (h : v.length = 2 ^ (d + 1)) :
    (invnttDefaultBlock d k v).length = 2 ^ (d + 1) := by
  induction d generalizing k v with
  | zero => exact h
  | succ d ih =>
    have h2 : 2 ^ (d + 1 + 1) = 2 ^ (d + 1) + 2 ^ (d + 1) := by rw [Nat.pow_succ]; omega
    simp only [invnttDefaultBlock, List.length_append, List.length_zipWith]
    rw [ih, ih, h2]
    · omega
    · rw [List.length_drop]; omega
    · rw [List.length_take]; omega

/-- The engine returns 256 values for 256 (R120). -/
theorem length_transform (c : Collab) (op : TeOp) {v : List Coef} (h : v.length = 256) :
    (transform c op v).length = 256 := by
  cases c <;> cases op
  · simp [transform, ringDegree]
  · simp [transform, ringDegree]
  · exact (length_nttDefaultBlock 7 1 v (h.trans (by norm_num))).trans (by norm_num)
  · rw [transform, List.length_map]
    exact (length_invnttDefaultBlock 7 1 v (h.trans (by norm_num))).trans (by norm_num)

/-- TB holds 256 entries after a transform (R24). -/
theorem length_tb_transform (s : State) (r : Slot) (op : TeOp) :
    ((s.tbLoad r).tbTransform op).tb.length = 256 := by
  simp only [State.tbTransform_tb, State.tbLoad_tb, State.tbLoad_collab]
  split
  · rename_i v hv
    have hl := congrArg List.length (eq_map_some_of_allWritten hv)
    rw [State.length_srcPoly, List.length_map] at hl
    rw [List.length_map, length_transform _ _ hl.symm]
  · rw [tbUnwritten, List.length_replicate]

/-- A written source slot, as the list of its values. -/
theorem State.srcPoly_of_written {s : State} {r : Slot} {p : List Coef} (hl : p.length = 256)
    (h : ∀ i < 256, s.snap.coef r i = p[i]?) : s.srcPoly r = p.map some := by
  apply List.ext_getElem?
  intro i
  by_cases hi : i < 256
  · rw [State.getElem?_srcPoly _ _ hi, h i hi, List.getElem?_map, List.getElem?_eq_getElem (by omega)]
    rfl
  · rw [List.getElem?_eq_none (by simp; omega), List.getElem?_eq_none (by simp [hl]; omega)]

/-- The state an engine command writes its results from: TB alone has changed (R120). -/
theorem State.tb_through_engine (s : State) (r : Slot) (op : TeOp) :
    (s.tbLoad r).tbTransform op = { s with tb := ((s.tbLoad r).tbTransform op).tb } := rfl

/-- NTT's answer (R160). -/
theorem exec_ntt_of_wf {rd rs1 : Slot} {s : State} (h : (Instr.ntt rd rs1).wf s.npoly = true) :
    exec (.ntt rd rs1) s = .next (((s.tbLoad rs1).tbTransform .forward).dstPoly rd
      (((s.tbLoad rs1).tbTransform .forward).tb.map (Option.map (barrett s.collab)))).finish := by
  rw [exec, execNtt, State.command_of_wf h]

/-- INVNTT's answer (R161). -/
theorem exec_invntt_of_wf {rd rs1 : Slot} {s : State} (h : (Instr.invntt rd rs1).wf s.npoly = true) :
    exec (.invntt rd rs1) s = .next (((s.tbLoad rs1).tbTransform .inverse).dstPoly rd
      ((s.tbLoad rs1).tbTransform .inverse).tb).finish := by
  rw [exec, execInvntt, State.command_of_wf h]

/-- What a command with these results answers: the three facts `exec_cases` needs of a slot-writing command whose
results leave TB alone. -/
theorem State.command_dstPoly {i : Instr} {s : State} (h : i.wf s.npoly = true) (r : Slot) (f : State → List (Option Coef)) :
    s.command i (fun s => s.dstPoly r (f s)) = .next (State.dstPoly { s with tb := s.tb } r (f s)).finish :=
  State.command_of_wf h

/-- A BUF-writing command's answer. -/
theorem State.command_dstBuf {i : Instr} {s : State} (h : i.wf s.npoly = true) (f : State → List (Option Byte)) :
    s.command i (fun s => s.dstBuf (f s)) = .next (s.dstBuf (f s)).finish :=
  State.command_of_wf h

/-- Everything exec can answer: the command is not one of this block and raises ILL; or it is NOP and completes;
or it writes 256 coefficients to a slot or a prefix of BUF, from a state in which TB alone may have changed, and
completes. -/
theorem exec_cases (i : Instr) (s : State) :
    (i.wf s.npoly = false ∧ exec i s = .next (s.toIdle.raiseIll (encode i))) ∨
    (i.wf s.npoly = true ∧ i = .nop ∧ exec i s = .next s.finish) ∨
    (i.wf s.npoly = true ∧ ∃ (r : Slot) (cs : List (Option Coef)) (tb : List (Option Coef)), r ∈ i.slots ∧
      cs.length = 256 ∧ (tb = s.tb ∨ tb.length = 256) ∧
      exec i s = .next (State.dstPoly { s with tb := tb } r cs).finish) ∨
    (i.wf s.npoly = true ∧ ∃ bs : List (Option Byte), bs.length ≤ 384 ∧ exec i s = .next (s.dstBuf bs).finish) := by
  cases hw : i.wf s.npoly with
  | false =>
    left
    refine ⟨rfl, ?_⟩
    cases i <;>
      simp only [exec, execNop, execTobytes, execFrombytes, execCompress, execDecompress, execNtt, execInvntt, execPmul,
        execPmac, State.pmulWith, State.pmacWith, execFrommont, execReduce, execCsubq, execAdd, execSub, execTomsg, execFrommsg,
        State.command_of_not_wf hw]
  | true =>
    right
    cases i with
    | nop => exact Or.inl ⟨rfl, rfl, State.command_of_wf hw⟩
    | tobytes rs1 =>
      exact Or.inr (Or.inr ⟨rfl, packBytes (s.srcPoly rs1), by simp [length_packBytes],
        State.command_dstBuf hw fun s => packBytes (s.srcPoly rs1)⟩)
    | compress rs1 =>
      exact Or.inr (Or.inr ⟨rfl, compressBytes (s.srcPoly rs1), by simp [length_compressBytes],
        State.command_dstBuf hw fun s => compressBytes (s.srcPoly rs1)⟩)
    | tomsg rs1 =>
      exact Or.inr (Or.inr ⟨rfl, messageBytes (s.srcPoly rs1), by simp [length_messageBytes],
        State.command_dstBuf hw fun s => messageBytes (s.srcPoly rs1)⟩)
    | frombytes rd =>
      exact Or.inr (Or.inl ⟨rfl, rd, unpackBytes (s.srcBuf 384), s.tb, by simp [Instr.slots],
        by simp [length_unpackBytes], Or.inl rfl, State.command_dstPoly hw rd fun s => unpackBytes (s.srcBuf 384)⟩)
    | decompress rd =>
      exact Or.inr (Or.inl ⟨rfl, rd, decompressBytes (s.srcBuf 128), s.tb, by simp [Instr.slots],
        by simp [length_decompressBytes], Or.inl rfl, State.command_dstPoly hw rd fun s => decompressBytes (s.srcBuf 128)⟩)
    | frommsg rd =>
      exact Or.inr (Or.inl ⟨rfl, rd, messageCoefs (s.srcBuf 32), s.tb, by simp [Instr.slots],
        by simp [length_messageCoefs], Or.inl rfl, State.command_dstPoly hw rd fun s => messageCoefs (s.srcBuf 32)⟩)
    | ntt rd rs1 =>
      refine Or.inr (Or.inl ⟨rfl, rd, ((s.tbLoad rs1).tbTransform .forward).tb.map (Option.map (barrett s.collab)),
        ((s.tbLoad rs1).tbTransform .forward).tb, by simp [Instr.slots], ?_,
        Or.inr (length_tb_transform s rs1 .forward), ?_⟩)
      · rw [List.length_map, length_tb_transform]
      · rw [← State.tb_through_engine]
        exact exec_ntt_of_wf hw
    | invntt rd rs1 =>
      refine Or.inr (Or.inl ⟨rfl, rd, ((s.tbLoad rs1).tbTransform .inverse).tb,
        ((s.tbLoad rs1).tbTransform .inverse).tb, by simp [Instr.slots], length_tb_transform s rs1 .inverse,
        Or.inr (length_tb_transform s rs1 .inverse), ?_⟩)
      rw [← State.tb_through_engine]
      exact exec_invntt_of_wf hw
    | pmul rd rs1 rs2 =>
      exact Or.inr (Or.inl ⟨rfl, rd, s.products (basemul s.collab) rs1 rs2, s.tb, by simp [Instr.slots],
        State.length_products s _ rs1 rs2, Or.inl rfl, State.command_dstPoly hw rd fun s => s.products (basemul s.collab) rs1 rs2⟩)
    | pmac rd rs1 rs2 =>
      exact Or.inr (Or.inl ⟨rfl, rd, List.zipWith (lift2 add16) (s.srcPoly rd) (s.products (basemul s.collab) rs1 rs2), s.tb, by simp [Instr.slots],
        by simp, Or.inl rfl, State.command_dstPoly hw rd fun s => List.zipWith (lift2 add16) (s.srcPoly rd) (s.products (basemul s.collab) rs1 rs2)⟩)
    | frommont rd rs1 =>
      exact Or.inr (Or.inl ⟨rfl, rd, (s.srcPoly rs1).map (Option.map fun c => mont s.collab (fromMontProduct c)), s.tb, by simp [Instr.slots],
        by simp, Or.inl rfl, State.command_dstPoly hw rd fun s => (s.srcPoly rs1).map (Option.map fun c => mont s.collab (fromMontProduct c))⟩)
    | reduce rd rs1 =>
      exact Or.inr (Or.inl ⟨rfl, rd, (s.srcPoly rs1).map (Option.map (barrett s.collab)), s.tb, by simp [Instr.slots],
        by simp, Or.inl rfl, State.command_dstPoly hw rd fun s => (s.srcPoly rs1).map (Option.map (barrett s.collab))⟩)
    | csubq rd rs1 =>
      exact Or.inr (Or.inl ⟨rfl, rd, (s.srcPoly rs1).map (Option.map csubq), s.tb, by simp [Instr.slots],
        by simp, Or.inl rfl, State.command_dstPoly hw rd fun s => (s.srcPoly rs1).map (Option.map csubq)⟩)
    | add rd rs1 rs2 =>
      exact Or.inr (Or.inl ⟨rfl, rd, List.zipWith (lift2 add16) (s.srcPoly rs1) (s.srcPoly rs2), s.tb, by simp [Instr.slots],
        by simp, Or.inl rfl, State.command_dstPoly hw rd fun s => List.zipWith (lift2 add16) (s.srcPoly rs1) (s.srcPoly rs2)⟩)
    | sub rd rs1 rs2 =>
      exact Or.inr (Or.inl ⟨rfl, rd, List.zipWith (lift2 sub16) (s.srcPoly rs1) (s.srcPoly rs2), s.tb, by simp [Instr.slots],
        by simp, Or.inl rfl, State.command_dstPoly hw rd fun s => List.zipWith (lift2 sub16) (s.srcPoly rs1) (s.srcPoly rs2)⟩)

end Sys2Proof.Machine
end

