-- ==== Sys2Proof/Laws/PerInstr.lean ====
section
/-! SUPPORT. Per-instruction statements about the encoding: the family EncodeFields says that a command's word has
RSV = 0 and its own OPC, and that its slot fields are the command's slots in the order RD, RS1, RS2, with an
unused field 0 (R80, R82, R83). -/

namespace Sys2Proof.Laws.EncodeFields

/-- The slot fields R83 gives a command's form: RD, RS1, RS2. -/
def fields : Instr → Slot × Slot × Slot
  | .nop => (0, 0, 0)
  | .tobytes rs1 => (0, rs1, 0)
  | .frombytes rd => (rd, 0, 0)
  | .compress rs1 => (0, rs1, 0)
  | .decompress rd => (rd, 0, 0)
  | .ntt rd rs1 => (rd, rs1, 0)
  | .invntt rd rs1 => (rd, rs1, 0)
  | .pmul rd rs1 rs2 => (rd, rs1, rs2)
  | .pmac rd rs1 rs2 => (rd, rs1, rs2)
  | .frommont rd rs1 => (rd, rs1, 0)
  | .reduce rd rs1 => (rd, rs1, 0)
  | .csubq rd rs1 => (rd, rs1, 0)
  | .add rd rs1 rs2 => (rd, rs1, rs2)
  | .sub rd rs1 rs2 => (rd, rs1, rs2)
  | .tomsg rs1 => (0, rs1, 0)
  | .frommsg rd => (rd, 0, 0)

/-- The family's statement about one command. -/
def Statement (i : Instr) : Prop :=
  fieldRsv (encode i) = 0 ∧ fieldOpc (encode i) = i.opc ∧
    (fieldRd (encode i), fieldRs1 (encode i), fieldRs2 (encode i)) = fields i

/-- A packed word has the fields it is packed from. -/
theorem of_packWord {i : Instr} (h : encode i = packWord i.opc (fields i).1 (fields i).2.1 (fields i).2.2) :
    Statement i := by
  rw [Statement, h]
  simp

theorem nop : Statement .nop := of_packWord rfl
theorem tobytes (rs1 : Slot) : Statement (.tobytes rs1) := of_packWord rfl
theorem frombytes (rd : Slot) : Statement (.frombytes rd) := of_packWord rfl
theorem compress (rs1 : Slot) : Statement (.compress rs1) := of_packWord rfl
theorem decompress (rd : Slot) : Statement (.decompress rd) := of_packWord rfl
theorem ntt (rd rs1 : Slot) : Statement (.ntt rd rs1) := of_packWord rfl
theorem invntt (rd rs1 : Slot) : Statement (.invntt rd rs1) := of_packWord rfl
theorem pmul (rd rs1 rs2 : Slot) : Statement (.pmul rd rs1 rs2) := of_packWord rfl
theorem pmac (rd rs1 rs2 : Slot) : Statement (.pmac rd rs1 rs2) := of_packWord rfl
theorem frommont (rd rs1 : Slot) : Statement (.frommont rd rs1) := of_packWord rfl
theorem reduce (rd rs1 : Slot) : Statement (.reduce rd rs1) := of_packWord rfl
theorem csubq (rd rs1 : Slot) : Statement (.csubq rd rs1) := of_packWord rfl
theorem add (rd rs1 rs2 : Slot) : Statement (.add rd rs1 rs2) := of_packWord rfl
theorem sub (rd rs1 rs2 : Slot) : Statement (.sub rd rs1 rs2) := of_packWord rfl
theorem tomsg (rs1 : Slot) : Statement (.tomsg rs1) := of_packWord rfl
theorem frommsg (rd : Slot) : Statement (.frommsg rd) := of_packWord rfl

end Sys2Proof.Laws.EncodeFields
end

