-- ==== Sys2Proof/Laws/Step.lean ====
section
/-! SUPPORT. The step: everything the sequencer, an engine's answer and one move can do. A proof about every step
cites `step_cases` and the lemmas of what each case answers, and unfolds no transition. -/

namespace Sys2Proof.Machine

@[simp] theorem State.due_iff (s : State) : s.due = true ↔ s.busy = true ∧ s.ext = .none := by
  simp [State.due]

/-- Everything the sequencer can do (R100, R104). -/
theorem State.sequence_cases (s : State) :
    (s.due = false ∧ s.sequence = .next s) ∨
    (s.due = true ∧ ∃ i, decodeWord s.cmdr = .cmd i ∧ s.sequence = exec i s) ∨
    (s.due = true ∧ ∃ why, decodeWord s.cmdr = .ill why ∧ s.sequence = .next (s.toIdle.raiseIll s.cmdr)) := by
  unfold State.sequence
  cases hd : s.due with
  | false => exact Or.inl ⟨rfl, rfl⟩
  | true =>
    right
    cases hc : decodeWord s.cmdr with
    | cmd i => exact Or.inl ⟨rfl, i, rfl, rfl⟩
    | ill why => exact Or.inr ⟨rfl, why, rfl, rfl⟩

/-- te_done changes the pending request alone, and only where a transform is pending (R120). -/
theorem State.teDone_cases (s : State) :
    ((∃ op, s.ext = .transform op) ∧ s.teDone = { s with ext := .none }) ∨
    ((∀ op, s.ext ≠ .transform op) ∧ s.teDone = s) := by
  unfold State.teDone
  cases s.ext <;> simp

/-- A basemul response takes the oldest request off the queue, and is ignored where none is pending (R121). -/
theorem State.bmRsp_cases (s : State) :
    (∃ x y rs, s.ext = .basemul (x :: y :: rs) ∧ s.bmRsp = { s with ext := .basemul (y :: rs) }) ∨
    (∃ rs, rs.length ≤ 1 ∧ s.ext = .basemul rs ∧ s.bmRsp = { s with ext := .none }) ∨
    ((∀ rs, s.ext ≠ .basemul rs) ∧ s.bmRsp = s) := by
  unfold State.bmRsp
  cases he : s.ext with
  | none => simp
  | transform op => simp
  | basemul rs =>
    match rs with
    | [] => exact Or.inr (Or.inl ⟨[], by simp⟩)
    | [x] => exact Or.inr (Or.inl ⟨[x], by simp⟩)
    | x :: y :: t => exact Or.inl ⟨x, y, t, rfl, rfl⟩

/-- An engine write changes one entry of TB, and only where a transform is pending (R120). -/
theorem State.tbWrite_cases (s : State) (k : BitVec 8) (v : Coef) :
    ((∃ op, s.ext = .transform op) ∧ s.tbWrite k v = { s with tb := s.tb.set k.toNat (some v) }) ∨
    ((∀ op, s.ext ≠ .transform op) ∧ s.tbWrite k v = s) := by
  unfold State.tbWrite
  cases s.ext <;> simp

/-- Everything a step that answers a next state has done. -/
theorem step_cases {s t : State} (h : step s = .next t) :
    (s.rstN = true ∧ (s.moves = [] ∨ s.moves.head? = some .complete) ∧ s.tick.sequence = .next t) ∨
    (s.rstN = true ∧ ∃ r ms, s.moves = .host r :: ms ∧ t = s.tick.access r) ∨
    (s.rstN = true ∧ s.moves.head? = some .teDone ∧ t = s.tick.teDone) ∨
    (s.rstN = true ∧ s.moves.head? = some .bmRsp ∧ t = s.tick.bmRsp) ∨
    (s.rstN = true ∧ ∃ k v, s.moves.head? = some (.tbWrite k v) ∧ t = s.tick.tbWrite k v) ∨
    (∃ level, s.moves.head? = some (.rst level) ∧ t = s.tick.setRst level) ∨
    (s.rstN = false ∧ t = s.tick) := by
  unfold step State.advance at h
  cases hm : s.moves with
  | nil =>
    rw [hm] at h
    cases hr : s.rstN with
    | true => simp only [hr, if_true] at h; exact Or.inl ⟨rfl, Or.inl rfl, h⟩
    | false =>
      simp only [hr, Bool.false_eq_true, if_false, Host.Outcome.next.injEq] at h
      exact Or.inr (Or.inr (Or.inr (Or.inr (Or.inr (Or.inr ⟨rfl, h.symm⟩)))))
  | cons m ms =>
    rw [hm] at h
    cases hr : s.rstN with
    | true =>
      simp only [hr, if_true] at h
      cases m <;> simp only [State.move, Host.Outcome.next.injEq, reduceCtorEq] at h
      case host r => exact Or.inr (Or.inl ⟨rfl, r, ms, rfl, h.symm⟩)
      case complete => exact Or.inl ⟨rfl, Or.inr rfl, h⟩
      case teDone => exact Or.inr (Or.inr (Or.inl ⟨rfl, rfl, h.symm⟩))
      case bmRsp => exact Or.inr (Or.inr (Or.inr (Or.inl ⟨rfl, rfl, h.symm⟩)))
      case tbWrite k v => exact Or.inr (Or.inr (Or.inr (Or.inr (Or.inl ⟨rfl, k, v, rfl, h.symm⟩))))
      case rst l => exact Or.inr (Or.inr (Or.inr (Or.inr (Or.inr (Or.inl ⟨l, rfl, h.symm⟩)))))
    | false =>
      simp only [hr, Bool.false_eq_true, if_false, Host.Outcome.next.injEq] at h
      cases m
      case rst l => exact Or.inr (Or.inr (Or.inr (Or.inr (Or.inr (Or.inl ⟨l, rfl, h.symm⟩)))))
      all_goals exact Or.inr (Or.inr (Or.inr (Or.inr (Or.inr (Or.inr ⟨rfl, h.symm⟩)))))

end Sys2Proof.Machine
end

