-- ==== Sys2Proof/Machine/Assembler.lean ====
section
/-! DEFINITION. The assembler syntax of commands and what a disassembler prints (R87). The machine does not use it. -/

namespace Sys2Proof.Machine

/-- The mnemonic of a command (R82). -/
def mnemonic (i : Instr) : String :=
  match i with
  | .nop => "NOP"
  | .tobytes _ => "TOBYTES"
  | .frombytes _ => "FROMBYTES"
  | .compress _ => "COMPRESS"
  | .decompress _ => "DECOMPRESS"
  | .ntt _ _ => "NTT"
  | .invntt _ _ => "INVNTT"
  | .pmul _ _ _ => "PMUL"
  | .pmac _ _ _ => "PMAC"
  | .frommont _ _ => "FROMMONT"
  | .reduce _ _ => "REDUCE"
  | .csubq _ _ => "CSUBQ"
  | .add _ _ _ => "ADD"
  | .sub _ _ _ => "SUB"
  | .tomsg _ => "TOMSG"
  | .frommsg _ => "FROMMSG"

/-- A decimal digit of a slot number. -/
def digit (n : Nat) : String :=
  ["0", "1", "2", "3", "4", "5", "6", "7", "8", "9"].getD n "?"

/-- A slot is written p0 to p15. -/
def slotName (r : Slot) : String :=
  if r.toNat < 10 then "p" ++ digit r.toNat else "p1" ++ digit (r.toNat - 10)

/-- Operands separated by commas. -/
def operandText : List Slot → String
  | [] => ""
  | [r] => " " ++ slotName r
  | r :: rs => " " ++ slotName r ++ "," ++ operandText rs

/-- The mnemonic followed by the operands in form order. -/
def assembly (i : Instr) : String := mnemonic i ++ operandText i.slots

/-- The hexadecimal digit of a 4-bit value. -/
def hexDigit (n : BitVec 4) : String :=
  ["0", "1", "2", "3", "4", "5", "6", "7", "8", "9", "A", "B", "C", "D", "E", "F"].getD n.toNat "?"

/-- The eight hexadecimal digits of a word. -/
def hexWord (w : Word) : String :=
  ((List.range 8).map fun k => hexDigit (w.extractLsb' (28 - 4 * k) 4)).foldl (· ++ ·) ""

/-- What a disassembler prints for a word in a block with NPOLY slots. -/
def disassemble (npoly : Nat) (w : Word) : String :=
  match decode npoly w with
  | .cmd i => assembly i
  | .ill _ => ".word 0x" ++ hexWord w

end Sys2Proof.Machine
end

