-- ==== Sys2Proof/Machine/HostProgram.lean ====
section
/-! DEFINITION. The host bus operations of a host program (R88) and the expansions of its pseudo-instructions (R89),
as the accesses the block sees. Labels, BNZ and host-local computation are the host's: the block sees nothing of
them (R88, R201), so a loop such as POLL is as many reads as the host makes. -/

namespace Sys2Proof.Machine

/-- A write of a size code (R33) at an address. -/
def hostWrite (size : BitVec 2) (addr : Nat) (v : Word) : BusReq where
  we := true
  addr := BitVec.ofNat 14 addr
  size := size
  wdata := v

/-- A read of a size code at an address. -/
def hostRead (size : BitVec 2) (addr : Nat) : BusReq where
  we := false
  addr := BitVec.ofNat 14 addr
  size := size
  wdata := 0

/-- WR addr, v: MemWrite(addr, 4, v). -/
def wr (addr : Nat) (v : Word) : BusReq := hostWrite 2 addr v

/-- WRH addr, v: MemWrite(addr, 2, v). -/
def wrh (addr : Nat) (v : Word) : BusReq := hostWrite 1 addr v

/-- WRB addr, v: MemWrite(addr, 1, v). -/
def wrb (addr : Nat) (v : Word) : BusReq := hostWrite 0 addr v

/-- RD addr: MemRead(addr, 4). -/
def rd (addr : Nat) : BusReq := hostRead 2 addr

/-- RDH addr: MemRead(addr, 2). -/
def rdh (addr : Nat) : BusReq := hostRead 1 addr

/-- A command in a host program: WR 0x000C of its encoding. -/
def hostCommand (i : Instr) : BusReq := wr 0x000C (encode i)

/-- One read of POLL's loop: RD 0x0008. -/
def pollRead : BusReq := rd 0x0008

/-- CLRFLAGS: WR 0x0008, 0x0000000E. -/
def clrFlags : BusReq := wr 0x0008 0x0000000E

/-- FILL a, n, v: n word writes of v from a on. -/
def fill (a n : Nat) (v : Word) : List BusReq := (List.range n).map fun j => wr (a + 4 * j) v

/-- LOADP s, [c0, c1, ...]: a halfword write for each listed coefficient, then 0 for every other up to 255. -/
def loadp (s : Nat) (cs : List Coef) : List BusReq :=
  (List.range ringDegree).map fun i => wrh (slotBase s + 2 * i) ((cs.getD i 0).setWidth 32)

/-- A host program's accesses as moves of the schedule (log entry 6). -/
def hostMoves (rs : List BusReq) : List Move := rs.map .host

end Sys2Proof.Machine
end

