-- ==== Sys2Proof/Tests/Slice0.lean ====
section
/-! SUPPORT. Tests of the author's own, with expected results from spec/95_test_vectors.md and spec/30_encoding.md,
and a witness for the hypotheses of each statement that has some. -/

namespace Sys2Proof.Tests

open Sys2Proof Sys2Proof.Machine

/-! ### Helpers -/

/-- Coefficients from the start of slot r. -/
def coefMem (r : Nat) (cs : List Int) : Memory :=
  cellsFrom (slotBase r) (cs.flatMap fun c => [(wrap16 c).extractLsb' 0 8, (wrap16 c).extractLsb' 8 8])

/-- Bytes from the start of BUF. -/
def bufMem (bs : List Nat) : Memory := cellsFrom bufBase (bs.map (BitVec.ofNat 8))

/-- An idle block with a memory, and the default collaborators. -/
def idleWith (m : Memory) : State := { State.reset with collab := .defaults, mem := m }

/-- The state after a step that answers one. -/
def after (o : Host.Outcome State Fault Refusal) : Option State :=
  match o with
  | .next t => some t
  | .fault _ => none
  | .refused _ => none

/-- The first n coefficients of slot r after a command on a memory. -/
def slotAfter (i : Instr) (m : Memory) (r : Slot) (n : Nat) : Option (List (Option Int)) :=
  (after (runNow i (idleWith m))).map fun t => (List.range n).map fun k => (t.mem.coef r k).map BitVec.toInt

/-- The first n bytes of BUF after a command on a memory. -/
def bufAfter (i : Instr) (m : Memory) (n : Nat) : Option (List (Option Nat)) :=
  (after (runNow i (idleWith m))).map fun t => (t.mem.readRun bufBase n).map (Option.map BitVec.toNat)

/-- A host access of the idle default block. -/
def req (we : Bool) (a size w : Nat) : BusReq := ⟨we, BitVec.ofNat 14 a, BitVec.ofNat 2 size, BitVec.ofNat 32 w⟩

/-! ### Well-formedness: an ill-formed term for each check (R84), with NPOLY = 8 -/

theorem test_wf_rd : (Instr.add 8 0 0).wf 8 = false := by decide
theorem test_wf_rs1 : (Instr.add 0 8 0).wf 8 = false := by decide
theorem test_wf_rs2 : (Instr.add 0 0 8).wf 8 = false := by decide
theorem test_wf_form_s : (Instr.tobytes 8).wf 8 = false ∧ (Instr.tobytes 7).wf 8 = true := by decide
theorem test_wf_form_d : (Instr.frommsg 15).wf 15 = false ∧ (Instr.frommsg 15).wf 16 = true := by decide
theorem test_wf_form_r2 : (Instr.ntt 1 0).wf 1 = false ∧ (Instr.ntt 0 1).wf 1 = false := by decide
theorem test_wf_nop : Instr.nop.wf 1 = true := by decide

/-! ### Decoding: a word of every command written out field by field, RSV RS2 RS1 RD OPC (R80, R82, R83) -/

theorem test_decode_nop : decodeWord 0b000000000000_0000_0000_0000_00000000#32 = .cmd .nop := by decide
theorem test_decode_tobytes : decodeWord 0b000000000000_0000_0011_0000_00010000#32 = .cmd (.tobytes 3) := by decide
theorem test_decode_frombytes : decodeWord 0b000000000000_0000_0000_0010_00010001#32 = .cmd (.frombytes 2) := by
  decide
theorem test_decode_compress : decodeWord 0b000000000000_0000_0111_0000_00100000#32 = .cmd (.compress 7) := by
  decide
theorem test_decode_decompress : decodeWord 0b000000000000_0000_0000_0001_00100001#32 = .cmd (.decompress 1) := by
  decide
theorem test_decode_ntt : decodeWord 0b000000000000_0000_0010_0001_00110000#32 = .cmd (.ntt 1 2) := by decide
theorem test_decode_invntt : decodeWord 0b000000000000_0000_0100_0011_00110001#32 = .cmd (.invntt 3 4) := by decide
theorem test_decode_pmul : decodeWord 0b000000000000_0001_0010_0011_00110010#32 = .cmd (.pmul 3 2 1) := by decide
theorem test_decode_pmac : decodeWord 0b000000000000_0100_0101_0110_00110011#32 = .cmd (.pmac 6 5 4) := by decide
theorem test_decode_frommont : decodeWord 0b000000000000_0000_0101_0100_00110100#32 = .cmd (.frommont 4 5) := by
  decide
theorem test_decode_reduce : decodeWord 0b000000000000_0000_1111_0011_01000000#32 = .cmd (.reduce 3 15) := by
  decide
theorem test_decode_csubq : decodeWord 0b000000000000_0000_0011_1111_01000001#32 = .cmd (.csubq 15 3) := by decide
theorem test_decode_add : decodeWord 0b000000000000_0001_0000_0010_01000010#32 = .cmd (.add 2 0 1) := by decide
theorem test_decode_sub : decodeWord 0b000000000000_1111_0111_0001_01000011#32 = .cmd (.sub 1 7 15) := by decide
theorem test_decode_tomsg : decodeWord 0b000000000000_0000_0010_0000_01010000#32 = .cmd (.tomsg 2) := by decide
theorem test_decode_frommsg : decodeWord 0b000000000000_0000_0000_1001_01010001#32 = .cmd (.frommsg 9) := by decide

/-- R55: the lowest address holds bits 7..0; a CMD write of another length is no word. -/
theorem test_decode_bytes : decodeBytes [0x42, 0x02, 0x01, 0x00] = .cmd (.add 2 0 1) ∧
    decodeBytes [0x42, 0x02] = .ill .notOneWord ∧ decodeBytes [] = .ill .notOneWord := by decide

/-- The four reasons of R85, and NPOLY's (L2-ENC). -/
theorem test_decode_illegal : decode 8 0x00000006 = .ill .undefinedOpc ∧ decode 8 0x80000000 = .ill .reservedNonzero ∧
    decode 8 0x00010030 = .ill .unusedNonzero ∧ decode 8 0x00008032 = .ill .slotOutOfRange ∧
    decode 9 0x00000842 = .cmd (.add 8 0 0) := by decide

/-- The same words through the host's table numbering. -/
theorem test_decode_table_word : decodeTableWord 32 0x00010332 = some (.pmul 3 0 1) ∧ decodeTableWord 8 0x50 = some (.tomsg 0) ∧
    decodeTableWord 32 0x00100042 = none := by decide

/-- The examples of R87, and an illegal word. -/
theorem test_assembly :
    [0x00000000, 0x00003010, 0x00000051, 0x00000130, 0x00010242, 0x00000842].map (fun w => disassemble 8 (BitVec.ofNat 32 w)) =
      ["NOP", "TOBYTES p3", "FROMMSG p0", "NTT p1, p0", "ADD p2, p0, p1", ".word 0x00000842"] ∧
    assembly (.sub 15 10 9) = "SUB p15, p10, p9" := by decide

/-- The expansions of R89 that L3-1 uses. -/
theorem test_host_program :
    hostCommand (.frommsg 0) = req true 0x000C 2 0x51 ∧ clrFlags = req true 8 2 0xE ∧
    fill 0x0804 7 0 = [0x804, 0x808, 0x80C, 0x810, 0x814, 0x818, 0x81C].map (fun a => req true a 2 0) ∧
    (loadp 1 [831, 2497]).length = 256 ∧ (loadp 1 [831, 2497])[1]? = some (req true 0x1202 1 2497) ∧
    (loadp 1 [831, 2497])[255]? = some (req true 0x13FE 1 0) := by decide +kernel

/-! ### Commands (L2 vectors) -/

/-- R200. -/
theorem test_nop : (after (exec .nop (State.reset.accept 0))).map (fun t => (t.busy, t.done, t.cmdr, t.mem)) =
    some (false, true, 0, []) := by decide

/-- L2-SER. -/
theorem test_tobytes : bufAfter (.tobytes 0) (coefMem 0 [0xABC, 0x123, 3329, 6657, 32767, -32768]) 9 =
    some (List.map some [0xBC, 0x3A, 0x12, 0x00, 0x00, 0xD0, 0xFE, 0x02, 0x00]) := by decide
/-- L2-SER: below 0, and past 2q. -/
theorem test_tobytes_edges : bufAfter (.tobytes 2) (coefMem 2 [-1, 6658]) 3 = some (List.map some [0xFF, 0x1F, 0xD0]) := by
  decide
/-- L2-SER. -/
theorem test_frombytes : slotAfter (.frombytes 0) (bufMem [0xFF, 0xFF, 0xFF, 0xBC, 0x3A, 0x12, 0x01, 0xD0, 0x0C]) 0 6 =
    some (List.map some [4095, 4095, 2748, 291, 1, 205]) := by decide
/-- L2-COMP. -/
theorem test_compress : bufAfter (.compress 0) (coefMem 0 [104, 105, 1664, 3328, 1560, 1561, -1, 6658]) 4 =
    some (List.map some [0x10, 0x08, 0x87, 0x0B]) := by decide
/-- L2-COMP. -/
theorem test_decompress : slotAfter (.decompress 1) (bufMem [0xF0, 0x87]) 1 4 =
    some (List.map some [0, 3121, 1456, 1665]) := by decide
/-- L2-NTT 4 and 7: with a = b = NTT 1 = [1, 0, 1, 0], PMUL gives (169, 0) for both pairs of block 0. -/
theorem test_pmul : slotAfter (.pmul 1 0 0) (coefMem 0 [1, 0, 1, 0]) 1 4 = some (List.map some [169, 0, 169, 0]) := by
  decide
/-- L2-NTT 3: all-ones by all-ones; the second pair of a block takes the negated twiddle. -/
theorem test_pmul_ones : slotAfter (.pmul 0 0 0) (coefMem 0 [1, 1, 1, 1, 1, 1, 1, 1]) 0 8 =
    some (List.map some [-287, 338, 625, 338, 718, 338, -380, 338]) := by decide
/-- L3-4: the second of three accumulations; RD is read from the snapshot. -/
theorem test_pmac : slotAfter (.pmac 3 0 0) (coefMem 0 [1, 0, 1, 0] ++ coefMem 3 [169, 0, 169, 0]) 3 4 =
    some (List.map some [338, 0, 338, 0]) := by decide
/-- L2-CSQ's FROMMONT column and the two vectors under the table. -/
theorem test_frommont : slotAfter (.frommont 1 0) (coefMem 0 [1, 3328, -3329, 32767, -32768, 4095, 169, 2285]) 1 8 =
    some (List.map some [-1044, 1044, 0, 56, 988, -744, 1, 1353]) := by decide
/-- L2-CSQ's REDUCE column. -/
theorem test_reduce : slotAfter (.reduce 0 0) (coefMem 0 [3328, 3329, 6658, -1, -3329, 32767, -32768, -29961]) 0 8 =
    some (List.map some [3328, 0, 0, 3328, 3329, 2806, 522, 3329]) := by decide
/-- L2-CSQ's CSUBQ column. -/
theorem test_csubq : slotAfter (.csubq 1 0) (coefMem 0 [3328, 3329, 6657, 6658, -1, 32767, -32768]) 1 7 =
    some (List.map some [3328, 0, 3328, 3329, -1, 29438, -32768]) := by decide
/-- L2-LIN. -/
theorem test_add : slotAfter (.add 2 0 1) (coefMem 0 [1665, 3328, 32767, -32768] ++ coefMem 1 [831, 3328, 1, 1]) 2 4 =
    some (List.map some [2496, 6656, -32768, -32767]) := by decide
/-- R102: ADD p0, p0, p0 doubles p0. -/
theorem test_add_alias : slotAfter (.add 0 0 0) (coefMem 0 [5, -7]) 0 2 = some (List.map some [10, -14]) := by
  decide
/-- L2-LIN: RS1 - RS2, in this order. -/
theorem test_sub : slotAfter (.sub 2 0 1) (coefMem 0 [1665, -32768, 0, 105] ++ coefMem 1 [831, 1, 1, 208]) 2 4 =
    some (List.map some [834, 32767, -1, -103]) := by decide
/-- L2-MSG. -/
theorem test_tomsg : bufAfter (.tomsg 0) (coefMem 0 [832, 833, 2496, 2497, 4161, 3328, -1, 6657]) 1 = some [some 0x46] := by
  decide
/-- L2-MSG. -/
theorem test_frommsg : slotAfter (.frommsg 0) (bufMem [0xA5]) 0 8 =
    some (List.map some [1665, 0, 1665, 0, 0, 1665, 0, 1665]) := by decide

/-- L2-NTT 2: the default engine's NTT of x is [0, 1, 0, 1, ...]. -/
theorem test_ntt : (transform .defaults .forward (0 :: 1 :: List.replicate 254 0)).take 4 = [0, 1, 0, 1] := by
  decide
/-- L2-NTT 2: its NTT of x^255 begins [0, 2154, 0, 1175, ...], before and after BARRETT. -/
theorem test_ntt_high : (((transform .defaults .forward (List.replicate 255 0 ++ [1])).map (barrett .defaults)).take 4) =
    [0, 2154, 0, 1175] := by decide +kernel
/-- L2-NTT 5: its INVNTT of all-ones is [-1044, -1044, 0, ..., 0]. -/
theorem test_invntt : (transform .defaults .inverse (List.replicate 256 1)).take 3 =
    [wrap16 (-1044), wrap16 (-1044), 0] := by decide +kernel

/-! ### The host port (L2-HOST) -/

/-- ID reads, is read-only, and the two BusErrors of its window. -/
theorem test_host_id : (State.reset.access (req false 0 2 0)).rsp = some ⟨0x01080D01, false⟩ ∧
    State.reset.access (req true 0 2 0) = { State.reset with rsp := some ⟨0, false⟩ } ∧
    State.reset.access (req true 0xC 1 0) = { State.reset with rsp := some ⟨0, true⟩ } ∧
    (State.reset.access (req false 0xE 2 0)).rsp = some ⟨0, true⟩ := by decide +kernel

/-- Unmapped addresses, a byte access to a slot, and the slot past NPOLY. -/
theorem test_host_unmapped :
    [req false 0x10 2 0, req true 0x1000 0 1, req false 0x2000 1 0, req false 0x980 2 0, req false 0x800 3 0].all
      (fun r => (State.reset.access r).rsp == some ⟨0, true⟩) = true := by decide

/-- BUF is little-endian. -/
theorem test_host_buf :
    ((State.reset.access (req true 0x800 2 0x44332211)).access (req false 0x802 1 0)).rsp = some ⟨0x4433, false⟩ := by
  decide

/-- A word write to a slot sets two coefficients, and a halfword read zero-extends. -/
theorem test_host_slot :
    ((State.reset.access (req true 0x1000 2 0xFFFF0D01)).mem.coef 0 0 = some 3329#16) ∧
    ((State.reset.access (req true 0x1000 2 0xFFFF0D01)).access (req false 0x1002 1 0)).rsp =
      some ⟨0x0000FFFF, false⟩ := by decide

/-- An undefined OPC while idle raises ILL and is recorded. -/
theorem test_host_ill :
    State.reset.access (req true 0xC 2 6) = { State.reset with ill := true, cmdr := 6, rsp := some ⟨0, false⟩ } := by
  decide +kernel

/-- STATUS bits are write-1-to-clear, and bit 0 is ignored. -/
theorem test_host_w1c :
    ({ State.reset with done := true, ill := true, rej := true }.access (req true 8 2 4)).statusWord = 0xA ∧
    ({ State.reset with done := true }.access (req true 8 2 1)).statusWord = 0x2 := by decide

/-- While BUSY: a BUF read and CMD writes are refused with REJ, an ill-sized one is a BusError. -/
theorem test_host_busy :
    let s := State.reset.accept 0
    s.access (req false 0x800 2 0) = { s with rej := true, rsp := some ⟨0, false⟩ } ∧
    s.access (req true 0xC 2 6) = { s with rej := true, rsp := some ⟨0, false⟩ } ∧
    s.access (req true 0xC 1 0) = { s with rsp := some ⟨0, true⟩ } := by decide +kernel

/-- SRST while idle. -/
theorem test_host_srst :
    { State.reset with ie := true, done := true, cmdr := 7, mem := bufMem [1] }.access (req true 4 2 3) =
      { State.reset with mem := bufMem [1], rsp := some ⟨0, false⟩ } := by decide +kernel

/-- L3-5: IE and an illegal word raise irq, and CLRFLAGS drops it. -/
theorem test_host_irq :
    let s := (State.reset.access (req true 4 2 1)).access (req true 0xC 2 0x842)
    s.irq = true ∧ (s.access (req true 8 2 0xE)).irq = false := by decide

/-! ### The step -/

/-- L3-5, branch A: a NOP written while NTT runs is refused, and te_done then the completion set DONE. -/
theorem test_step_reject :
    (after (step { State.reset.cmdWrite 0x130 with moves := [.host (req true 0xC 2 0)] })).map
      (fun t => (t.rej, t.busy, t.cmdr)) = some (true, true, 0x130) := by decide

/-- L3-5, branch B: with no move left and te_done given, the command completes by itself. -/
theorem test_step_completes :
    (after (step (State.reset.cmdWrite 0x130).teDone)).map (fun t => (t.busy, t.done)) = some (false, true) := by
  decide

/-- R104: while te_done is awaited nothing happens. -/
theorem test_step_waits : (after (step (State.reset.cmdWrite 0x130))).map (fun t => (t.busy, t.done)) =
    some (true, false) := by decide

/-- R240: rst_n low abandons the command. -/
theorem test_step_reset :
    (after (step { State.reset.cmdWrite 0x130 with moves := [.rst false] })).map
      (fun t => (t.busy, t.cmdr, t.ext, t.rstN)) = some (false, 0, .none, false) := by decide

/-- Every row of the opcode table runs as the first command after reset. -/
theorem test_first_command :
    [0x00, 0x10, 0x11, 0x20, 0x21, 0x30, 0x31, 0x32, 0x33, 0x34, 0x40, 0x41, 0x42, 0x43, 0x50, 0x51].all
      (fun w => ((after (step (State.reset.withFetchWord 32 w))).map State.done) == some true) = true := by
  decide

/-! ### Witnesses: concrete states and operands that meet all hypotheses of each statement that has some

`filled x y` has every byte of BUF written with 0xFF, and slots 6 and 7 with x and y in turn; `inFlight` is such a
block with a command just accepted, and `waiting` one that awaits the engine. -/

/-- 256 coefficients x, y in turn. -/
def alternating (x y : Coef) : List Coef := (List.range 256).map fun i => if i % 2 = 0 then x else y

/-- Slot r written with x and y in turn. -/
def withSlot (s : State) (r : Slot) (x y : Coef) : State := s.dstPoly r ((alternating x y).map some)

def filled (x y : Coef) : State :=
  (withSlot (withSlot State.reset 6 x y) 7 x y).dstBuf (List.replicate 384 (some 0xFF))

def inFlight (w : Word) (x y : Coef) : State := (filled x y).accept w

def waiting (ms : List Move) : State := { State.reset.cmdWrite 0x130 with moves := ms }

theorem getElem?_alternating (x y : Coef) {i : Nat} (hi : i < 256) :
    (alternating x y)[i]? = some (if i % 2 = 0 then x else y) := by
  simp [alternating, hi]

theorem read_filled (x y : Coef) {k : Nat} (hk : k < 384) : (filled x y).mem.read (0x0800 + k) = some 0xFF := by
  exact State.read_dstBuf _ (b := some 0xFF) (by rw [List.getElem?_replicate, if_pos hk])

theorem coef_withSlot (s : State) (r : Slot) (x y : Coef) {i : Nat} (hi : i < 256) :
    (withSlot s r x y).mem.coef r i = some (if i % 2 = 0 then x else y) := by
  have h := State.coef_dstPoly s r (cs := (alternating x y).map some) (i := i)
    (by rw [List.getElem?_map, getElem?_alternating x y hi]; rfl)
  exact h

theorem length_alternating (x y : Coef) : ((alternating x y).map some).length = 256 := by
  rw [List.length_map, alternating, List.length_map, List.length_range]

theorem coef_filled (x y : Coef) {i : Nat} (hi : i < 256) :
    (filled x y).mem.coef 7 i = some (if i % 2 = 0 then x else y) :=
  (State.coef_dstBuf _ (le_of_eq List.length_replicate) 7 i).trans (coef_withSlot _ 7 x y hi)

theorem coef_filled_six (x y : Coef) {i : Nat} (hi : i < 256) :
    (filled x y).mem.coef 6 i = some (if i % 2 = 0 then x else y) :=
  (State.coef_dstBuf _ (le_of_eq List.length_replicate) 6 i).trans
    ((State.coef_dstPoly_other _ (by decide) (length_alternating x y) hi).trans (coef_withSlot _ 6 x y hi))

/-- EncodeOfDecodeGivesTheWord: the smallest word and the one with every slot field at 15. -/
theorem witness_encodeOfDecode : decodeWord 0 = .cmd .nop ∧ decodeWord 0x000FFF42 = .cmd (.add 15 15 15) := by decide

/-- LegalWordsAreTheTableRows: a legal word, a row it matches, and an illegal word while idle. -/
theorem witness_legalWords :
    decode 16 0x000FFF42 = .cmd (.add 15 15 15) ∧ Row.matchesWord ⟨maskR3, 0x42⟩ 0x000FFF42 = true ∧
    (⟨maskR3, 0x42⟩ : Row) ∈ opcodeTable ∧ State.reset.npoly = 8 ∧ State.reset.busy = false ∧
    (¬ ∃ i, decode 8 0x00000842 = .cmd i) := by
  have h : decode 8 0x00000842 = .ill .slotOutOfRange := by decide
  refine ⟨by decide, by decide, by decide, by decide, by decide, ?_⟩
  rintro ⟨i, hi⟩
  exact absurd (h.symm.trans hi) (by simp)

/-- IllegalWordsRaiseIll: each disjunct, for an undefined OPC, the lowest RSV bit, and each form's field checks. -/
theorem witness_illegalWords :
    State.reset.busy = false ∧ (∀ i : Instr, fieldOpc 0x06#32 ≠ i.opc) ∧ fieldRsv 0x00100042#32 ≠ 0 ∧
    (fieldOpc 0x00000100#32 = Instr.opc .nop ∧ badFields .nop State.reset.npoly 0x00000100#32) ∧
    (fieldOpc 0x00008010#32 = Instr.opc (.tobytes 0) ∧ badFields (.tobytes 0) State.reset.npoly 0x00008010#32) ∧
    (fieldOpc 0x00010011#32 = Instr.opc (.frombytes 0) ∧
      badFields (.frombytes 0) State.reset.npoly 0x00010011#32) ∧
    (fieldOpc 0x00010030#32 = Instr.opc (.ntt 0 0) ∧ badFields (.ntt 0 0) State.reset.npoly 0x00010030#32) ∧
    (fieldOpc 0x00000842#32 = Instr.opc (.add 0 0 0) ∧
      badFields (.add 0 0 0) State.reset.npoly 0x00000842#32) := by
  refine ⟨by decide, ?_, by decide, ⟨by decide, ?_⟩, ⟨by decide, ?_⟩, ⟨by decide, ?_⟩, ⟨by decide, ?_⟩, by decide, ?_⟩
  · intro i
    cases i <;> simp only [Instr.opc] <;> decide
  · exact Or.inl (by decide)
  · exact Or.inr (Or.inr (by decide))
  · exact Or.inr (Or.inl (by decide))
  · exact Or.inl (by decide)
  · exact Or.inl (by decide)

/-- The two kinds of idle word of WordEvents: w with no bad field, and v with one, both of one opcode. -/
def EventWords (opc : BitVec 8) (bad : Nat → Word → Prop) (w v : Word) : Prop :=
  (fieldOpc w = opc ∧ ¬ (fieldRsv w ≠ 0 ∨ bad State.reset.npoly w)) ∧ (fieldOpc v = opc ∧ bad State.reset.npoly v)

/-- WordEvents, in every statement of a command: words at the edge of each form's conditions, an idle block, a busy
one, and a word with only RSV wrong. -/
theorem witness_wordEvents :
    State.reset.busy = false ∧ (State.reset.accept 0).busy = true ∧ fieldRsv 0x00100042#32 ≠ 0 ∧
    EventWords 0x00#8 badN 0x0 0x100 ∧
    EventWords 0x10#8 badS 0x7010 0x8010 ∧
    EventWords 0x11#8 badD 0x711 0x811 ∧
    EventWords 0x20#8 badS 0x7020 0x7120 ∧
    EventWords 0x21#8 badD 0x721 0x1721 ∧
    EventWords 0x30#8 badR2 0x7730 0x17730 ∧
    EventWords 0x31#8 badR2 0x7731 0x7831 ∧
    EventWords 0x32#8 badR3 0x77732 0x87732 ∧
    EventWords 0x33#8 badR3 0x77733 0x78733 ∧
    EventWords 0x34#8 badR2 0x7734 0x8734 ∧
    EventWords 0x40#8 badR2 0x7740 0x7840 ∧
    EventWords 0x41#8 badR2 0x7741 0x17741 ∧
    EventWords 0x42#8 badR3 0x77742 0x77842 ∧
    EventWords 0x43#8 badR3 0x77743 0x80043 ∧
    EventWords 0x50#8 badS 0x7050 0x17050 ∧
    EventWords 0x51#8 badD 0x751 0x10751 := by
  unfold EventWords badN badS badD badR2 badR3
  refine ⟨by decide, by decide, by decide, ?_, ?_, ?_, ?_, ?_, ?_, ?_, ?_, ?_, ?_, ?_, ?_, ?_, ?_, ?_, ?_⟩ <;> decide

/-- StepRunsTheDueCommand: with no move left, and with a completion next. -/
theorem witness_stepRuns :
    let s := State.reset.accept 0x77742
    let u := { s with moves := [.complete, .teDone] }
    s.rstN = true ∧ s.busy = true ∧ s.ext = .none ∧ s.moves = [] ∧ decodeWord s.cmdr = .cmd (.add 7 7 7) ∧
    u.moves.head? = some .complete := by decide

/-- StepPerformsTheHostAccess. -/
theorem witness_stepHost :
    let s := { State.reset with moves := [.host (req false 8 2 0)] }
    s.rstN = true ∧ s.moves = .host (req false 8 2 0) :: [] := by decide

/-- FetchWordRunsNext: a word with every slot field at 15, and 0. -/
theorem witness_fetchWord : decodeWord 0x000FFF33 = .cmd (.pmac 15 15 15) ∧ decodeWord 0 = .cmd .nop := by decide

/-- An accepted PMUL p3, p0, p0 awaits its base multiplications. -/
theorem cmdWrite_pmul : State.reset.cmdWrite 0x332 = (State.reset.accept 0x332).startExternal (.pmul 3 0 0) := by
  have hd : decode State.reset.npoly 0x332 = .cmd (.pmul 3 0 0) := by decide
  rw [State.cmdWrite, hd]
  rfl

/-- OnlyAnswersOrResetEndAWait: while a transform is awaited, a host access and a basemul response. -/
theorem witness_wait :
    let s := waiting [.host (req true 0xC 2 0)]
    let u := waiting [.bmRsp]
    (s.rstN = true ∧ s.busy = true ∧ s.ext = .transform .forward ∧ s.moves.head? ≠ some .teDone ∧
      s.moves.head? ≠ some (.rst false) ∧ (after (step s)).isSome = true) ∧
    (u.ext = .transform .forward ∧ u.moves.head? ≠ some .teDone ∧ u.moves.head? ≠ some (.rst false) ∧
      (after (step u)).isSome = true) := by decide

/-- OnlyAnswersOrResetEndAWait: while base multiplications are awaited, te_done. -/
theorem witness_wait_basemul :
    let v := { State.reset.cmdWrite 0x332 with moves := [.teDone] }
    v.rstN = true ∧ v.busy = true ∧ v.ext ≠ .none ∧ (∀ op, v.ext ≠ .transform op) ∧ v.moves.head? ≠ some .bmRsp ∧
      v.moves.head? ≠ some (.rst false) ∧ (after (step v)).isSome = true := by
  rw [cmdWrite_pmul]
  refine ⟨rfl, rfl, ?_, ?_, ?_, ?_, rfl⟩
  · exact fun h => by cases h
  · exact fun op h => by cases h
  · exact fun h => by cases h
  · exact fun h => by cases h

/-- AnswersMakeACommandDue: each arm of the match. -/
theorem witness_due : State.reset.busy = false ∧ decode State.reset.npoly 0x7730 = .cmd (.ntt 7 7) ∧
    decode State.reset.npoly 0x0031 = .cmd (.invntt 0 0) ∧ decode State.reset.npoly 0x77732 = .cmd (.pmul 7 7 7) ∧
    decode State.reset.npoly 0x0033 = .cmd (.pmac 0 0 0) ∧ decode State.reset.npoly 0 = .cmd .nop := by decide

/-- StrayEngineAnswersAreIgnored: each of the three moves while idle, te_done and a TB write while base
multiplications are outstanding, and a basemul response while a transform is. -/
theorem witness_stray : [Move.teDone, .bmRsp, .tbWrite 255 (-1)].all (fun m =>
      let s := { State.reset with moves := [m] }
      s.rstN && s.ext == .none && s.moves == m :: []) = true ∧
    (∀ op, (State.reset.cmdWrite 0x332).ext ≠ .transform op) ∧
    (∀ rs, (State.reset.cmdWrite 0x130).ext ≠ .basemul rs) ∧
    (State.reset.cmdWrite 0x332).rstN = true ∧ (State.reset.cmdWrite 0x130).rstN = true := by
  have h2 : (State.reset.cmdWrite 0x130).ext = .transform .forward := by decide
  refine ⟨by decide, fun op => ?_, fun rs => by rw [h2]; simp, by decide, by decide⟩
  rw [cmdWrite_pmul]
  exact fun h => by cases h

/-- CsubqFormulaAndProperties: boundary values of each clause. -/
theorem witness_csubq : (0 : Int) ≤ (0#16).toInt ∧ (6657#16).toInt < 6658 ∧ Canonical 3328#16 ∧ Canonical 0#16 ∧
    6658 ≤ (6658#16).toInt ∧ (0xFFFF#16).toInt < 0 := by decide

/-- AddersWrapAtSixteenBits: the ends of [-q, 2q). -/
theorem witness_adders : -3329 ≤ (wrap16 (-3329)).toInt ∧ (wrap16 (-3329)).toInt < 6658 ∧
    -3329 ≤ (wrap16 6657).toInt ∧ (wrap16 6657).toInt < 6658 := by decide

/-- DefaultBasemulIsTheScaledProduct: the ends of the operands' and the twiddle's ranges. -/
theorem witness_basemul : (0 : Int) ≤ (0#16).toInt ∧ (0#16).toInt < 4096 ∧ (0 : Int) ≤ (4095#16).toInt ∧
    (4095#16).toInt < 4096 ∧ -3329 < (wrap16 (-3328)).toInt ∧ (wrap16 (-3328)).toInt < 3329 ∧
    -3329 < (wrap16 3328).toInt ∧ (wrap16 3328).toInt < 3329 := by decide

/-- CompressionErrorIsAtMostHundredFour and QuantizationIntervals: the ends of the canonical range, and k = 1, 15. -/
theorem witness_canonical : Canonical 0#16 ∧ Canonical 3328#16 ∧ (1 ≤ 1 ∧ 1 ≤ 15) ∧ (1 ≤ 15 ∧ 15 ≤ 15) := by decide

/-- MessageBitNoiseTolerance: the ends of each clause's range. -/
theorem witness_noise : Canonical 3328#16 ∧ ((-1664 : Int) ≤ -1664 ∧ (1664 : Int) ≤ 1664) ∧
    ((-1665 : Int) ≤ -1665 ∧ (4992 : Int) ≤ 4992) ∧ (0x8000#16).toInt < 0 ∧ (0xFFFF#16).toInt < 0 := by decide

/-- A base multiplier with BASEMUL_CORRECT and scale 1. -/
def exactBasemul (a0 a1 b0 b1 z : Coef) : Coef × Coef :=
  (wrap16 ((a0.toInt * b0.toInt + z.toInt * (a1.toInt * b1.toInt)) % 3329),
   wrap16 ((a0.toInt * b1.toInt + a1.toInt * b0.toInt) % 3329))

theorem exactBasemul_correct : BasemulCorrect exactBasemul 1 := by
  refine ⟨by decide, ?_⟩
  intro a0 a1 b0 b1 z
  have h : ∀ v : Int, (wrap16 (v % 3329)).toInt % 3329 = 1 * v % 3329 := by
    intro v
    rw [toInt_wrap16_of_range (by omega) (by omega), Int.emod_emod_of_dvd _ (dvd_refl _), one_mul]
  exact ⟨h _, h _⟩

/-- PmulDistributesOverAdd, with any base multiplier: one that has BASEMUL_CORRECT, sums at both ends of 16 bits, and
a written accumulator in a slot of its own. -/
theorem witness_distributes :
    let s := filled (wrap16 (-16384)) 16383
    BasemulCorrect exactBasemul 1 ∧ (∀ r ∈ [(7 : Slot), 7, 7, 0, 6], r.toNat < s.npoly) ∧ (0 : Slot) ≠ 7 ∧
    DistributiveOperands s 7 7 7 ∧ (6 : Slot) ≠ 7 ∧ (6 : Slot) ≠ 0 ∧
    ∀ i < 256, (s.mem.coef 6 i).isSome = true := by
  refine ⟨exactBasemul_correct, show ∀ r ∈ [(7 : Slot), 7, 7, 0, 6], r.toNat < 8 by decide, by decide, ?_, by decide,
    by decide, fun i hi => by rw [coef_filled_six _ _ hi]; rfl⟩
  refine fun i hi => ⟨_, _, _, coef_filled _ _ hi, coef_filled _ _ hi, coef_filled _ _ hi, ?_, ?_⟩ <;> split <;> decide

/-- PmulDistributesOverAdd, with the default base multiplier: the ends of [0, 4096). -/
theorem witness_distributes_defaults :
    let s := { filled 0 4095 with collab := .defaults }
    s.collab = .defaults ∧ (∀ r ∈ [(7 : Slot), 7, 7, 0, 6], r.toNat < s.npoly) ∧ (0 : Slot) ≠ 7 ∧
    ∀ r ∈ [(7 : Slot), 7, 7], ∀ i < 256, ∃ x, s.mem.coef r i = some x ∧ 0 ≤ x.toInt ∧ x.toInt < 4096 := by
  refine ⟨rfl, show ∀ r ∈ [(7 : Slot), 7, 7, 0, 6], r.toNat < 8 by decide, by decide, fun r hr i hi => ?_⟩
  obtain rfl : r = 7 := by simpa using hr
  refine ⟨_, coef_filled 0 4095 hi, ?_, ?_⟩ <;> split <;> decide

/-- The statements of TOBYTES, COMPRESS, PMUL, PMAC, FROMMONT, REDUCE, CSUBQ, ADD, SUB, TOMSG: every coefficient of
the source slot 7 of a command in flight, for any two values x and y. -/
theorem witness_sources (w : Word) (x y : Coef) : (7#4).toNat < (inFlight w x y).npoly ∧
    ∀ i < 256, (inFlight w x y).snap.coef 7 i = some (if i % 2 = 0 then x else y) :=
  ⟨show 7 < 8 by decide, fun _ hi => coef_filled x y hi⟩

/-- The statements of FROMBYTES, DECOMPRESS and FROMMSG: every byte of BUF written. -/
theorem witness_bufSources (w : Word) (x y : Coef) : (7#4).toNat < (inFlight w x y).npoly ∧
    ∀ k < 384, (inFlight w x y).snap.read (0x0800 + k) = some 0xFF :=
  ⟨show 7 < 8 by decide, fun _ hk => read_filled x y hk⟩

/-- NttTransformsThenReduces and InvnttTransformsWithoutReduction: slot 7 as a list of its 256 values. -/
theorem witness_transform (w : Word) (x y : Coef) : (alternating x y).length = 256 ∧
    ∀ i < 256, (inFlight w x y).snap.coef 7 i = (alternating x y)[i]? :=
  ⟨by simp [alternating], fun _ hi => (coef_filled x y hi).trans (getElem?_alternating x y hi).symm⟩

/-- CommandFrame, ResultsAreWritten: each kind of command runs; StatusWriteOneClears's last clause likewise. -/
theorem witness_runs :
    [Instr.nop, .tobytes 7, .frombytes 7, .compress 0, .decompress 0, .ntt 7 0, .invntt 7 0, .pmul 7 0 7, .pmac 7 7 7,
      .frommont 0 7, .reduce 0 7, .csubq 7 7, .add 7 7 7, .sub 0 7 0, .tomsg 0, .frommsg 7].all
      (fun i => i.wf State.reset.npoly && (after (exec i State.reset)).isSome) = true ∧
    resultRange (.tobytes 7) = some (0x0800, 384) ∧ resultRange (.add 7 7 7) = some (0x1E00, 512) := by
  decide

/-- MissingSlotRaisesIll: the first slot the block lacks, in each field. -/
theorem witness_missing : (Instr.add 8 0 0).wf State.reset.npoly = false ∧
    (Instr.sub 0 8 0).wf State.reset.npoly = false ∧ (Instr.pmac 0 0 15).wf State.reset.npoly = false := by decide

/-- SerializationRoundTrips: every coefficient of slot 7 in [0, 2q), with q - 1 and 2q - 1 among them, and all of
BUF written. -/
theorem witness_serialization :
    let s := filled 3328 6657
    (0#4).toNat < s.npoly ∧ (7#4).toNat < s.npoly ∧
    (∀ i < 256, ∃ x, s.mem.coef 7 i = some x ∧ 0 ≤ x.toInt ∧ x.toInt < 6658) ∧
    (∀ k < 384, (s.mem.read (0x0800 + k)).isSome = true) := by
  refine ⟨by decide, by decide, fun i hi => ⟨_, coef_filled _ _ hi, ?_, ?_⟩, fun k hk => by rw [read_filled _ _ hk]; rfl⟩ <;>
    split <;> decide

/-- MessageRoundTripWithoutNoise and NoisyMessageIsRecovered: a written message and noise at both ends. -/
theorem witness_message :
    let s := filled (wrap16 (-832)) 831
    (0#4).toNat < s.npoly ∧ (7#4).toNat < s.npoly ∧ (0#4 : Slot) ≠ 7#4 ∧
    (∀ i < 32, (s.mem.read (0x0800 + i)).isSome = true) ∧
    (∀ i < 256, ∃ x, s.mem.coef 7 i = some x ∧ -832 ≤ x.toInt ∧ x.toInt ≤ 831) := by
  refine ⟨by decide, by decide, by decide, fun i hi => by rw [read_filled _ _ (by omega)]; rfl,
    fun i hi => ⟨_, coef_filled _ _ hi, ?_, ?_⟩⟩ <;> split <;> decide

/-- BusErrorsAreExactlyTheListed: each condition, and accesses at the ends of the map that meet none. -/
theorem witness_busErrors :
    BusErrorConditions 8 (req false 0x800 3 0) ∧ BusErrorConditions 8 (req false 0x10 2 0) ∧
    BusErrorConditions 8 (req false 0x2000 1 0) ∧ BusErrorConditions 8 (req true 0x801 1 0) ∧
    ¬ BusErrorConditions 8 (req false 0 2 0) ∧ ¬ BusErrorConditions 8 (req false 0xC 2 0) ∧
    ¬ BusErrorConditions 8 (req false 0x97F 0 0) ∧ ¬ BusErrorConditions 8 (req true 0x1FFE 1 0) ∧
    ¬ BusErrorConditions 16 (req true 0x2FFC 2 0) := by
  unfold BusErrorConditions Mapped
  refine ⟨?_, ?_, ?_, ?_, ?_, ?_, ?_, ?_, ?_⟩ <;> decide

/-- BusyRejectsAccesses, and the BUSY clauses of the statements of CTRL and CMD writes. -/
theorem witness_busyRejects :
    let s := State.reset.accept 0
    let cmd := req true 0xC 2 0
    let srst := req true 4 2 3
    s.busy = true ∧ ¬ BusErrorConditions s.npoly (req false 0x800 2 0) ∧ 0x0800 ≤ (req false 0x800 2 0).addr.toNat ∧
    cmd.size = 2#2 ∧ cmd.addr = 0x000C#14 ∧ cmd.we = true ∧
    srst.size = 2#2 ∧ srst.addr = 0x0004#14 ∧ srst.we = true ∧ srst.wdata.getLsbD 1 = true := by
  unfold BusErrorConditions Mapped
  decide

/-- BufWindowIsLittleEndian: a write and a read of written bytes at BUF's two ends, with each size; an unwritten byte. -/
theorem witness_bufWindow :
    let s := filled 0 0
    s.busy = false ∧ (inFlight 0 0 0).busy = true ∧ (State.reset.busy = false ∧ State.reset.mem.read 0x800 = none) ∧
    [req true 0x800 2 5, req false 0x800 1 0, req true 0x97F 0 5, req false 0x97C 2 0].all (fun r =>
      r.size != 3#2 && r.addr.toNat % 2 ^ r.size.toNat == 0 && decide (0x0800 ≤ r.addr.toNat) &&
        decide (r.addr.toNat ≤ 0x0980 - 2 ^ r.size.toNat)) = true ∧
    (∀ j < 4, s.mem.read (0x97C + j) = some 0xFF) ∧ (∀ j < 2, s.mem.read (0x800 + j) = some 0xFF) := by
  refine ⟨rfl, rfl, ⟨rfl, rfl⟩, by decide, fun j hj => ?_, fun j hj => read_filled 0 0 (by omega)⟩
  rw [show 0x97C + j = 0x0800 + (380 + j) by omega]
  exact read_filled 0 0 (by omega)

/-- SlotWindowMovesCoefficients: halfwords and words at the first and last coefficients of slots 0 and 7. -/
theorem witness_slotWindow :
    let s := filled 1 2
    s.busy = false ∧ (inFlight 0 1 2).busy = true ∧ (7#4).toNat < s.npoly ∧
    (req false 0x1FFE 1 0).addr.toNat = 0x1000 + 0x200 * (7#4).toNat + 2 * 255 ∧
    (req true 0x1000 1 0).addr.toNat = 0x1000 + 0x200 * (0#4).toNat + 2 * 0 ∧
    (req false 0x1FFC 2 0).addr.toNat = 0x1000 + 0x200 * (7#4).toNat + 2 * 254 ∧ 254 % 2 = 0 ∧
    s.mem.coef 7 254 = some 1#16 ∧ s.mem.coef 7 255 = some 2#16 :=
  ⟨rfl, rfl, by decide, by decide, by decide, by decide, by decide, coef_filled 1 2 (by decide), coef_filled 1 2 (by decide)⟩

/-- RegistersReadAsTheirFields: each of the four registers. -/
theorem witness_registers :
    [(req true 0 2 0, 0x0000#14), (req false 0 2 0, 0x0000#14), (req false 4 2 0, 0x0004#14), (req false 8 2 0, 0x0008#14),
      (req false 0xC 2 0, 0x000C#14)].all (fun p => p.1.size == 2#2 && p.1.addr == p.2) = true := by decide

/-- CtrlWriteAndSoftReset: without SRST, and with it while idle (while BUSY: witness_busyRejects). -/
theorem witness_ctrlWrite : (req true 4 2 1).size = 2#2 ∧ (req true 4 2 1).addr = 0x0004#14 ∧ (req true 4 2 1).we = true ∧
    (req true 4 2 1).wdata.getLsbD 1 = false ∧ (req true 4 2 2).wdata.getLsbD 1 = true ∧ State.reset.busy = false := by decide

/-- StatusWriteOneClears: a STATUS write, after which a command in flight completes. -/
theorem witness_statusWrite :
    let s := State.reset.accept 0
    let r := req true 8 2 2
    r.size = 2#2 ∧ r.addr = 0x0008#14 ∧ r.we = true ∧ Instr.nop.wf s.npoly = true ∧
      (after (exec .nop (s.access r))).isSome = true := by decide

/-- CmdWriteAcceptsRefusesOrRaises: idle, with a legal and with an illegal word (while BUSY: witness_busyRejects). -/
theorem witness_cmdWrite : (req true 0xC 2 0).size = 2#2 ∧ (req true 0xC 2 0).addr = 0x000C#14 ∧ (req true 0xC 2 0).we = true ∧
    State.reset.busy = false ∧ decode State.reset.npoly (req true 0xC 2 0).wdata = .cmd .nop ∧
    decode State.reset.npoly (req true 0xC 2 0x7730).wdata = .cmd (.ntt 7 7) ∧
    decode State.reset.npoly (req true 0xC 2 0x0031).wdata = .cmd (.invntt 0 0) ∧
    decode State.reset.npoly (req true 0xC 2 0x77732).wdata = .cmd (.pmul 7 7 7) ∧
    decode State.reset.npoly (req true 0xC 2 0x0033).wdata = .cmd (.pmac 0 0 0) ∧
    (∀ i, decode State.reset.npoly (req true 0xC 2 6).wdata ≠ .cmd i) := by
  have h : decode State.reset.npoly (req true 0xC 2 6).wdata = .ill .undefinedOpc := by decide
  exact ⟨by decide, by decide, by decide, by decide, by decide, by decide, by decide, by decide, by decide,
    fun i hi => absurd (h.symm.trans hi) (by simp)⟩

/-- HardwareResetGivesTheResetState: a reset pulse during an NTT, and a host access and late answers while the line is
low. -/
theorem witness_hwReset : (waiting [.rst false, .rst true]).moves = .rst false :: .rst true :: [] ∧
    [Move.host (req false 0 2 0), .teDone, .bmRsp, .tbWrite 0 1, .complete].all (fun m =>
      let s := { State.reset with rstN := false, moves := [m] }
      !s.rstN && s.moves.head? != some (.rst true) && s.moves.head? != some (.rst false)) = true := by decide

/-- RequestsDependOnTheWordAlone: two blocks whose memories differ. -/
theorem witness_requests :
    let s := filled 1 2
    s.busy = false ∧ State.reset.busy = false ∧ s.slotsM1 = State.reset.slotsM1 ∧ s.collab = State.reset.collab ∧
    decode s.npoly 0x77732 = .cmd (.pmul 7 7 7) := ⟨rfl, rfl, rfl, rfl, by decide⟩

/-- The statements about every step, where the step answers a next state: one from the idle reset state, and one
(MemoryChangesOnlyByWriteCompletionOrReset) that changes memory. -/
theorem witness_steps : State.reset.mem.wf ∧ (after (step State.reset)).isSome = true ∧
    (after (step { State.reset with moves := [.host (req true 0x800 0 1)] })).map State.mem = some [(0x800, 1)] := by
  decide

/-- StepKeepsTheInvariant and FlagsChangeOnlyByTheirEvents: states with the invariant, and a schedule on which each of
BUSY, ILL, REJ and DONE rises. -/
theorem witness_inv : State.reset.Inv ∧
    [(req true 0xC 2 0, false), (req true 0xC 2 6, false)].all (fun p =>
      (after (step { State.reset with moves := [.host p.1] })).isSome) = true ∧
    ((after (step { State.reset with moves := [.host (req true 0xC 2 0)] })).map State.busy = some true) ∧
    ((after (step { State.reset with moves := [.host (req true 0xC 2 6)] })).map State.ill = some true) ∧
    ((after (step { State.reset.accept 0 with moves := [.host (req true 0xC 2 0)] })).map State.rej = some true) ∧
    ((after (step (State.reset.accept 0))).map State.done = some true) := by
  refine ⟨⟨List.Pairwise.nil, ?_, ?_, List.length_replicate, ⟨rfl, rfl⟩, fun h => Bool.noConfusion h⟩, by decide, by decide,
    by decide, by decide, by decide⟩
  · intro c hc
    exact absurd hc List.not_mem_nil
  · intro a _ _
    rfl

/-- FlagsChangeOnlyByTheirEvents: schedules on which DONE, ILL and REJ fall by a STATUS write, DONE by a soft reset, REJ
by rst_n, and BUSY by a completion. -/
theorem witness_flagsFall :
    let s := { State.reset with done := true, ill := true, rej := true }
    ((after (step { s with moves := [.host (req true 8 2 0xE)] })).map (fun t => (t.done, t.ill, t.rej)) =
      some (false, false, false)) ∧
    ((after (step { s with moves := [.host (req true 4 2 2)] })).map State.done = some false) ∧
    ((after (step { s with moves := [.rst false] })).map State.rej = some false) ∧
    ((after (step (State.reset.accept 0))).map State.busy = some false) := by decide

/-- The invariant holds of a block with a command in flight too. -/
theorem witness_inv_busy : (State.reset.accept 0).Inv := by
  refine ⟨List.Pairwise.nil, ?_, ?_, List.length_replicate, ?_, fun h => Bool.noConfusion h⟩
  · intro c hc
    exact absurd hc List.not_mem_nil
  · intro a _ _
    rfl
  · exact ⟨rfl, .nop, by decide, trivial⟩

end Sys2Proof.Tests
end

section
/-! The parameters of the machine (R7, R124, R243): the strap for NPOLY and the attached collaborators as one value,
kept by every host access, every command and every step. -/

namespace Sys2Proof.Machine

/-- What is fixed for a machine (R7): the strap for NPOLY and the attached collaborators. -/
def State.params (s : State) : Fin 16 × Collab := (s.slotsM1, s.collab)

theorem State.params_eq_iff {s t : State} : t.params = s.params ↔ t.slotsM1 = s.slotsM1 ∧ t.collab = s.collab :=
  Prod.mk_inj

/-! ### The updates commands and accesses are made of -/

@[simp] theorem State.respond_params (s : State) (data : Word) (err : Bool) :
    (s.respond data err).params = s.params := rfl
@[simp] theorem State.raiseIll_params (s : State) (w : Word) : (s.raiseIll w).params = s.params := rfl
@[simp] theorem State.raiseRej_params (s : State) : s.raiseRej.params = s.params := rfl
@[simp] theorem State.acknowledge_params (s : State) (v : Word) : (s.acknowledge v).params = s.params := rfl
@[simp] theorem State.toIdle_params (s : State) : s.toIdle.params = s.params := rfl
@[simp] theorem State.finish_params (s : State) : s.finish.params = s.params := rfl
@[simp] theorem State.dstPoly_params (s : State) (r : Slot) (cs : List (Option Coef)) :
    (s.dstPoly r cs).params = s.params := rfl
@[simp] theorem State.dstBuf_params (s : State) (bs : List (Option Byte)) : (s.dstBuf bs).params = s.params := rfl
@[simp] theorem State.tick_params (s : State) : s.tick.params = s.params := rfl

/-! ### Host accesses -/

@[simp] theorem State.windowWrite_params (s : State) (a n : Nat) (v : Word) :
    (s.windowWrite a n v).params = s.params := rfl

@[simp] theorem State.windowRead_params (s : State) (a n : Nat) : (s.windowRead a n).params = s.params := by
  obtain ⟨d, k, h⟩ := s.windowRead_eq a n
  rw [h]
  rfl

@[simp] theorem State.ctrlWrite_params (s : State) (v : Word) : (s.ctrlWrite v).params = s.params := by
  simp only [State.ctrlWrite]
  split_ifs <;> rfl

/-- A command's start changes TB and the pending request alone. -/
@[simp] theorem State.startExternal_params (s : State) (i : Instr) : (s.startExternal i).params = s.params := by
  obtain ⟨tb, ext, h, -⟩ := s.startExternal_eq i
  rw [h]
  rfl

@[simp] theorem State.cmdWrite_params (s : State) (w : Word) : (s.cmdWrite w).params = s.params := by
  obtain ⟨-, h⟩ | ⟨-, -, h⟩ | ⟨-, i, -, h⟩ := s.cmdWrite_cases w <;> rw [h]
  · exact s.raiseRej_params
  · exact s.raiseIll_params w
  · exact (s.accept w).startExternal_params i

@[simp] theorem State.registerWrite_params (s : State) (reg : Region) (v : Word) :
    (s.registerWrite reg v).params = s.params := by
  cases reg with
  | ctrl => exact s.ctrlWrite_params v
  | status => exact s.acknowledge_params v
  | cmd => exact s.cmdWrite_params v
  | _ => rfl

@[simp] theorem State.access_params (s : State) (r : BusReq) : (s.access r).params = s.params := by
  obtain ⟨-, h⟩ | ⟨reg, n, -, -, ⟨-, h⟩ | ⟨-, -, h⟩ | ⟨-, -, h⟩⟩ | ⟨reg, n, -, -, ⟨-, h⟩ | ⟨-, h⟩⟩ :=
    s.access_cases r <;> simp [h]

/-! ### Commands and the sequencer -/

theorem exec_params {i : Instr} {s t : State} (h : exec i s = .next t) : t.params = s.params := by
  obtain ⟨-, he⟩ | ⟨-, -, he⟩ | ⟨-, r, cs, tb, -, -, -, he⟩ | ⟨-, bs, -, he⟩ := exec_cases i s <;>
    obtain rfl := Host.Outcome.next.inj (he.symm.trans h)
  · simp
  · simp
  · rfl
  · simp

theorem State.sequence_params {s t : State} (h : s.sequence = .next t) : t.params = s.params := by
  obtain ⟨-, hs⟩ | ⟨-, i, -, hs⟩ | ⟨-, why, -, hs⟩ := s.sequence_cases
  · obtain rfl := Host.Outcome.next.inj (hs.symm.trans h)
    rfl
  · exact exec_params (hs.symm.trans h)
  · obtain rfl := Host.Outcome.next.inj (hs.symm.trans h)
    simp

/-! ### Answers of the engines and the reset line -/

@[simp] theorem State.teDone_params (s : State) : s.teDone.params = s.params := by
  obtain ⟨-, h⟩ | ⟨-, h⟩ := s.teDone_cases <;> rw [h]
  rfl

@[simp] theorem State.bmRsp_params (s : State) : s.bmRsp.params = s.params := by
  obtain ⟨_, _, _, -, h⟩ | ⟨_, -, -, h⟩ | ⟨-, h⟩ := s.bmRsp_cases <;> rw [h] <;> rfl

@[simp] theorem State.tbWrite_params (s : State) (k : BitVec 8) (v : Coef) : (s.tbWrite k v).params = s.params := by
  obtain ⟨-, h⟩ | ⟨-, h⟩ := s.tbWrite_cases k v <;> rw [h]
  rfl

/-- Neither level of rst_n changes the parameters (R240, R243). -/
@[simp] theorem State.setRst_params (s : State) (level : Bool) : (s.setRst level).params = s.params := by
  cases level <;> rfl

/-! ### The step -/

theorem step_params {s t : State} (h : step s = .next t) : t.params = s.params := by
  obtain ⟨-, -, hs⟩ | ⟨-, r, ms, -, rfl⟩ | ⟨-, -, rfl⟩ | ⟨-, -, rfl⟩ | ⟨-, k, v, -, rfl⟩ | ⟨level, -, rfl⟩ | ⟨-, rfl⟩ :=
    step_cases h
  · rw [State.sequence_params hs, State.tick_params]
  all_goals simp

/-- Settles O57: the case analysis of a step, each case of which keeps the parameters. -/
theorem stepKeepsTheParameters : Obligations.StepKeepsTheParameters := by
  intro s t h
  exact State.params_eq_iff.1 (step_params h)

end Sys2Proof.Machine
end

section
/-! The registers on the host port (R27 to R31, R52): where each stands, what an access to it does, and what the
host reads there. -/

namespace Sys2Proof.Machine

/-! ### Where a register stands -/

/-- The ID register is 0x0000..0x0003 (R51). -/
theorem region_eq_id {npoly a : Nat} : region npoly a = .id ↔ a < 0x0004 := by
  unfold region
  split_ifs <;> simp <;> omega

/-- The CTRL register is 0x0004..0x0007 (R51). -/
theorem region_eq_ctrl {npoly a : Nat} : region npoly a = .ctrl ↔ 0x0004 ≤ a ∧ a < 0x0008 := by
  unfold region
  split_ifs <;> simp <;> omega

/-- The STATUS register is 0x0008..0x000B (R51). -/
theorem region_eq_status {npoly a : Nat} : region npoly a = .status ↔ 0x0008 ≤ a ∧ a < 0x000C := by
  unfold region
  split_ifs <;> simp <;> omega

/-- The CMD register is 0x000C..0x000F (R51). -/
theorem region_eq_cmd {npoly a : Nat} : region npoly a = .cmd ↔ 0x000C ≤ a ∧ a < 0x0010 := by
  unfold region
  split_ifs <;> simp <;> omega

/-- The address of a register (R51); BUF, the slots and the gaps of the map have none. -/
def registerAddr : Region → Option (BitVec 14)
  | .id => some 0x0000#14
  | .ctrl => some 0x0004#14
  | .status => some 0x0008#14
  | .cmd => some 0x000C#14
  | .buf => none
  | .slot => none
  | .unmapped => none

/-- A register's address lies in its region, at a multiple of 4, and the region allows word accesses alone (R51). -/
theorem region_registerAddr {reg : Region} {a : BitVec 14} (npoly : Nat) (h : registerAddr reg = some a) :
    region npoly a.toNat = reg ∧ reg.allows 4 = true ∧ a.toNat % 4 = 0 ∧ ¬ (reg = .buf ∨ reg = .slot) := by
  cases reg <;> simp only [registerAddr, Option.some.injEq, reduceCtorEq] at h <;> subst h
  · exact ⟨region_eq_id.2 (by decide), rfl, rfl, by simp⟩
  · exact ⟨region_eq_ctrl.2 (by decide), rfl, rfl, by simp⟩
  · exact ⟨region_eq_status.2 (by decide), rfl, rfl, by simp⟩
  · exact ⟨region_eq_cmd.2 (by decide), rfl, rfl, by simp⟩

/-- A word access at a register's address is a legal access to that register (R56). -/
theorem BusReq.legal_of_registerAddr {r : BusReq} {reg : Region} (npoly : Nat) (hs : r.size = 2#2)
    (ha : registerAddr reg = some r.addr) : r.legal npoly = some (reg, 4) := by
  obtain ⟨hreg, h4, hal, -⟩ := region_registerAddr npoly ha
  simp [BusReq.legal, sizeBytes, hs, hreg, h4, hal]

theorem sizeBytes_eq_four : ∀ {size : BitVec 2}, sizeBytes size = some 4 → size = 2#2 := by decide

/-- A legal access outside the windows is a word access at a register's address (R51, R56). -/
theorem BusReq.registerAddr_of_legal {npoly n : Nat} {r : BusReq} {reg : Region}
    (h : r.legal npoly = some (reg, n)) (hreg : ¬ (reg = .buf ∨ reg = .slot)) :
    r.size = 2#2 ∧ registerAddr reg = some r.addr := by
  obtain ⟨hsz, hr, hal, hmod⟩ := BusReq.legal_some h
  have at_address {a : BitVec 14} (hn : n = 4) (h1 : a.toNat ≤ r.addr.toNat) (h2 : r.addr.toNat < a.toNat + 4)
      (ha : a.toNat % 4 = 0) : r.size = 2#2 ∧ some a = some r.addr := by
    subst hn
    exact ⟨sizeBytes_eq_four hsz, congrArg some (BitVec.eq_of_toNat_eq (by omega))⟩
  cases reg with
  | id => exact at_address (by simpa [Region.allows] using hal) (Nat.zero_le _) (region_eq_id.1 hr.symm) rfl
  | ctrl =>
    obtain ⟨h1, h2⟩ := region_eq_ctrl.1 hr.symm
    exact at_address (by simpa [Region.allows] using hal) h1 h2 rfl
  | status =>
    obtain ⟨h1, h2⟩ := region_eq_status.1 hr.symm
    exact at_address (by simpa [Region.allows] using hal) h1 h2 rfl
  | cmd =>
    obtain ⟨h1, h2⟩ := region_eq_cmd.1 hr.symm
    exact at_address (by simpa [Region.allows] using hal) h1 h2 rfl
  | buf => simp at hreg
  | slot => simp at hreg
  | unmapped => simp [Region.allows] at hal

/-! ### An access to a register -/

theorem State.access_register {s : State} {r : BusReq} {reg : Region} (hs : r.size = 2#2)
    (ha : registerAddr reg = some r.addr) : s.access r = s.registerAccess r reg := by
  obtain ⟨-, -, -, hreg⟩ := region_registerAddr s.npoly ha
  simp [State.access, BusReq.legal_of_registerAddr s.npoly hs ha, hreg]

/-- A register write is answered OK with data 0 (R33, R52). -/
theorem State.access_registerWrite {s : State} {r : BusReq} {reg : Region} (hs : r.size = 2#2)
    (ha : registerAddr reg = some r.addr) (hw : r.we = true) :
    s.access r = (s.registerWrite reg r.wdata).respond 0 false := by
  simp [State.access_register hs ha, State.registerAccess, hw]

/-- A register read is answered OK and changes nothing but the response (R52). -/
theorem State.access_registerRead {s : State} {r : BusReq} {reg : Region} (hs : r.size = 2#2)
    (ha : registerAddr reg = some r.addr) (hw : r.we = false) :
    s.access r = s.respond (s.registerRead reg) false := by
  simp [State.access_register hs ha, State.registerAccess, hw]

/-! ### The words of the registers -/

/-- The fields of ID (R27). -/
theorem State.idWord_fields (s : State) :
    s.idWord.extractLsb' 0 16 = 0x0D01#16 ∧ (s.idWord.extractLsb' 16 8).toNat = s.npoly ∧
      s.idWord.extractLsb' 24 8 = 0x01#8 := by
  have hn : (BitVec.ofNat 8 s.npoly).toNat = s.npoly := by
    have := s.npoly_le
    rw [BitVec.toNat_ofNat]
    omega
  unfold State.idWord
  refine ⟨BitVec.extractLsb'_append_eq_right, ?_, ?_⟩
  · rw [BitVec.extractLsb'_append_eq_of_le (by decide)]
    exact (congrArg BitVec.toNat BitVec.extractLsb'_append_eq_right).trans hn
  · rw [BitVec.extractLsb'_append_eq_of_le (by decide)]
    exact BitVec.extractLsb'_append_eq_left

/-- CTRL reads as IE (R28). -/
theorem State.toNat_ctrlWord (s : State) : s.ctrlWord.toNat = s.ie.toNat := by
  unfold State.ctrlWord
  cases s.ie <;> rfl

theorem toNat_statusBits : ∀ busy done ill rej : Bool,
    (0#28 ++ bit rej ++ bit ill ++ bit done ++ bit busy).toNat =
      busy.toNat + 2 * done.toNat + 4 * ill.toNat + 8 * rej.toNat := by
  decide

/-- STATUS reads as its four flags (R29). -/
theorem State.toNat_statusWord (s : State) :
    s.statusWord.toNat = s.busy.toNat + 2 * s.done.toNat + 4 * s.ill.toNat + 8 * s.rej.toNat :=
  toNat_statusBits s.busy s.done s.ill s.rej

/-- Settles O49: a read of a register answers its word, whose fields are the register's. -/
theorem registersReadAsTheirFields : Obligations.RegistersReadAsTheirFields := by
  intro s r hs
  refine ⟨fun ha => ⟨fun hw => ?_, fun hw => ?_⟩, fun hw ha => ?_, fun hw ha => ?_, fun hw ha => ?_⟩
  · exact State.access_registerWrite (reg := .id) hs (congrArg some ha.symm) hw
  · exact ⟨s.idWord, State.access_registerRead (reg := .id) hs (congrArg some ha.symm) hw, s.idWord_fields⟩
  · exact ⟨s.ctrlWord, State.access_registerRead (reg := .ctrl) hs (congrArg some ha.symm) hw, s.toNat_ctrlWord⟩
  · exact ⟨s.statusWord, State.access_registerRead (reg := .status) hs (congrArg some ha.symm) hw, s.toNat_statusWord⟩
  · exact State.access_registerRead (reg := .cmd) hs (congrArg some ha.symm) hw

end Sys2Proof.Machine
end

section
/-! What a completed command leaves: DONE (R103), and its whole result range written (R35, R59). -/

namespace Sys2Proof.Machine

/-- A command the block has leaves the flags of a completion, ILL and REJ as they were (R103). -/
theorem exec_flags_of_wf {i : Instr} {s t : State} (hw : i.wf s.npoly = true) (h : exec i s = .next t) :
    t.busy = false ∧ t.done = true ∧ t.ill = s.ill ∧ t.rej = s.rej := by
  obtain ⟨hf, -⟩ | ⟨-, -, he⟩ | ⟨-, r, cs, tb, -, -, -, he⟩ | ⟨-, bs, -, he⟩ := exec_cases i s
  · simp [hw] at hf
  all_goals
    obtain rfl := Host.Outcome.next.inj (he.symm.trans h)
    exact ⟨rfl, rfl, rfl, rfl⟩

/-- Settles O51: a STATUS write is the acknowledgement of its bits, and a completion sets DONE whatever it was. -/
theorem statusWriteOneClears : Obligations.StatusWriteOneClears := by
  intro s r hs ha hw
  have hacc : s.access r = (s.acknowledge r.wdata).respond 0 false :=
    State.access_registerWrite (reg := .status) hs (congrArg some ha.symm) hw
  rw [hacc]
  refine ⟨rfl, rfl, fun i t hwf h => ?_⟩
  obtain ⟨-, hdone, -⟩ := exec_flags_of_wf (by simpa using hwf) h
  exact hdone

/-- The command's results are a run of n bytes from a on, written whole from a state in which TB alone may have
changed, and it completes (R101, R103). -/
def CompletesWithRun (o : Host.Outcome State Fault Refusal) (s : State) (a n : Nat) : Prop :=
  ∃ (bs : List (Option Byte)) (tb : List (Option Coef)), bs.length = n ∧
    o = .next (State.writeResult a bs { s with tb := tb }).finish

theorem State.dstPoly_completesWithRun (s : State) (r : Slot) (tb : List (Option Coef)) {cs : List (Option Coef)}
    (hl : cs.length = 256) :
    CompletesWithRun (.next (State.dstPoly { s with tb := tb } r cs).finish) s (slotBase r.toNat) 512 :=
  ⟨coefBytes cs, tb, by simp [hl], rfl⟩

theorem State.command_dstPoly_completesWithRun {i : Instr} {s : State} (hw : i.wf s.npoly = true) (r : Slot)
    (f : State → List (Option Coef)) (hl : (f s).length = 256) :
    CompletesWithRun (s.command i fun s => s.dstPoly r (f s)) s (slotBase r.toNat) 512 := by
  rw [State.command_dstPoly hw]
  exact s.dstPoly_completesWithRun r s.tb hl

theorem State.command_dstBuf_completesWithRun {i : Instr} {s : State} (hw : i.wf s.npoly = true) {n : Nat}
    (f : State → List (Option Byte)) (hl : (f s).length = n) :
    CompletesWithRun (s.command i fun s => s.dstBuf (f s)) s bufBase n :=
  ⟨f s, s.tb, hl, State.command_dstBuf hw f⟩

/-- Every command of the block that has a result range completes with a run of bytes that fills it (R59). -/
theorem exec_completesWithRun {i : Instr} {s : State} {a n : Nat} (hw : i.wf s.npoly = true)
    (hr : resultRange i = some (a, n)) : CompletesWithRun (exec i s) s a n := by
  cases i <;> simp only [resultRange, Option.some.injEq, Prod.mk.injEq, reduceCtorEq] at hr <;> obtain ⟨rfl, rfl⟩ := hr
  case tobytes rs1 =>
    rw [exec, execTobytes]
    exact State.command_dstBuf_completesWithRun hw _ (by simp [length_packBytes])
  case compress rs1 =>
    rw [exec, execCompress]
    exact State.command_dstBuf_completesWithRun hw _ (by simp [length_compressBytes])
  case tomsg rs1 =>
    rw [exec, execTomsg]
    exact State.command_dstBuf_completesWithRun hw _ (by simp [length_messageBytes])
  case frombytes rd =>
    rw [exec, execFrombytes]
    exact State.command_dstPoly_completesWithRun hw rd _ (by simp [length_unpackBytes])
  case decompress rd =>
    rw [exec, execDecompress]
    exact State.command_dstPoly_completesWithRun hw rd _ (by simp [length_decompressBytes])
  case frommsg rd =>
    rw [exec, execFrommsg]
    exact State.command_dstPoly_completesWithRun hw rd _ (by simp [length_messageCoefs])
  case ntt rd rs1 =>
    rw [exec_ntt_of_wf hw]
    exact s.dstPoly_completesWithRun rd _ (by rw [List.length_map, length_tb_transform])
  case invntt rd rs1 =>
    rw [exec_invntt_of_wf hw]
    exact s.dstPoly_completesWithRun rd _ (length_tb_transform s rs1 .inverse)
  all_goals
    simp only [exec, execPmul, State.pmulWith, execPmac, State.pmacWith, execFrommont, execReduce, execCsubq, execAdd,
      execSub]
    exact State.command_dstPoly_completesWithRun hw _ _ (by simp)

/-- Every byte of a written run is written (R35). -/
theorem Memory.isSome_read_writeRun {m : Memory} {base a : Nat} {bs : List Byte}
    (h : base ≤ a ∧ a < base + bs.length) : ((m.writeRun base bs).read a).isSome = true := by
  rw [Memory.read_writeRun, if_pos h, List.getElem?_eq_getElem (by omega)]
  rfl

/-- Settles O41: the result range is the run of bytes the command writes, filled where its inputs were unwritten. -/
theorem resultsAreWritten : Obligations.ResultsAreWritten := by
  intro i s t a n hw h hr k h1 h2
  obtain ⟨bs, tb, hl, he⟩ := exec_completesWithRun hw hr
  obtain rfl := Host.Outcome.next.inj (he.symm.trans h)
  exact Memory.isSome_read_writeRun ⟨h1, by simpa [hl] using h2⟩

end Sys2Proof.Machine
end

section
/-! What the next step runs, and the invariant at reset (R25, R34, R100). -/

namespace Sys2Proof.Machine

/-- With a completion next, or no move scheduled, the sequencer goes on (R251). -/
theorem step_eq_sequence {s : State} (hr : s.rstN = true) (hm : s.moves = [] ∨ s.moves.head? = some .complete) :
    step s = s.tick.sequence := by
  unfold step State.advance
  cases hms : s.moves with
  | nil => simp [hr]
  | cons m ms =>
    obtain rfl : m = .complete := by simpa [hms] using hm
    simp [hr, State.move]

/-- The sequencer executes the command of a due word (R25, R104). -/
theorem State.sequence_of_due {s : State} {i : Instr} (hd : s.due = true) (hi : decodeWord s.cmdr = .cmd i) :
    s.sequence = exec i s := by
  simp [State.sequence, hd, hi]

theorem tableWord_toNat (w : Word) : tableWord 32 w.toNat = w := by
  rw [tableWord, Nat.mod_eq_of_lt w.isLt, BitVec.ofNat_toNat, BitVec.setWidth_eq]

/-- withFetchWord leaves a completion next, or no move. -/
theorem State.withFetchWord_moves (s : State) (n w : Nat) :
    ((s.withFetchWord n w).moves = [] ∨ (s.withFetchWord n w).moves.head? = some .complete) ∧
      (s.withFetchWord n w).moves.tail = s.moves := by
  unfold State.withFetchWord
  cases s.moves <;> simp

/-- The state the sequencer sees after withFetchWord: the accepted command due, on the schedule as it was. -/
theorem State.withFetchWord_tick (s : State) (w : Word) :
    (s.withFetchWord 32 w.toNat).tick =
      { s with cmdr := w, snap := s.mem, busy := true, ext := .none, rstN := true, rsp := none } := by
  obtain ⟨-, hm⟩ := s.withFetchWord_moves 32 w.toNat
  rw [State.tick, hm]
  simp [State.withFetchWord, State.accept, tableWord_toNat]

/-- Settles O8: the placed word's command is due and its completion is next. -/
theorem fetchWordRunsNext : Obligations.FetchWordRunsNext := by
  intro s w i hi
  obtain ⟨hm, -⟩ := s.withFetchWord_moves 32 w.toNat
  rw [step_eq_sequence rfl hm, s.withFetchWord_tick w]
  exact State.sequence_of_due rfl hi

/-- Settles O54: the block after reset has nothing written, nothing in flight and its reset values. -/
theorem invariantHoldsAtReset : Obligations.InvariantHoldsAtReset := by
  have hmap : Memory.inMap State.reset.npoly [] := fun c hc => absurd hc List.not_mem_nil
  have hwhole : Memory.wholeCoefs [] := fun _ _ _ => rfl
  have hidle : State.reset.inFlightFits := ⟨rfl, rfl⟩
  exact ⟨List.Pairwise.nil, hmap, hwhole, List.length_replicate, hidle, fun h => Bool.noConfusion h⟩

end Sys2Proof.Machine
end

section
/-! The STATUS flags over a step (R29, R215, R220): everything that can become of the four flags, each case with its
event. -/

namespace Sys2Proof.Machine

/-- The four flags of STATUS (R29). -/
structure Flags where
  busy : Bool
  done : Bool
  ill : Bool
  rej : Bool

/-- The flags as they stand. -/
def State.flags (s : State) : Flags := ⟨s.busy, s.done, s.ill, s.rej⟩

@[simp] theorem State.flags_busy (s : State) : s.flags.busy = s.busy := rfl
@[simp] theorem State.flags_done (s : State) : s.flags.done = s.done := rfl
@[simp] theorem State.flags_ill (s : State) : s.flags.ill = s.ill := rfl
@[simp] theorem State.flags_rej (s : State) : s.flags.rej = s.rej := rfl

/-- What a host access makes of the flags f in a block with NPOLY slots. -/
inductive HostFlags (npoly : Nat) (r : BusReq) (f : Flags) : Flags → Prop
  | kept : HostFlags npoly r f f
  /-- REJ (R57, R212) -/
  | refused (hb : f.busy = true) : HostFlags npoly r f { f with rej := true }
  /-- a soft reset (R241) -/
  | softReset (hb : f.busy = false) (hw : r.we = true) (hs : r.size = 2#2) (ha : r.addr = 0x0004#14)
      (hbit : r.wdata.getLsbD 1 = true) : HostFlags npoly r f ⟨f.busy, false, false, false⟩
  /-- write-1-to-clear (R29, R217) -/
  | cleared (hw : r.we = true) (hs : r.size = 2#2) (ha : r.addr = 0x0008#14) :
      HostFlags npoly r f ⟨f.busy, w1c f.done (r.wdata.getLsbD 1), w1c f.ill (r.wdata.getLsbD 2),
        w1c f.rej (r.wdata.getLsbD 3)⟩
  /-- a command accepted (R100) -/
  | accepted (hb : f.busy = false) (hw : r.we = true) (ha : r.addr = 0x000C#14) (i : Instr)
      (hi : decode npoly r.wdata = .cmd i) : HostFlags npoly r f { f with busy := true }
  /-- ILL (R211) -/
  | illegal (hb : f.busy = false) (hw : r.we = true) (ha : r.addr = 0x000C#14)
      (hi : ∀ i, decode npoly r.wdata ≠ .cmd i) : HostFlags npoly r f { f with ill := true }

/-- The cases of a CTRL write (R28, R241). -/
theorem State.ctrlWrite_cases (s : State) (v : Word) :
    (v.getLsbD 1 = false ∧ s.ctrlWrite v = { s with ie := v.getLsbD 0 }) ∨
    (v.getLsbD 1 = true ∧ s.busy = true ∧ s.ctrlWrite v = State.raiseRej { s with ie := v.getLsbD 0 }) ∨
    (v.getLsbD 1 = true ∧ s.busy = false ∧ s.ctrlWrite v = State.softReset { s with ie := v.getLsbD 0 }) := by
  unfold State.ctrlWrite
  cases v.getLsbD 1 <;> cases s.busy <;> simp

/-- A register write is one of the events of HostFlags: CTRL, STATUS and CMD each have theirs, ID has none (R52). -/
theorem State.registerWrite_hostFlags {s : State} {r : BusReq} {reg : Region} (hw : r.we = true) (hs : r.size = 2#2)
    (ha : registerAddr reg = some r.addr) : HostFlags s.npoly r s.flags (s.registerWrite reg r.wdata).flags := by
  cases reg <;> simp only [registerAddr, Option.some.injEq, reduceCtorEq] at ha
  case id => exact .kept
  case ctrl =>
    obtain ⟨-, h⟩ | ⟨-, hb, h⟩ | ⟨hbit, hb, h⟩ := s.ctrlWrite_cases r.wdata <;> rw [State.registerWrite, h]
    · exact .kept
    · exact .refused hb
    · exact .softReset hb hw hs ha.symm hbit
  case status => exact .cleared hw hs ha.symm
  case cmd =>
    obtain ⟨hb, h⟩ | ⟨hb, hi, h⟩ | ⟨hb, i, hi, h⟩ := s.cmdWrite_cases r.wdata <;> rw [State.registerWrite, h]
    · exact .refused hb
    · exact .illegal hb hw ha.symm hi
    · obtain ⟨tb, ext, hx, -⟩ := (s.accept r.wdata).startExternal_eq i
      rw [hx]
      exact .accepted hb hw ha.symm i hi

/-- Every host access is one of the events of HostFlags (R61). -/
theorem State.access_hostFlags (s : State) (r : BusReq) : HostFlags s.npoly r s.flags (s.access r).flags := by
  obtain ⟨-, h⟩ | ⟨reg, n, -, -, ⟨hb, h⟩ | ⟨-, -, h⟩ | ⟨-, -, h⟩⟩ | ⟨reg, n, hl, hreg, ⟨hw, h⟩ | ⟨-, h⟩⟩ :=
    s.access_cases r <;> rw [h]
  · exact .kept
  · exact .refused hb
  · exact .kept
  · obtain ⟨d, k, hk⟩ := s.windowRead_eq r.addr.toNat n
    rw [hk]
    exact .kept
  · obtain ⟨hs, ha⟩ := BusReq.registerAddr_of_legal hl hreg
    exact State.registerWrite_hostFlags hw hs ha
  · exact .kept

/-- What a step makes of the flags. -/
inductive StepFlags (s : State) : Flags → Prop
  | kept : StepFlags s s.flags
  /-- a completion (R103) -/
  | completed (hd : s.due = true) (hm : s.moves = [] ∨ s.moves.head? = some .complete) :
      StepFlags s ⟨false, true, s.ill, s.rej⟩
  /-- rst_n low (R240) -/
  | reset (hm : s.moves.head? = some (.rst false)) : StepFlags s ⟨false, false, false, false⟩
  /-- a host access (R61) -/
  | host (r : BusReq) (ms : List Move) (hm : s.moves = .host r :: ms) {f : Flags} (hf : HostFlags s.npoly r s.flags f) :
      StepFlags s f

/-- While BUSY the word in flight is a legal one (R25, R84). -/
theorem State.Inv.decode_cmdr {s : State} (h : s.Inv) (hb : s.busy = true) :
    ∃ i, decode s.npoly s.cmdr = .cmd i := by
  obtain ⟨-, -, -, -, hfit, -⟩ := h
  rw [State.inFlightFits, if_pos hb] at hfit
  obtain ⟨-, i, hi, -⟩ := hfit
  exact ⟨i, hi⟩

/-- With a legal word in flight, the sequencer leaves the state alone or completes a due command (R103, R104). -/
theorem State.sequence_flags {s t : State} (hlegal : s.busy = true → ∃ i, decode s.npoly s.cmdr = .cmd i)
    (h : s.sequence = .next t) :
    t = s ∨ (s.due = true ∧ t.flags = ⟨false, true, s.ill, s.rej⟩) := by
  obtain ⟨-, hs⟩ | ⟨hd, i, hc, hs⟩ | ⟨hd, why, hc, hs⟩ := s.sequence_cases
  · exact .inl (Host.Outcome.next.inj (h.symm.trans hs))
  all_goals
    obtain ⟨j, hj⟩ := hlegal (s.due_iff.1 hd).1
    obtain ⟨hj, hw⟩ := decode_eq_cmd_iff.1 hj
    rw [hc] at hj
  · obtain rfl := Decoded.cmd.inj hj
    obtain ⟨hb, hdone, hill, hrej⟩ := exec_flags_of_wf hw (hs.symm.trans h)
    exact .inr ⟨hd, by rw [State.flags, hb, hdone, hill, hrej]⟩
  · cases hj

/-- Every step from a state with the invariant is one of the events of StepFlags. -/
theorem step_flags {s t : State} (hi : s.Inv) (h : step s = .next t) : StepFlags s t.flags := by
  obtain ⟨-, hm, hs⟩ | ⟨-, r, ms, hm, rfl⟩ | ⟨-, -, rfl⟩ | ⟨-, -, rfl⟩ | ⟨-, k, v, -, rfl⟩ | ⟨level, hm, rfl⟩ | ⟨-, rfl⟩ :=
    step_cases h
  · obtain rfl | ⟨hd, hf⟩ := State.sequence_flags (s := s.tick) hi.decode_cmdr hs
    · exact .kept
    · rw [hf]
      exact .completed hd hm
  · exact .host r ms hm (s.tick.access_hostFlags r)
  · obtain ⟨-, ht⟩ | ⟨-, ht⟩ := s.tick.teDone_cases <;> rw [ht] <;> exact .kept
  · obtain ⟨_, _, _, -, ht⟩ | ⟨_, -, -, ht⟩ | ⟨-, ht⟩ := s.tick.bmRsp_cases <;> rw [ht] <;> exact .kept
  · obtain ⟨-, ht⟩ | ⟨-, ht⟩ := s.tick.tbWrite_cases k v <;> rw [ht] <;> exact .kept
  · cases level with
    | true => exact .kept
    | false => exact .reset hm
  · exact .kept

/-- Settles O58: the cases of what a step makes of the flags, each of which moves a flag by its own event alone. -/
theorem flagsChangeOnlyByTheirEvents : Obligations.FlagsChangeOnlyByTheirEvents := by
  intro s t hi h
  obtain ⟨f, hf, hbusy, hdone, hill, hrej⟩ :
      ∃ f, StepFlags s f ∧ t.busy = f.busy ∧ t.done = f.done ∧ t.ill = f.ill ∧ t.rej = f.rej :=
    ⟨t.flags, step_flags hi h, rfl, rfl, rfl, rfl⟩
  rw [hbusy, hdone, hill, hrej]
  cases hf with
  | kept => simp +contextual
  | completed hd hm => simp +contextual [hd, hm]
  | reset hm => simp [ClearsFlag, hm]
  | host r ms hm hf =>
    cases hf with
    | kept => simp +contextual
    | refused hb =>
      rw [State.flags_busy] at hb
      simp +contextual [hb, hm]
    | softReset hb hw hs ha hbit =>
      have hclear (k : Nat) : ClearsFlag s k := .inr ⟨r, ms, hm, hw, hs, .inr ⟨ha, hbit, hb⟩⟩
      simp +contextual [hclear]
    | cleared hw hs ha =>
      have hclear (k : Nat) (hbit : r.wdata.getLsbD k = true) : ClearsFlag s k :=
        .inr ⟨r, ms, hm, hw, hs, .inl ⟨ha, hbit⟩⟩
      simp +contextual [w1c, hclear]
    | accepted hb hw ha i hi =>
      rw [State.flags_busy] at hb
      simp +contextual [hb, hm, hw, ha, hi]
    | illegal hb hw ha hi =>
      rw [State.flags_busy] at hb
      simp +contextual [hb, hm, hw, ha, hi]

end Sys2Proof.Machine
end

section
/-! The memory over a step (R50, R51, R58, R62, R101): which runs of bytes are ever written, what such a write keeps,
and everything that can become of the memory, each case with its event. -/

namespace Sys2Proof.Machine

/-! ### The runs the block writes -/

/-- n bytes from a on lie inside BUF, or are whole coefficients inside the slots (R51, R54, R59). -/
def FitsMap (npoly a n : Nat) : Prop :=
  (0x0800 ≤ a ∧ a + n ≤ 0x0980) ∨
    (0x1000 ≤ a ∧ a + n ≤ 0x1000 + 0x200 * npoly ∧ a % 2 = 0 ∧ n % 2 = 0)

/-- What a command or a host access leaves of the memory m: m itself, or m with one run of bytes written. -/
inductive FitWrite (npoly : Nat) (m : Memory) : Memory → Prop
  | none : FitWrite npoly m m
  | run (a : Nat) (bs : List Byte) (hfit : FitsMap npoly a bs.length) : FitWrite npoly m (m.writeRun a bs)

theorem FitWrite.wf {npoly : Nat} {m n : Memory} (h : FitWrite npoly m n) (hm : m.wf) : n.wf := by
  cases h with
  | none => exact hm
  | run a bs hfit => exact Memory.wf_writeRun hm a bs

/-- A byte of a fitting run lies in BUF or in a slot (R51). -/
theorem region_of_fitsMap {npoly a n k : Nat} (hfit : FitsMap npoly a n) (hk : a ≤ k ∧ k < a + n) :
    region npoly k = .buf ∨ region npoly k = .slot := by
  obtain ⟨h1, h2⟩ | ⟨h1, h2, -, -⟩ := hfit
  · exact .inl (region_eq_buf.2 (by omega))
  · exact .inr (region_eq_slot.2 (by omega))

theorem FitWrite.inMap {npoly : Nat} {m n : Memory} (h : FitWrite npoly m n) (hm : m.inMap npoly) :
    n.inMap npoly := by
  cases h with
  | none => exact hm
  | run a bs hfit =>
    intro c hc
    obtain hnew | hold := Memory.mem_writeRun hc
    · exact region_of_fitsMap hfit hnew
    · exact hm c hold

/-- A fitting run has both bytes of a coefficient or neither (R54). -/
theorem FitsMap.both_bytes {npoly a n k : Nat} (hfit : FitsMap npoly a n) (h1 : 0x1000 ≤ k) (h2 : k % 2 = 0) :
    (a ≤ k ∧ k < a + n) ↔ (a ≤ k + 1 ∧ k + 1 < a + n) := by
  unfold FitsMap at hfit
  omega

theorem FitWrite.wholeCoefs {npoly : Nat} {m n : Memory} (h : FitWrite npoly m n) (hm : m.wholeCoefs) :
    n.wholeCoefs := by
  cases h with
  | none => exact hm
  | run a bs hfit =>
    intro k h1 h2
    have hboth := hfit.both_bytes h1 h2
    by_cases hk : a ≤ k ∧ k < a + bs.length
    · rw [Memory.isSome_read_writeRun hk, Memory.isSome_read_writeRun (hboth.1 hk)]
    · rw [Memory.read_writeRun_outside hk, Memory.read_writeRun_outside fun hk' => hk (hboth.2 hk')]
      exact hm k h1 h2

/-! ### The runs of host writes -/

/-- A legal window access is to bytes of BUF or to whole coefficients of a slot (R51, R53, R54). -/
theorem BusReq.fitsMap_of_legal {npoly n : Nat} {r : BusReq} {reg : Region} (h : r.legal npoly = some (reg, n))
    (hreg : reg = .buf ∨ reg = .slot) : FitsMap npoly r.addr.toNat n := by
  obtain ⟨-, hr, hal, hmod⟩ := BusReq.legal_some h
  obtain rfl | rfl := hreg
  · have := region_eq_buf.1 hr.symm
    have hn : n = 1 ∨ n = 2 ∨ n = 4 := by simpa [Region.allows, or_assoc] using hal
    unfold FitsMap
    obtain rfl | rfl | rfl := hn <;> omega
  · have := region_eq_slot.1 hr.symm
    have hn : n = 2 ∨ n = 4 := by simpa [Region.allows] using hal
    unfold FitsMap
    obtain rfl | rfl := hn <;> omega

/-- A write to a register leaves the memory alone (R52). -/
@[simp] theorem State.registerWrite_mem (s : State) (reg : Region) (v : Word) : (s.registerWrite reg v).mem = s.mem := by
  cases reg with
  | ctrl =>
    obtain ⟨-, h⟩ | ⟨-, -, h⟩ | ⟨-, -, h⟩ := s.ctrlWrite_cases v <;> rw [State.registerWrite, h] <;> rfl
  | cmd =>
    rw [State.registerWrite]
    obtain ⟨-, h⟩ | ⟨-, -, h⟩ | ⟨-, i, -, h⟩ := s.cmdWrite_cases v <;> rw [h]
    · rfl
    · rfl
    · obtain ⟨tb, ext, hx, -⟩ := (s.accept v).startExternal_eq i
      rw [hx]
      rfl
  | _ => rfl

/-- A host access changes the memory only by a window write while idle (R57). -/
theorem State.access_mem (s : State) (r : BusReq) :
    (s.access r).mem = s.mem ∨
      (s.busy = false ∧ r.we = true ∧ 0x0800 ≤ r.addr.toNat ∧ FitWrite s.npoly s.mem (s.access r).mem) := by
  obtain ⟨-, h⟩ | ⟨reg, n, hl, hreg, ⟨-, h⟩ | ⟨hb, hw, h⟩ | ⟨-, -, h⟩⟩ | ⟨reg, n, -, -, ⟨-, h⟩ | ⟨-, h⟩⟩ :=
    s.access_cases r <;> rw [h]
  · exact .inl rfl
  · exact .inl rfl
  · have hfit := BusReq.fitsMap_of_legal hl hreg
    have haddr : 0x0800 ≤ r.addr.toNat := by unfold FitsMap at hfit; omega
    exact .inr ⟨hb, hw, haddr, .run _ _ (by simpa using hfit)⟩
  · obtain ⟨d, k, hk⟩ := s.windowRead_eq r.addr.toNat n
    exact .inl (by rw [hk])
  · exact .inl (s.registerWrite_mem reg r.wdata)
  · exact .inl rfl

/-! ### The runs of commands -/

/-- A command of the block names slots it has (R84). -/
theorem Instr.slot_lt_of_wf {i : Instr} {npoly : Nat} {r : Slot} (hw : i.wf npoly = true) (hr : r ∈ i.slots) :
    r.toNat < npoly := by
  simpa using List.all_eq_true.1 hw r hr

/-- A command the block has completes, with one fitting run of result bytes written or none, and nothing else changed
but TB and the index of free values (R59, R101, R103). -/
theorem exec_of_wf {i : Instr} {s t : State} (hw : i.wf s.npoly = true) (h : exec i s = .next t) :
    ∃ m tb k, FitWrite s.npoly s.mem m ∧ (tb = s.tb ∨ tb.length = 256) ∧
      t = State.finish { s with mem := m, tb := tb, freeIx := k } := by
  obtain ⟨hf, -⟩ | ⟨-, -, he⟩ | ⟨-, r, cs, tb, hr, hl, htb, he⟩ | ⟨-, bs, hl, he⟩ := exec_cases i s
  · simp [hw] at hf
  all_goals obtain rfl := Host.Outcome.next.inj (he.symm.trans h)
  · exact ⟨s.mem, s.tb, s.freeIx, .none, .inl rfl, rfl⟩
  · have hslot := Instr.slot_lt_of_wf hw hr
    exact ⟨_, tb, _, .run (slotBase r.toNat) _ (by simp [FitsMap, hl, slotBase]; omega), htb, rfl⟩
  · exact ⟨_, s.tb, _, .run bufBase _ (by simp [FitsMap, bufBase]; omega), .inl rfl, rfl⟩

/-- Only a due command changes the memory (R62, R101). -/
theorem State.sequence_mem {s t : State} (h : s.sequence = .next t) :
    t.mem = s.mem ∨ (s.due = true ∧ FitWrite s.npoly s.mem t.mem) := by
  obtain ⟨-, hs⟩ | ⟨hd, i, -, hs⟩ | ⟨-, why, -, hs⟩ := s.sequence_cases
  · exact .inl (by rw [Host.Outcome.next.inj (h.symm.trans hs)])
  · have he := hs.symm.trans h
    cases hw : i.wf s.npoly with
    | true =>
      obtain ⟨m, tb, k, hm, -, rfl⟩ := exec_of_wf hw he
      exact .inr ⟨hd, hm⟩
    | false =>
      obtain ⟨-, hi⟩ | ⟨hf, -⟩ | ⟨hf, -⟩ | ⟨hf, -⟩ := exec_cases i s
      · exact .inl (by rw [Host.Outcome.next.inj (he.symm.trans hi)]; rfl)
      all_goals simp [hw] at hf
  · exact .inl (by rw [Host.Outcome.next.inj (h.symm.trans hs)]; rfl)

/-! ### The memory over a step -/

@[simp] theorem State.teDone_mem (s : State) : s.teDone.mem = s.mem := by
  obtain ⟨-, h⟩ | ⟨-, h⟩ := s.teDone_cases <;> rw [h]

@[simp] theorem State.bmRsp_mem (s : State) : s.bmRsp.mem = s.mem := by
  obtain ⟨_, _, _, -, h⟩ | ⟨_, -, -, h⟩ | ⟨-, h⟩ := s.bmRsp_cases <;> rw [h]

@[simp] theorem State.tbWrite_mem (s : State) (k : BitVec 8) (v : Coef) : (s.tbWrite k v).mem = s.mem := by
  obtain ⟨-, h⟩ | ⟨-, h⟩ := s.tbWrite_cases k v <;> rw [h]

/-- What a step from s to t makes of the memory. -/
inductive StepMemory (s t : State) : Prop
  | kept (h : t.mem = s.mem)
  /-- a host write while idle (R57, R58) -/
  | hostWrite (r : BusReq) (ms : List Move) (hm : s.moves = .host r :: ms) (hw : r.we = true) (hb : s.busy = false)
      (ha : 0x0800 ≤ r.addr.toNat) (hfit : FitWrite s.npoly s.mem t.mem)
  /-- a completion's results (R101) -/
  | completed (hd : s.due = true) (hm : s.moves = [] ∨ s.moves.head? = some .complete)
      (hfit : FitWrite s.npoly s.mem t.mem)
  /-- rst_n low (R240) -/
  | reset (hm : s.moves.head? = some (.rst false)) (h : t.mem = [])

/-- Every step is one of the events of StepMemory. -/
theorem step_memory {s t : State} (h : step s = .next t) : StepMemory s t := by
  obtain ⟨-, hm, hs⟩ | ⟨-, r, ms, hm, rfl⟩ | ⟨-, -, rfl⟩ | ⟨-, -, rfl⟩ | ⟨-, k, v, -, rfl⟩ | ⟨level, hm, rfl⟩ | ⟨-, rfl⟩ :=
    step_cases h
  · obtain hkept | ⟨hd, hfit⟩ := State.sequence_mem hs
    · exact .kept hkept
    · exact .completed hd hm hfit
  · obtain hkept | ⟨hb, hw, ha, hfit⟩ := s.tick.access_mem r
    · exact .kept hkept
    · exact .hostWrite r ms hm hw hb ha hfit
  · exact .kept s.tick.teDone_mem
  · exact .kept s.tick.bmRsp_mem
  · exact .kept (s.tick.tbWrite_mem k v)
  · cases level with
    | true => exact .kept rfl
    | false => exact .reset hm rfl
  · exact .kept rfl

/-- The memory after a step is the old one with at most one fitting run written, or empty. -/
theorem step_fitWrite {s t : State} (h : step s = .next t) : FitWrite s.npoly s.mem t.mem ∨ t.mem = [] := by
  cases step_memory h with
  | kept hkept => exact .inl (hkept ▸ .none)
  | hostWrite r ms _ _ _ _ hfit => exact .inl hfit
  | completed _ _ hfit => exact .inl hfit
  | reset _ hnil => exact .inr hnil

/-- Settles O56: a run written into a canonical memory leaves it canonical. -/
theorem stepKeepsMemoryCanonical : Obligations.StepKeepsMemoryCanonical := by
  intro s t hm h
  obtain hfit | hnil := step_fitWrite h
  · exact hfit.wf hm
  · rw [hnil]
    exact List.Pairwise.nil

/-- Settles O59: the events of StepMemory, but for the case that keeps the memory. -/
theorem memoryChangesOnlyByWriteCompletionOrReset : Obligations.MemoryChangesOnlyByWriteCompletionOrReset := by
  intro s t h hne
  cases step_memory h with
  | kept hkept => exact absurd hkept hne
  | hostWrite r ms hm hw hb ha _ => exact .inl ⟨r, ms, hm, hw, hb, ha⟩
  | completed hd hm _ => exact .inr (.inl ⟨hd, hm⟩)
  | reset hm _ => exact .inr (.inr hm)

end Sys2Proof.Machine
end

section
/-! The command in flight over a step (R25, R62, R100 to R104, R240), and the invariant every step keeps. -/

namespace Sys2Proof.Machine

/-! ### What fits the command in flight -/

theorem State.inFlightFits_of_busy {s : State} (hb : s.busy = true) :
    s.inFlightFits ↔ s.snap = s.mem ∧ ∃ i, decode s.npoly s.cmdr = .cmd i ∧ s.requestFits i := by
  rw [State.inFlightFits, if_pos hb]

theorem State.inFlightFits_of_idle {s : State} (hb : s.busy = false) :
    s.inFlightFits ↔ s.snap = [] ∧ s.ext = .none := by
  rw [State.inFlightFits, if_neg (by simp [hb])]

/-- With no request pending, every command's requests are answered (R104). -/
theorem State.requestFits_of_none {s : State} (h : s.ext = .none) (i : Instr) : s.requestFits i := by
  rw [State.requestFits, h]
  trivial

/-- A command's start makes its own request (R120, R121, R125). -/
theorem State.startExternal_requestFits (s : State) (i : Instr) : (s.startExternal i).requestFits i := by
  have hreq (rs1 rs2 : Slot) : s.bmRequests rs1 rs2 ≠ [] := by simp [State.bmRequests]
  cases i with
  | ntt rd rs1 => exact ⟨rd, rs1, rfl⟩
  | invntt rd rs1 => exact ⟨rd, rs1, rfl⟩
  | pmul rd rs1 rs2 => exact ⟨hreq rs1 rs2, rd, rs1, rs2, .inl rfl, List.suffix_rfl⟩
  | pmac rd rs1 rs2 => exact ⟨hreq rs1 rs2, rd, rs1, rs2, .inr rfl, List.suffix_rfl⟩
  | _ => trivial

/-! ### Host accesses -/

/-- While BUSY an access changes at most IE, the flags DONE, ILL and REJ, and the response (R57). -/
theorem State.access_of_busy {s : State} (hb : s.busy = true) (r : BusReq) :
    ∃ ie done ill rej rsp,
      s.access r = { s with ie := ie, done := done, ill := ill, rej := rej, rsp := rsp } := by
  obtain ⟨-, h⟩ | ⟨reg, n, -, -, ⟨-, h⟩ | ⟨hi, -⟩ | ⟨hi, -⟩⟩ | ⟨reg, n, -, -, ⟨-, h⟩ | ⟨-, h⟩⟩ := s.access_cases r
  · exact ⟨_, _, _, _, _, h⟩
  · exact ⟨_, _, _, _, _, h⟩
  · simp [hb] at hi
  · simp [hb] at hi
  · cases reg with
    | ctrl =>
      obtain ⟨-, hc⟩ | ⟨-, -, hc⟩ | ⟨-, hi, -⟩ := s.ctrlWrite_cases r.wdata
      · rw [h, State.registerWrite, hc]
        exact ⟨_, _, _, _, _, rfl⟩
      · rw [h, State.registerWrite, hc]
        exact ⟨_, _, _, _, _, rfl⟩
      · simp [hb] at hi
    | cmd =>
      rw [h, State.registerWrite, State.cmdWrite, if_pos hb]
      exact ⟨_, _, _, _, _, rfl⟩
    | _ => exact ⟨_, _, _, _, _, h⟩
  · exact ⟨_, _, _, _, _, h⟩

/-- An access leaves BUSY, TB, the snapshot and the pending request as they were, or it is the CMD write of a legal word
while idle, which is accepted and started (R100). -/
theorem State.access_frame (s : State) (r : BusReq) :
    (∃ m ie done ill rej cmdr rsp k,
      s.access r = { s with
        mem := m, ie := ie, done := done, ill := ill, rej := rej, cmdr := cmdr, rsp := rsp, freeIx := k }) ∨
    (s.busy = false ∧ ∃ i, decode s.npoly r.wdata = .cmd i ∧
      s.access r = ((s.accept r.wdata).startExternal i).respond 0 false) := by
  obtain ⟨-, h⟩ | ⟨reg, n, -, -, ⟨-, h⟩ | ⟨-, -, h⟩ | ⟨-, -, h⟩⟩ | ⟨reg, n, -, -, ⟨-, h⟩ | ⟨-, h⟩⟩ := s.access_cases r
  · exact .inl ⟨_, _, _, _, _, _, _, _, h⟩
  · exact .inl ⟨_, _, _, _, _, _, _, _, h⟩
  · exact .inl ⟨_, _, _, _, _, _, _, _, h⟩
  · obtain ⟨d, k, hk⟩ := s.windowRead_eq r.addr.toNat n
    exact .inl ⟨_, _, _, _, _, _, _, _, h.trans hk⟩
  · cases reg with
    | ctrl =>
      rw [h, State.registerWrite]
      obtain ⟨-, hc⟩ | ⟨-, -, hc⟩ | ⟨-, -, hc⟩ := s.ctrlWrite_cases r.wdata <;> rw [hc] <;>
        exact .inl ⟨_, _, _, _, _, _, _, _, rfl⟩
    | cmd =>
      rw [h, State.registerWrite]
      obtain ⟨-, hc⟩ | ⟨-, -, hc⟩ | ⟨hb, i, hi, hc⟩ := s.cmdWrite_cases r.wdata <;> rw [hc]
      · exact .inl ⟨_, _, _, _, _, _, _, _, rfl⟩
      · exact .inl ⟨_, _, _, _, _, _, _, _, rfl⟩
      · exact .inr ⟨hb, i, hi, rfl⟩
    | _ => exact .inl ⟨_, _, _, _, _, _, _, _, h⟩
  · exact .inl ⟨_, _, _, _, _, _, _, _, h⟩

@[simp] theorem State.access_rstN (s : State) (r : BusReq) : (s.access r).rstN = s.rstN := by
  obtain ⟨m, ie, done, ill, rej, cmdr, rsp, k, h⟩ | ⟨-, i, -, h⟩ := s.access_frame r
  · rw [h]
  · obtain ⟨tb, ext, hx, -⟩ := (s.accept r.wdata).startExternal_eq i
    rw [h, hx]
    rfl

/-- TB keeps its 256 entries: only a command's start loads it, with a whole slot (R24, R120). -/
theorem State.access_tb_length {s : State} (hl : s.tb.length = 256) (r : BusReq) : (s.access r).tb.length = 256 := by
  obtain ⟨m, ie, done, ill, rej, cmdr, rsp, k, h⟩ | ⟨-, i, -, h⟩ := s.access_frame r
  · rw [h]
    exact hl
  · obtain ⟨tb, ext, hx, htb⟩ := (s.accept r.wdata).startExternal_eq i
    rw [h, hx]
    obtain rfl | ⟨r1, rfl⟩ := htb
    · exact hl
    · exact State.length_srcPoly _ r1

/-- An accepted command is in flight with the snapshot that its CMD write takes (R100). -/
theorem State.accept_inFlightFits {s : State} {w : Word} {i : Instr} (hi : decode s.npoly w = .cmd i) :
    ((s.accept w).startExternal i).inFlightFits := by
  have hreq := (s.accept w).startExternal_requestFits i
  obtain ⟨tb, ext, hx, -⟩ := (s.accept w).startExternal_eq i
  rw [hx] at hreq ⊢
  exact (State.inFlightFits_of_busy rfl).2 ⟨rfl, i, hi, hreq⟩

theorem State.access_inFlightFits {s : State} (hfit : s.inFlightFits) (r : BusReq) : (s.access r).inFlightFits := by
  cases hb : s.busy with
  | true =>
    obtain ⟨ie, done, ill, rej, rsp, h⟩ := State.access_of_busy hb r
    rw [h]
    exact hfit
  | false =>
    obtain ⟨m, ie, done, ill, rej, cmdr, rsp, k, h⟩ | ⟨-, i, hi, h⟩ := s.access_frame r
    · rw [h]
      obtain ⟨hsnap, hext⟩ := (State.inFlightFits_of_idle hb).1 hfit
      refine (State.inFlightFits_of_idle ?_).2 ⟨hsnap, hext⟩
      exact hb
    · rw [h]
      exact State.accept_inFlightFits hi

/-! ### The sequencer -/

/-- A legal command in flight completes when it is due; otherwise the sequencer leaves the state alone (R103, R104). -/
theorem State.sequence_of_fits {s t : State} (hfit : s.inFlightFits) (h : s.sequence = .next t) :
    t = s ∨ ∃ m tb k, (tb = s.tb ∨ tb.length = 256) ∧
      t = State.finish { s with mem := m, tb := tb, freeIx := k } := by
  obtain ⟨-, hs⟩ | ⟨hd, i, hc, hs⟩ | ⟨hd, why, hc, hs⟩ := s.sequence_cases
  · exact .inl (Host.Outcome.next.inj (h.symm.trans hs))
  all_goals
    obtain ⟨-, j, hj, -⟩ := (State.inFlightFits_of_busy (s.due_iff.1 hd).1).1 hfit
    obtain ⟨hj, hw⟩ := decode_eq_cmd_iff.1 hj
    rw [hc] at hj
  · obtain rfl := Decoded.cmd.inj hj
    obtain ⟨m, tb, k, -, htb, ht⟩ := exec_of_wf hw (hs.symm.trans h)
    exact .inr ⟨m, tb, k, htb, ht⟩
  · cases hj

/-! ### Answers of the engines -/

/-- The pending request of a PMUL or PMAC is a nonempty rest of its 128 requests (R121, R125). -/
theorem State.requestFits_of_basemul {s : State} {rest : List BmRequest} (h : s.ext = .basemul rest) {i : Instr} :
    s.requestFits i ↔ rest ≠ [] ∧ ∃ rd rs1 rs2,
      (i = .pmul rd rs1 rs2 ∨ i = .pmac rd rs1 rs2) ∧ rest <:+ s.bmRequests rs1 rs2 := by
  rw [State.requestFits, h]

/-- A pending request may be answered: what is in flight fits without it too. -/
theorem State.inFlightFits_answered {s : State} (hfit : s.inFlightFits) :
    State.inFlightFits { s with ext := .none } := by
  cases hb : s.busy with
  | true =>
    obtain ⟨hsnap, i, hi, -⟩ := (State.inFlightFits_of_busy hb).1 hfit
    exact (State.inFlightFits_of_busy rfl).2 ⟨hsnap, i, hi, State.requestFits_of_none rfl i⟩
  | false =>
    obtain ⟨hsnap, -⟩ := (State.inFlightFits_of_idle hb).1 hfit
    exact (State.inFlightFits_of_idle rfl).2 ⟨hsnap, rfl⟩

/-- The oldest basemul request may be answered: the rest fits too (R121, R125). -/
theorem State.inFlightFits_basemul_tail {s : State} {x y : BmRequest} {rs : List BmRequest} (hfit : s.inFlightFits)
    (he : s.ext = .basemul (x :: y :: rs)) : State.inFlightFits { s with ext := .basemul (y :: rs) } := by
  cases hb : s.busy with
  | true =>
    obtain ⟨hsnap, i, hi, hreq⟩ := (State.inFlightFits_of_busy hb).1 hfit
    obtain ⟨-, rd, rs1, rs2, hcmd, hsuf⟩ := (State.requestFits_of_basemul he).1 hreq
    have hrest : y :: rs <:+ s.bmRequests rs1 rs2 := (List.suffix_cons x (y :: rs)).trans hsuf
    exact (State.inFlightFits_of_busy rfl).2 ⟨hsnap, i, hi,
      (State.requestFits_of_basemul rfl).2 ⟨List.cons_ne_nil y rs, rd, rs1, rs2, hcmd, hrest⟩⟩
  | false =>
    obtain ⟨-, hnone⟩ := (State.inFlightFits_of_idle hb).1 hfit
    simp [he] at hnone

theorem State.teDone_inFlightFits {s : State} (hfit : s.inFlightFits) : s.teDone.inFlightFits := by
  obtain ⟨-, h⟩ | ⟨-, h⟩ := s.teDone_cases <;> rw [h]
  · exact State.inFlightFits_answered hfit
  · exact hfit

theorem State.bmRsp_inFlightFits {s : State} (hfit : s.inFlightFits) : s.bmRsp.inFlightFits := by
  obtain ⟨x, y, rs, he, h⟩ | ⟨_, -, -, h⟩ | ⟨-, h⟩ := s.bmRsp_cases <;> rw [h]
  · exact State.inFlightFits_basemul_tail hfit he
  · exact State.inFlightFits_answered hfit
  · exact hfit

theorem State.tbWrite_inFlightFits {s : State} (hfit : s.inFlightFits) (k : BitVec 8) (v : Coef) :
    (s.tbWrite k v).inFlightFits := by
  obtain ⟨-, h⟩ | ⟨-, h⟩ := s.tbWrite_cases k v <;> rw [h] <;> exact hfit

@[simp] theorem State.teDone_tb (s : State) : s.teDone.tb = s.tb := by
  obtain ⟨-, h⟩ | ⟨-, h⟩ := s.teDone_cases <;> rw [h]

@[simp] theorem State.bmRsp_tb (s : State) : s.bmRsp.tb = s.tb := by
  obtain ⟨_, _, _, -, h⟩ | ⟨_, -, -, h⟩ | ⟨-, h⟩ := s.bmRsp_cases <;> rw [h]

@[simp] theorem State.length_tb_tbWrite (s : State) (k : BitVec 8) (v : Coef) :
    (s.tbWrite k v).tb.length = s.tb.length := by
  obtain ⟨-, h⟩ | ⟨-, h⟩ := s.tbWrite_cases k v <;> simp [h]

@[simp] theorem State.teDone_rstN (s : State) : s.teDone.rstN = s.rstN := by
  obtain ⟨-, h⟩ | ⟨-, h⟩ := s.teDone_cases <;> rw [h]

@[simp] theorem State.bmRsp_rstN (s : State) : s.bmRsp.rstN = s.rstN := by
  obtain ⟨_, _, _, -, h⟩ | ⟨_, -, -, h⟩ | ⟨-, h⟩ := s.bmRsp_cases <;> rw [h]

@[simp] theorem State.tbWrite_rstN (s : State) (k : BitVec 8) (v : Coef) : (s.tbWrite k v).rstN = s.rstN := by
  obtain ⟨-, h⟩ | ⟨-, h⟩ := s.tbWrite_cases k v <;> rw [h]

/-! ### The parts of the invariant over a step -/

theorem step_tb_length {s t : State} (hfit : s.inFlightFits) (hl : s.tb.length = 256) (h : step s = .next t) :
    t.tb.length = 256 := by
  obtain ⟨-, -, hs⟩ | ⟨-, r, ms, -, rfl⟩ | ⟨-, -, rfl⟩ | ⟨-, -, rfl⟩ | ⟨-, k, v, -, rfl⟩ | ⟨level, -, rfl⟩ | ⟨-, rfl⟩ :=
    step_cases h
  · obtain rfl | ⟨m, tb, k, rfl | htb, rfl⟩ := State.sequence_of_fits (s := s.tick) hfit hs
    · exact hl
    · exact hl
    · exact htb
  · exact State.access_tb_length (s := s.tick) hl r
  · simpa using hl
  · simpa using hl
  · simpa using hl
  · cases level with
    | true => exact hl
    | false => exact List.length_replicate
  · exact hl

theorem step_inFlightFits {s t : State} (hfit : s.inFlightFits) (h : step s = .next t) : t.inFlightFits := by
  have htick : s.tick.inFlightFits := hfit
  obtain ⟨-, -, hs⟩ | ⟨-, r, ms, -, rfl⟩ | ⟨-, -, rfl⟩ | ⟨-, -, rfl⟩ | ⟨-, k, v, -, rfl⟩ | ⟨level, -, rfl⟩ | ⟨-, rfl⟩ :=
    step_cases h
  · obtain rfl | ⟨m, tb, k, -, rfl⟩ := State.sequence_of_fits htick hs
    · exact htick
    · exact (State.inFlightFits_of_idle rfl).2 ⟨rfl, rfl⟩
  · exact State.access_inFlightFits htick r
  · exact State.teDone_inFlightFits htick
  · exact State.bmRsp_inFlightFits htick
  · exact State.tbWrite_inFlightFits htick k v
  · cases level with
    | true => exact htick
    | false => exact (State.inFlightFits_of_idle rfl).2 ⟨rfl, rfl⟩
  · exact htick

/-- With rst_n released, nothing is asked of the registers (R240). -/
theorem State.resetFits_of_released {s : State} (h : s.rstN = true) : s.resetFits := by
  simp [State.resetFits, h]

theorem State.hwReset_resetFits (s : State) : s.hwReset.resetFits :=
  fun _ => ⟨rfl, rfl, rfl, rfl, rfl, rfl, rfl, rfl⟩

theorem step_resetFits {s t : State} (hfit : s.inFlightFits) (hr : s.resetFits) (h : step s = .next t) :
    t.resetFits := by
  obtain ⟨hn, -, hs⟩ | ⟨hn, r, ms, -, rfl⟩ | ⟨hn, -, rfl⟩ | ⟨hn, -, rfl⟩ | ⟨hn, k, v, -, rfl⟩ | ⟨level, -, rfl⟩ | ⟨-, rfl⟩ :=
    step_cases h
  · obtain rfl | ⟨m, tb, k, -, rfl⟩ := State.sequence_of_fits (s := s.tick) hfit hs <;>
      exact State.resetFits_of_released hn
  · exact State.resetFits_of_released (by simpa using hn)
  · exact State.resetFits_of_released (by simpa using hn)
  · exact State.resetFits_of_released (by simpa using hn)
  · exact State.resetFits_of_released (by simpa using hn)
  · cases level with
    | true => exact State.resetFits_of_released rfl
    | false => exact s.tick.hwReset_resetFits
  · exact hr

theorem step_npoly {s t : State} (h : step s = .next t) : t.npoly = s.npoly := by
  obtain ⟨hn, -⟩ := State.params_eq_iff.1 (step_params h)
  rw [State.npoly, State.npoly, hn]

/-- The parts of the invariant that speak of the memory, over a step (R51, R54). -/
theorem step_memoryFits {s t : State} (hwf : s.mem.wf) (hmap : s.mem.inMap s.npoly) (hwhole : s.mem.wholeCoefs)
    (h : step s = .next t) : t.mem.wf ∧ t.mem.inMap t.npoly ∧ t.mem.wholeCoefs := by
  rw [step_npoly h]
  obtain hfit | hnil := step_fitWrite h
  · exact ⟨hfit.wf hwf, hfit.inMap hmap, hfit.wholeCoefs hwhole⟩
  · rw [hnil]
    exact ⟨List.Pairwise.nil, fun c hc => absurd hc List.not_mem_nil, fun _ _ _ => rfl⟩

/-- Settles O55: each part of the invariant over a step. -/
theorem stepKeepsTheInvariant : Obligations.StepKeepsTheInvariant := by
  intro s t hi h
  obtain ⟨hwf, hmap, hwhole, hl, hfit, hr⟩ := hi
  obtain ⟨hwf', hmap', hwhole'⟩ := step_memoryFits hwf hmap hwhole h
  exact ⟨hwf', hmap', hwhole', step_tb_length hfit hl h, step_inFlightFits hfit h, step_resetFits hfit hr h⟩

end Sys2Proof.Machine
end

section
/-! The map and the bus errors of the host port (R51, R56), and its accesses while BUSY (R57, R61). -/

namespace Sys2Proof.Machine

/-! ### Which requests are legal -/

theorem sizeBytes_eq : ∀ size : BitVec 2, sizeBytes size = if size = 3#2 then none else some (2 ^ size.toNat) := by
  decide

/-- The slots lie one behind the other: an address in one of them is an address in their whole range (R51). -/
theorem exists_slot_iff {npoly a : Nat} :
    (∃ r < npoly, 0x1000 + 0x200 * r ≤ a ∧ a < 0x1200 + 0x200 * r) ↔ 0x1000 ≤ a ∧ a < 0x1000 + 0x200 * npoly := by
  constructor
  · rintro ⟨r, hr, h1, h2⟩
    omega
  · rintro ⟨h1, h2⟩
    exact ⟨(a - 0x1000) / 0x200, by omega, by omega, by omega⟩

/-- The map of R51, region by region. -/
theorem mapped_iff {npoly a n : Nat} :
    Mapped npoly a n ↔ (a < 0x10 ∧ n = 4) ∨ (region npoly a = .buf ∧ (n = 1 ∨ n = 2 ∨ n = 4)) ∨
      (region npoly a = .slot ∧ (n = 2 ∨ n = 4)) := by
  rw [Mapped, region_eq_buf, region_eq_slot, ← exists_slot_iff]
  simp only [← and_assoc, exists_and_right]

/-- The registers leave no gap (R51). -/
theorem not_register_of_unmapped {npoly a : Nat} (h : region npoly a = .unmapped) : ¬ a < 0x10 := by
  intro ha
  revert h
  unfold region
  split_ifs <;> simp

/-- A region allows the sizes the map gives it (R51). -/
theorem allows_region_iff {npoly a n : Nat} : (region npoly a).allows n = true ↔ Mapped npoly a n := by
  rw [mapped_iff]
  cases hr : region npoly a with
  | id => have := region_eq_id.1 hr; simp [Region.allows]; omega
  | ctrl => have := region_eq_ctrl.1 hr; simp [Region.allows]; omega
  | status => have := region_eq_status.1 hr; simp [Region.allows]; omega
  | cmd => have := region_eq_cmd.1 hr; simp [Region.allows]; omega
  | buf => have := region_eq_buf.1 hr; simp [Region.allows, or_assoc]; omega
  | slot => have := region_eq_slot.1 hr; simp [Region.allows]; omega
  | unmapped => simp [Region.allows, not_register_of_unmapped hr]

/-- A request with none of R56's conditions is legal, in the region of its address. -/
theorem BusReq.legal_of_ok {npoly : Nat} {r : BusReq} (h : ¬ BusErrorConditions npoly r) :
    r.legal npoly = some (region npoly r.addr.toNat, 2 ^ r.size.toNat) := by
  simp only [BusErrorConditions, not_or, not_not] at h
  obtain ⟨hsize, hmap, hal⟩ := h
  simp [BusReq.legal, sizeBytes_eq, hsize, allows_region_iff, hmap, hal]

/-- A request with one of R56's conditions is not legal. -/
theorem BusReq.legal_of_error {npoly : Nat} {r : BusReq} (h : BusErrorConditions npoly r) : r.legal npoly = none := by
  by_cases hsize : r.size = 3#2
  · simp [BusReq.legal, sizeBytes_eq, hsize]
  · have hbad : ¬ (Mapped npoly r.addr.toNat (2 ^ r.size.toNat) ∧ r.addr.toNat % 2 ^ r.size.toNat = 0) := by
      rintro ⟨hmap, hal⟩
      obtain h | h | h := h
      · exact hsize h
      · exact h hmap
      · exact h hal
    simp only [BusReq.legal, sizeBytes_eq, hsize, if_false, allows_region_iff, hbad]

/-- Settles O45: the requests that are not legal are those of R56's conditions, and every legal access is answered
OK. -/
theorem busErrorsAreExactlyTheListed : Obligations.BusErrorsAreExactlyTheListed := by
  intro s r
  refine ⟨fun h => ?_, fun h => ?_⟩
  · rw [State.access, BusReq.legal_of_error h]
    rfl
  · have hlegal := BusReq.legal_of_ok h
    obtain ⟨hl, -⟩ | ⟨reg, n, -, -, ⟨-, h⟩ | ⟨-, -, h⟩ | ⟨-, -, h⟩⟩ | ⟨reg, n, -, -, ⟨-, h⟩ | ⟨-, h⟩⟩ := s.access_cases r
    · simp [hlegal] at hl
    · exact ⟨_, congrArg State.rsp h⟩
    · exact ⟨_, congrArg State.rsp h⟩
    · obtain ⟨d, k, hk⟩ := s.windowRead_eq r.addr.toNat n
      exact ⟨d, congrArg State.rsp (h.trans hk)⟩
    · exact ⟨_, congrArg State.rsp h⟩
    · exact ⟨_, congrArg State.rsp h⟩

/-! ### Accesses to the windows -/

/-- The run is all a write changes (R58). -/
theorem Memory.sameOutside_writeRun (m : Memory) (a : Nat) (bs : List Byte) :
    SameOutside m (m.writeRun a bs) a bs.length :=
  fun _ hk => Memory.read_writeRun_outside hk

/-- Byte j of the datum a write stores (R55). -/
theorem Memory.read_writeRun_bytesOfData (m : Memory) (a : Nat) (v : Word) {n j : Nat} (hj : j < n) :
    (m.writeRun a (bytesOfData n v)).read (a + j) = some (v.extractLsb' (8 * j) 8) := by
  rw [Memory.read_writeRun, if_pos (by simp; omega), Nat.add_sub_cancel_left]
  simp [bytesOfData, hj]

section Window

variable {s : State} {r : BusReq} {reg : Region} {n : Nat}

theorem State.access_window (hl : r.legal s.npoly = some (reg, n)) (hreg : reg = .buf ∨ reg = .slot) :
    s.access r = s.windowAccess r n := by
  simp [State.access, hl, hreg]

/-- R57: a window access while BUSY is refused. -/
theorem State.access_window_busy (hl : r.legal s.npoly = some (reg, n)) (hreg : reg = .buf ∨ reg = .slot)
    (hb : s.busy = true) : s.access r = { s with rej := true, rsp := some ⟨0, false⟩ } := by
  rw [State.access_window hl hreg, State.windowAccess, if_pos hb]
  rfl

theorem State.access_window_idle (hl : r.legal s.npoly = some (reg, n)) (hreg : reg = .buf ∨ reg = .slot)
    (hb : s.busy = false) :
    s.access r = if r.we = true then s.windowWrite r.addr.toNat n r.wdata else s.windowRead r.addr.toNat n := by
  rw [State.access_window hl hreg, State.windowAccess, if_neg (by simp [hb])]

/-- A window read while idle changes the response and the index of free values alone (R35). -/
theorem State.access_window_read (hl : r.legal s.npoly = some (reg, n)) (hreg : reg = .buf ∨ reg = .slot)
    (hb : s.busy = false) (hw : r.we = false) :
    ∃ d k, s.access r = { s with rsp := some ⟨d, false⟩, freeIx := k } := by
  rw [State.access_window_idle hl hreg hb, if_neg (by simp [hw])]
  exact s.windowRead_eq r.addr.toNat n

/-- A window read of written bytes answers their word and changes nothing (R53, R54). -/
theorem State.access_window_read_written (hl : r.legal s.npoly = some (reg, n)) (hreg : reg = .buf ∨ reg = .slot)
    (hb : s.busy = false) (hw : r.we = false) {b : Nat → Byte}
    (hread : ∀ j < n, s.mem.read (r.addr.toNat + j) = some (b j)) :
    s.access r = { s with rsp := some ⟨wordOfBytes ((List.range n).map b), false⟩ } := by
  have hrun : s.mem.readRun r.addr.toNat n = ((List.range n).map b).map some := by
    rw [Memory.readRun, List.map_map]
    exact List.map_congr_left fun j hj => hread j (List.mem_range.1 hj)
  rw [State.access_window_idle hl hreg hb, if_neg (by simp [hw])]
  exact State.windowRead_of_written hrun

/-- A window write while idle stores its bytes, lowest address first, and changes nothing else (R53, R54, R55). -/
theorem State.access_window_write (hl : r.legal s.npoly = some (reg, n)) (hreg : reg = .buf ∨ reg = .slot)
    (hb : s.busy = false) (hw : r.we = true) :
    ∃ m, s.access r = { s with mem := m, rsp := some ⟨0, false⟩ } ∧
      (∀ j < n, m.read (r.addr.toNat + j) = some (r.wdata.extractLsb' (8 * j) 8)) ∧
      SameOutside s.mem m r.addr.toNat n := by
  refine ⟨s.mem.writeRun r.addr.toNat (bytesOfData n r.wdata), ?_, ?_, ?_⟩
  · rw [State.access_window_idle hl hreg hb, if_pos hw]
    rfl
  · exact fun j hj => s.mem.read_writeRun_bytesOfData _ _ hj
  · simpa using s.mem.sameOutside_writeRun r.addr.toNat (bytesOfData n r.wdata)

end Window

/-! ### Accesses while BUSY -/

/-- A legal access at 0x0800 or above is to a window (R51). -/
theorem window_of_mapped {npoly a n : Nat} (h : Mapped npoly a n) (ha : 0x0800 ≤ a) :
    region npoly a = .buf ∨ region npoly a = .slot := by
  obtain ⟨hlt, -⟩ | ⟨hbuf, -⟩ | ⟨hslot, -⟩ := mapped_iff.1 h
  · omega
  · exact .inl hbuf
  · exact .inr hslot

/-- Settles O46: the window accesses, the CMD write and the SRST write while BUSY, and what every access leaves. -/
theorem busyRejectsAccesses : Obligations.BusyRejectsAccesses := by
  intro s r hb
  refine ⟨fun hok ha => ?_, fun hs ha hw => ?_, fun hs ha hw hbit => ?_, ?_⟩
  · have hmap : Mapped s.npoly r.addr.toNat (2 ^ r.size.toNat) := by
      by_contra hbad
      exact hok (.inr (.inl hbad))
    exact State.access_window_busy (BusReq.legal_of_ok hok) (window_of_mapped hmap ha) hb
  · rw [State.access_registerWrite (reg := .cmd) hs (congrArg some ha.symm) hw, State.registerWrite, State.cmdWrite,
      if_pos hb]
    rfl
  · rw [State.access_registerWrite (reg := .ctrl) hs (congrArg some ha.symm) hw, State.registerWrite, State.ctrlWrite]
    simp [hbit, hb, State.raiseRej, State.respond]
  · obtain ⟨ie, done, ill, rej, rsp, h⟩ := State.access_of_busy hb r
    rw [h]
    exact ⟨rfl, rfl, rfl, rfl, rfl, hb⟩

/-! ### The step of an access -/

/-- Settles O7: the step takes the access off the schedule and performs it. -/
theorem stepPerformsTheHostAccess : Obligations.StepPerformsTheHostAccess := by
  intro s r ms hr hm
  simp [step, State.advance, hm, hr, State.move, State.tick]

end Sys2Proof.Machine
end

section
/-! The data of BUF and slot accesses: bytes and coefficients in the data word, lowest address first (R53 to R55). -/

namespace Sys2Proof.Machine

/-! ### The word of bytes -/

/-- The data word of a list of bytes: the first is the least significant (R55). -/
theorem wordOfBytes_cons (b : Byte) (bs : List Byte) :
    wordOfBytes (b :: bs) = BitVec.ofNat 32 ((wordOfBytes bs).toNat * 256 + b.toNat) := by
  have hdisjoint : wordOfBytes bs <<< 8 &&& b.setWidth 32 = 0 := by
    ext i hi
    by_cases h : i < 8
    · simp [h]
    · simp [BitVec.getLsbD_of_ge b i (by omega)]
  rw [wordOfBytes, ← BitVec.add_eq_or_of_and_eq_zero _ _ hdisjoint]
  apply BitVec.eq_of_toNat_eq
  simp [Nat.shiftLeft_eq]

/-- The data word of n bytes is their little-endian sum (R55). -/
theorem wordOfBytes_eq_sum (n : Nat) (b : Nat → Byte) :
    wordOfBytes ((List.range n).map b) =
      BitVec.ofNat 32 (((List.range n).map fun j => (b j).toNat * 256 ^ j).sum) := by
  induction n generalizing b with
  | zero => rfl
  | succ n ih =>
    have hshift : ((List.range n).map fun j => (b (j + 1)).toNat * 256 ^ (j + 1)).sum =
        256 * ((List.range n).map fun j => (b (j + 1)).toNat * 256 ^ j).sum := by
      rw [← List.sum_map_mul_left]
      congr 1
      exact List.map_congr_left fun j _ => by ring
    rw [List.range_succ_eq_map, List.map_cons, wordOfBytes_cons, List.map_cons, List.sum_cons, List.map_map,
      List.map_map]
    simp only [Function.comp_def, Nat.succ_eq_add_one, hshift, ih fun j => b (j + 1)]
    apply BitVec.eq_of_toNat_eq
    simp
    omega

/-- The bytes of a data word: its lowest one, then those of the word shifted down (R55). -/
theorem bytesOfData_succ (n : Nat) (v : Word) :
    bytesOfData (n + 1) v = v.extractLsb' 0 8 :: bytesOfData n (v >>> 8) := by
  have hbyte (j : Nat) : v.extractLsb' (8 * (j + 1)) 8 = (v >>> 8).extractLsb' (8 * j) 8 := by
    ext i hi
    simp [show 8 * (j + 1) + i = 8 + (8 * j + i) by omega]
  rw [bytesOfData, List.range_succ_eq_map, List.map_cons, List.map_map]
  exact congrArg _ (List.map_congr_left fun j _ => hbyte j)

/-- The n bytes of a data word give its low 8n bits back (R55). -/
theorem wordOfBytes_bytesOfData (n : Nat) (v : Word) :
    wordOfBytes (bytesOfData n v) = BitVec.ofNat 32 (v.toNat % 2 ^ (8 * n)) := by
  induction n generalizing v with
  | zero => simp [bytesOfData, wordOfBytes, Nat.mod_one]
  | succ n ih =>
    have hlow : (v >>> 8).toNat % 2 ^ (8 * n) < 2 ^ 32 := (Nat.mod_le _ _).trans_lt (v >>> 8).isLt
    have hsplit : v.toNat % 2 ^ (8 * (n + 1)) = v.toNat % 256 + 256 * (v.toNat / 256 % 2 ^ (8 * n)) := by
      rw [Nat.mul_succ, Nat.pow_add, Nat.mul_comm, Nat.mod_mul]
    rw [bytesOfData_succ, wordOfBytes_cons, ih, BitVec.toNat_ofNat, Nat.mod_eq_of_lt hlow, hsplit]
    rw [BitVec.extractLsb'_toNat, BitVec.toNat_ushiftRight, Nat.shiftRight_eq_div_pow, Nat.shiftRight_zero]
    congr 1
    ring

/-! ### The bytes of a coefficient -/

/-- The bytes of a written coefficient, low byte first (R54, R55). -/
theorem Memory.read_of_coef {m : Memory} {r : Slot} {i : Nat} {c : Coef} (h : m.coef r i = some c) :
    m.read (slotBase r.toNat + 2 * i) = some (c.extractLsb' 0 8) ∧
      m.read (slotBase r.toNat + 2 * i + 1) = some (c.extractLsb' 8 8) := by
  unfold Memory.coef at h
  cases hhi : m.read (slotBase r.toNat + 2 * i + 1) with
  | none => simp [hhi, lift2] at h
  | some hi =>
    cases hlo : m.read (slotBase r.toNat + 2 * i) with
    | none => simp [hhi, hlo, lift2] at h
    | some lo =>
      simp only [hhi, hlo, lift2, Option.some.injEq] at h
      subst h
      exact ⟨congrArg some BitVec.extractLsb'_append_eq_right.symm,
        congrArg some BitVec.extractLsb'_append_eq_left.symm⟩

/-- The coefficient of two bytes that are consecutive bytes of a word (R54, R55). -/
theorem Memory.coef_of_word {m : Memory} {r : Slot} {i k : Nat} {v : Word}
    (h0 : m.read (slotBase r.toNat + 2 * i) = some (v.extractLsb' k 8))
    (h1 : m.read (slotBase r.toNat + 2 * i + 1) = some (v.extractLsb' (k + 8) 8)) :
    m.coef r i = some (v.extractLsb' k 16) := by
  rw [Memory.coef_eq_some h0 h1, BitVec.extractLsb'_append_extractLsb'_eq_extractLsb' rfl]

/-! ### Accesses to BUF and to slots -/

/-- An aligned request of a size its region allows is legal (R56). -/
theorem BusReq.legal_of_allows {npoly n : Nat} {r : BusReq} {reg : Region} (hsize : sizeBytes r.size = some n)
    (hreg : region npoly r.addr.toNat = reg) (hallows : reg.allows n = true) (hal : r.addr.toNat % n = 0) :
    r.legal npoly = some (reg, n) := by
  simp [BusReq.legal, hsize, hreg, hallows, hal]

theorem buf_allows : ∀ size : BitVec 2, size ≠ 3#2 → Region.buf.allows (2 ^ size.toNat) = true := by
  decide

/-- A window read answers the word whose bytes stand in memory (R53 to R55). -/
theorem State.access_window_read_word {s : State} {r : BusReq} {reg : Region} {n : Nat} {v : Word}
    (hl : r.legal s.npoly = some (reg, n)) (hreg : reg = .buf ∨ reg = .slot) (hb : s.busy = false) (hw : r.we = false)
    (hread : ∀ j < n, s.mem.read (r.addr.toNat + j) = some (v.extractLsb' (8 * j) 8)) (hv : v.toNat < 2 ^ (8 * n)) :
    s.access r = { s with rsp := some ⟨v, false⟩ } := by
  have hword : wordOfBytes (bytesOfData n v) = v := by
    rw [wordOfBytes_bytesOfData, Nat.mod_eq_of_lt hv, BitVec.ofNat_toNat, BitVec.setWidth_eq]
  rw [State.access_window_read_written hl hreg hb hw hread]
  exact congrArg (fun d => State.respond s d false) hword

/-- Settles O47: a BUF access is a legal window access, whose bytes stand in the data word little-endian. -/
theorem bufWindowIsLittleEndian : Obligations.BufWindowIsLittleEndian := by
  rintro s r n hsize rfl hal h1 h2
  have hpos : 0 < 2 ^ r.size.toNat := Nat.two_pow_pos _
  have hl : r.legal s.npoly = some (.buf, 2 ^ r.size.toNat) :=
    BusReq.legal_of_allows (by rw [sizeBytes_eq, if_neg hsize]) (region_eq_buf.2 (by omega)) (buf_allows _ hsize) hal
  refine ⟨State.access_window_write hl (.inl rfl), fun hb hw b hread => ?_, State.access_window_read hl (.inl rfl),
    State.access_window_busy hl (.inl rfl)⟩
  rw [State.access_window_read_written hl (.inl rfl) hb hw hread, wordOfBytes_eq_sum]

/-- Settles O48: a slot access is a legal window access, whose bytes are those of its coefficients. -/
theorem slotWindowMovesCoefficients : Obligations.SlotWindowMovesCoefficients := by
  intro s r p i hp hi ha
  have hslot : region s.npoly r.addr.toNat = .slot := region_eq_slot.2 (by omega)
  have hbase : r.addr.toNat = slotBase p.toNat + 2 * i := ha
  refine ⟨fun hs => ?_, fun hs heven => ?_⟩
  · have hl : r.legal s.npoly = some (.slot, 2) := BusReq.legal_of_allows (by rw [hs]; rfl) hslot rfl (by omega)
    refine ⟨fun hb hw => ?_, fun hb hw c hc => ?_, State.access_window_read hl (.inr rfl),
      State.access_window_busy hl (.inr rfl)⟩
    · obtain ⟨m, hm, hread, hsame⟩ := State.access_window_write hl (.inr rfl) hb hw
      rw [hbase] at hread
      exact ⟨m, hm, Memory.coef_of_word (hread 0 (by omega)) (hread 1 (by omega)), hsame⟩
    · obtain ⟨hlo, hhi⟩ := Memory.read_of_coef hc
      refine State.access_window_read_word hl (.inr rfl) hb hw (fun j hj => ?_) ?_
      · rw [hbase, BitVec.extractLsb'_setWidth_of_le (by omega)]
        interval_cases j
        · exact hlo
        · exact hhi
      · simp
        omega
  · have hl : r.legal s.npoly = some (.slot, 4) := BusReq.legal_of_allows (by rw [hs]; rfl) hslot rfl (by omega)
    refine ⟨fun hb hw => ?_, fun hb hw c0 c1 hc0 hc1 => ?_, State.access_window_read hl (.inr rfl),
      State.access_window_busy hl (.inr rfl)⟩
    · obtain ⟨m, hm, hread, hsame⟩ := State.access_window_write hl (.inr rfl) hb hw
      rw [hbase] at hread
      exact ⟨m, hm, Memory.coef_of_word (hread 0 (by omega)) (hread 1 (by omega)),
        Memory.coef_of_word (hread 2 (by omega)) (hread 3 (by omega)), hsame⟩
    · obtain ⟨hlo0, hhi0⟩ := Memory.read_of_coef hc0
      obtain ⟨hlo1, hhi1⟩ := Memory.read_of_coef hc1
      refine State.access_window_read_word hl (.inr rfl) hb hw (fun j hj => ?_) (c1 ++ c0).isLt
      rw [hbase]
      interval_cases j
      · rw [BitVec.extractLsb'_append_eq_of_add_le (by omega)]
        exact hlo0
      · rw [BitVec.extractLsb'_append_eq_of_add_le (by omega)]
        exact hhi0
      · rw [BitVec.extractLsb'_append_eq_of_le (by omega)]
        exact hlo1
      · rw [BitVec.extractLsb'_append_eq_of_le (by omega)]
        exact hhi1

end Sys2Proof.Machine
end

section
/-! The encoding as one equivalence (R80 to R84): a word decodes to a command exactly when it is that command's word.
The decoder's row for an OPC, a row of the opcode table and the field conditions of R85 are three forms of it. -/

namespace Sys2Proof

open Sys2Proof.Laws.EncodeFields (fields)

/-! ### Words and their fields -/

theorem eq_packWord_iff {w : Word} {o : BitVec 8} {rd rs1 rs2 : Slot} :
    w = packWord o rd rs1 rs2 ↔
      fieldRsv w = 0#12 ∧ fieldOpc w = o ∧ fieldRd w = rd ∧ fieldRs1 w = rs1 ∧ fieldRs2 w = rs2 := by
  constructor
  · rintro rfl
    simp
  · rintro ⟨hrsv, rfl, rfl, rfl, rfl⟩
    exact (packWord_fields hrsv).symm

/-- RD, RS1 and RS2 of a word, in the order of `fields`. -/
def slotFields (w : Word) : Slot × Slot × Slot := (fieldRd w, fieldRs1 w, fieldRs2 w)

theorem encode_eq_packWord (i : Instr) : encode i = packWord i.opc (fields i).1 (fields i).2.1 (fields i).2.2 := by
  cases i <;> rfl

theorem encode_eq_iff {i : Instr} {w : Word} :
    encode i = w ↔ fieldRsv w = 0#12 ∧ fieldOpc w = i.opc ∧ fields i = slotFields w := by
  rw [encode_eq_packWord, eq_comm, eq_packWord_iff, eq_comm (a := fields i)]
  simp only [slotFields, Prod.ext_iff]

/-! ### The row an OPC selects -/

/-- The command of i's row with the slot fields of w (R82, R83). -/
def Instr.atFields (i : Instr) (w : Word) : Instr :=
  match i with
  | .nop => .nop
  | .tobytes _ => .tobytes (fieldRs1 w)
  | .frombytes _ => .frombytes (fieldRd w)
  | .compress _ => .compress (fieldRs1 w)
  | .decompress _ => .decompress (fieldRd w)
  | .ntt _ _ => .ntt (fieldRd w) (fieldRs1 w)
  | .invntt _ _ => .invntt (fieldRd w) (fieldRs1 w)
  | .pmul _ _ _ => .pmul (fieldRd w) (fieldRs1 w) (fieldRs2 w)
  | .pmac _ _ _ => .pmac (fieldRd w) (fieldRs1 w) (fieldRs2 w)
  | .frommont _ _ => .frommont (fieldRd w) (fieldRs1 w)
  | .reduce _ _ => .reduce (fieldRd w) (fieldRs1 w)
  | .csubq _ _ => .csubq (fieldRd w) (fieldRs1 w)
  | .add _ _ _ => .add (fieldRd w) (fieldRs1 w) (fieldRs2 w)
  | .sub _ _ _ => .sub (fieldRd w) (fieldRs1 w) (fieldRs2 w)
  | .tomsg _ => .tomsg (fieldRs1 w)
  | .frommsg _ => .frommsg (fieldRd w)

@[simp] theorem Instr.opc_atFields (i : Instr) (w : Word) : (i.atFields w).opc = i.opc := by
  cases i <;> rfl

/-- The fields that the form of i leaves unused are 0 in w (R83). -/
abbrev Instr.UnusedZero (i : Instr) (w : Word) : Prop := fields (i.atFields w) = slotFields w

theorem Instr.atFields_eq_self {i : Instr} {w : Word} (h : fields i = slotFields w) : i.atFields w = i := by
  cases i <;> simp_all [fields, slotFields, atFields]

/-- Every OPC is a command's or has no row. -/
theorem opc_or_undefined (w : Word) : (∃ i : Instr, fieldOpc w = i.opc) ∨ decodeOpc w = .ill .undefinedOpc := by
  unfold decodeOpc
  split
  exacts [.inl ⟨.nop, ‹_›⟩, .inl ⟨.tobytes 0, ‹_›⟩, .inl ⟨.frombytes 0, ‹_›⟩, .inl ⟨.compress 0, ‹_›⟩,
    .inl ⟨.decompress 0, ‹_›⟩, .inl ⟨.ntt 0 0, ‹_›⟩, .inl ⟨.invntt 0 0, ‹_›⟩, .inl ⟨.pmul 0 0 0, ‹_›⟩,
    .inl ⟨.pmac 0 0 0, ‹_›⟩, .inl ⟨.frommont 0 0, ‹_›⟩, .inl ⟨.reduce 0 0, ‹_›⟩, .inl ⟨.csubq 0 0, ‹_›⟩,
    .inl ⟨.add 0 0 0, ‹_›⟩, .inl ⟨.sub 0 0 0, ‹_›⟩, .inl ⟨.tomsg 0, ‹_›⟩, .inl ⟨.frommsg 0, ‹_›⟩, .inr rfl]

theorem decodeOpc_of_opc {w : Word} {i : Instr} (h : fieldOpc w = i.opc) :
    decodeOpc w = if i.UnusedZero w then .cmd (i.atFields w) else .ill .unusedNonzero := by
  cases i <;>
    simp [decodeOpc, h, Instr.opc, Instr.UnusedZero, Instr.atFields, fields, slotFields, formN, formS, formD, formR2,
      formR3, eq_comm (a := 0#4)]

theorem decodeOpc_eq_cmd_iff {w : Word} {i j : Instr} (hj : fieldOpc w = j.opc) :
    decodeOpc w = .cmd i ↔ j.UnusedZero w ∧ j.atFields w = i := by
  rw [decodeOpc_of_opc hj]
  by_cases hz : j.UnusedZero w
  · rw [if_pos hz, Decoded.cmd.injEq, and_iff_right hz]
  · simp [hz]

/-! ### The round trip -/

theorem decodeWord_eq_cmd_iff_decodeOpc {w : Word} {i : Instr} :
    decodeWord w = .cmd i ↔ fieldRsv w = 0#12 ∧ decodeOpc w = .cmd i := by
  unfold decodeWord
  split <;> simp [*]

/-- The equivalence behind R80 to R85: decode and encode are inverse. -/
theorem decodeWord_eq_cmd_iff {w : Word} {i : Instr} : decodeWord w = .cmd i ↔ encode i = w := by
  rw [decodeWord_eq_cmd_iff_decodeOpc, encode_eq_iff, and_congr_right_iff]
  intro _
  constructor
  · intro h
    obtain ⟨j, hj⟩ | hu := opc_or_undefined w
    · obtain ⟨hz, rfl⟩ := (decodeOpc_eq_cmd_iff hj).1 h
      exact ⟨hj.trans (j.opc_atFields w).symm, hz⟩
    · simp [hu] at h
  · rintro ⟨hopc, hf⟩
    have hi := Instr.atFields_eq_self hf
    exact (decodeOpc_eq_cmd_iff hopc).2 ⟨by rwa [Instr.UnusedZero, hi], hi⟩

@[simp] theorem decodeWord_encode (i : Instr) : decodeWord (encode i) = .cmd i := decodeWord_eq_cmd_iff.2 rfl

/-- Settles O1: decode is the inverse of encode, and NPOLY's check is on the command decoded. -/
theorem decodeOfEncodeGivesTheCommand : Obligations.DecodeOfEncodeGivesTheCommand := by
  intro i npoly
  refine ⟨decodeWord_encode i, ?_, ?_⟩
  · rw [decodeBytes_bytesOfWord, decodeWord_encode]
  · simp only [decode, decodeWord_encode]

/-- Settles O2: encode is the inverse of decode. -/
theorem encodeOfDecodeGivesTheWord : Obligations.EncodeOfDecodeGivesTheWord :=
  fun _ _ => decodeWord_eq_cmd_iff.1

/-! ### The rows of the opcode table -/

/-- The mask of the form of a command (R82, R83). -/
def Instr.mask : Instr → Word
  | .nop => maskN
  | .tobytes _ | .compress _ | .tomsg _ => maskS
  | .frombytes _ | .decompress _ | .frommsg _ => maskD
  | .ntt _ _ | .invntt _ _ | .frommont _ _ | .reduce _ _ | .csubq _ _ => maskR2
  | .pmul _ _ _ | .pmac _ _ _ | .add _ _ _ | .sub _ _ _ => maskR3

/-- A command's row of the opcode table. -/
def Instr.row (i : Instr) : Row := ⟨i.mask, i.opc.setWidth 32⟩

theorem Instr.row_mem (i : Instr) : i.row ∈ opcodeTable := by
  cases i <;> simp [row, mask, opc, opcodeTable]

theorem exists_row_of_mem {r : Row} (h : r ∈ opcodeTable) : ∃ i : Instr, r = i.row := by
  simp only [opcodeTable, List.mem_cons, List.not_mem_nil, or_false] at h
  rcases h with rfl | rfl | rfl | rfl | rfl | rfl | rfl | rfl | rfl | rfl | rfl | rfl | rfl | rfl | rfl | rfl
  exacts [⟨.nop, rfl⟩, ⟨.tobytes 0, rfl⟩, ⟨.frombytes 0, rfl⟩, ⟨.compress 0, rfl⟩, ⟨.decompress 0, rfl⟩,
    ⟨.ntt 0 0, rfl⟩, ⟨.invntt 0 0, rfl⟩, ⟨.pmul 0 0 0, rfl⟩, ⟨.pmac 0 0 0, rfl⟩, ⟨.frommont 0 0, rfl⟩,
    ⟨.reduce 0 0, rfl⟩, ⟨.csubq 0 0, rfl⟩, ⟨.add 0 0 0, rfl⟩, ⟨.sub 0 0 0, rfl⟩, ⟨.tomsg 0, rfl⟩, ⟨.frommsg 0, rfl⟩]

theorem setWidth_eq_packWord (o : BitVec 8) : o.setWidth 32 = packWord o 0#4 0#4 0#4 := by
  rw [BitVec.setWidth_eq_append (by decide)]
  simp [packWord]

theorem Row.matchesWord_iff_fields {m w : Word} {o : BitVec 8} :
    Row.matchesWord ⟨m, o.setWidth 32⟩ w = true ↔
      fieldRsv w &&& fieldRsv m = 0#12 ∧ fieldOpc w &&& fieldOpc m = o ∧ fieldRd w &&& (slotFields m).1 = 0#4 ∧
        fieldRs1 w &&& (slotFields m).2.1 = 0#4 ∧ fieldRs2 w &&& (slotFields m).2.2 = 0#4 := by
  rw [Row.matchesWord, beq_iff_eq, setWidth_eq_packWord, eq_packWord_iff]
  simp only [fieldRsv, fieldOpc, fieldRd, fieldRs1, fieldRs2, slotFields, BitVec.extractLsb'_and]

theorem Instr.fieldRsv_mask (i : Instr) : fieldRsv i.mask = BitVec.allOnes 12 := by
  cases i <;> simp only [mask] <;> decide

theorem Instr.fieldOpc_mask (i : Instr) : fieldOpc i.mask = BitVec.allOnes 8 := by
  cases i <;> simp only [mask] <;> decide

@[simp] theorem slotFields_maskN : slotFields maskN = (BitVec.allOnes 4, BitVec.allOnes 4, BitVec.allOnes 4) := by decide
@[simp] theorem slotFields_maskS : slotFields maskS = (BitVec.allOnes 4, 0#4, BitVec.allOnes 4) := by decide
@[simp] theorem slotFields_maskD : slotFields maskD = (0#4, BitVec.allOnes 4, BitVec.allOnes 4) := by decide
@[simp] theorem slotFields_maskR2 : slotFields maskR2 = (0#4, 0#4, BitVec.allOnes 4) := by decide
@[simp] theorem slotFields_maskR3 : slotFields maskR3 = (0#4, 0#4, 0#4) := by decide

theorem Instr.unusedZero_iff_mask {i : Instr} {w : Word} :
    i.UnusedZero w ↔ fieldRd w &&& (slotFields i.mask).1 = 0#4 ∧ fieldRs1 w &&& (slotFields i.mask).2.1 = 0#4 ∧
      fieldRs2 w &&& (slotFields i.mask).2.2 = 0#4 := by
  change fields (i.atFields w) = (fieldRd w, fieldRs1 w, fieldRs2 w) ↔ _
  cases i <;> simp [mask, fields, atFields, eq_comm (a := 0#4), -BitVec.reduceAllOnes]

/-- A command's row matches the words that decode to a command of that row. -/
theorem Instr.row_matchesWord_iff {i : Instr} {w : Word} :
    i.row.matchesWord w = true ↔ decodeWord w = .cmd (i.atFields w) := by
  rw [decodeWord_eq_cmd_iff, encode_eq_iff, opc_atFields, row, Row.matchesWord_iff_fields, fieldRsv_mask,
    fieldOpc_mask, BitVec.and_allOnes, BitVec.and_allOnes, ← unusedZero_iff_mask]

/-- Two rows of one OPC are one row (R82). -/
theorem row_eq_of_opc_eq : ∀ r₁ ∈ opcodeTable, ∀ r₂ ∈ opcodeTable, r₁.opc = r₂.opc → r₁ = r₂ := by decide

theorem opc_of_matchesWord {r : Row} (hr : r ∈ opcodeTable) {w : Word} (h : r.matchesWord w = true) :
    r.opc = (fieldOpc w).setWidth 32 := by
  obtain ⟨i, rfl⟩ := exists_row_of_mem hr
  obtain ⟨-, hopc, -⟩ := encode_eq_iff.1 (decodeWord_eq_cmd_iff.1 (Instr.row_matchesWord_iff.1 h))
  rw [hopc, Instr.opc_atFields, Instr.row]

theorem usedFieldsBelow_row_iff {npoly : Nat} {i : Instr} {w : Word} :
    Machine.usedFieldsBelow npoly i.row w ↔ (i.atFields w).wf npoly = true := by
  change ((slotFields i.mask).1 = 0#4 → _) ∧ ((slotFields i.mask).2.1 = 0#4 → _) ∧
    ((slotFields i.mask).2.2 = 0#4 → _) ↔ _
  cases i <;> simp [Instr.mask, Instr.atFields, Instr.wf, Instr.slots]

/-- The row of a legal word is its command's. -/
theorem row_of_decode {npoly : Nat} {w : Word} {i : Instr} (h : decode npoly w = .cmd i) :
    i.row.matchesWord w = true ∧ Machine.usedFieldsBelow npoly i.row w := by
  obtain ⟨hd, hwf⟩ := decode_eq_cmd_iff.1 h
  obtain ⟨-, -, hf⟩ := encode_eq_iff.1 (decodeWord_eq_cmd_iff.1 hd)
  rw [Instr.row_matchesWord_iff, usedFieldsBelow_row_iff, Instr.atFields_eq_self hf]
  exact ⟨hd, hwf⟩

theorem exists_decode_iff_row {npoly : Nat} {w : Word} :
    (∃ i, decode npoly w = .cmd i) ↔
      ∃ r ∈ opcodeTable, r.matchesWord w = true ∧ Machine.usedFieldsBelow npoly r w := by
  constructor
  · rintro ⟨i, hi⟩
    exact ⟨i.row, i.row_mem, row_of_decode hi⟩
  · rintro ⟨r, hr, hmatch, hused⟩
    obtain ⟨i, rfl⟩ := exists_row_of_mem hr
    exact ⟨i.atFields w,
      decode_eq_cmd_iff.2 ⟨Instr.row_matchesWord_iff.1 hmatch, usedFieldsBelow_row_iff.1 hused⟩⟩

/-! ### Illegal words -/

/-- R85's field conditions leave out the words whose unused fields are 0 and whose used slots are below NPOLY. -/
theorem not_badFields_iff {npoly : Nat} {i : Instr} {w : Word} :
    ¬ Machine.badFields i npoly w ↔ i.UnusedZero w ∧ (i.atFields w).wf npoly = true := by
  cases i <;>
    simp [Machine.badFields, Machine.badN, Machine.badS, Machine.badD, Machine.badR2, Machine.badR3, Instr.UnusedZero,
      slotFields, fields, Instr.atFields, Instr.wf, Instr.slots, and_assoc, eq_comm (a := 0#4)]

/-- A legal word has RSV = 0, a defined OPC and no bad field (R84). -/
theorem fields_of_decode {npoly : Nat} {w : Word} {i : Instr} (h : decode npoly w = .cmd i) :
    fieldRsv w = 0#12 ∧ fieldOpc w = i.opc ∧ ∀ j : Instr, fieldOpc w = j.opc → ¬ Machine.badFields j npoly w := by
  obtain ⟨hd, hwf⟩ := decode_eq_cmd_iff.1 h
  obtain ⟨hrsv, hopc, -⟩ := encode_eq_iff.1 (decodeWord_eq_cmd_iff.1 hd)
  refine ⟨hrsv, hopc, fun j hj => ?_⟩
  obtain ⟨hzero, rfl⟩ := (decodeOpc_eq_cmd_iff hj).1 (decodeWord_eq_cmd_iff_decodeOpc.1 hd).2
  exact not_badFields_iff.2 ⟨hzero, hwf⟩

theorem exists_ill_of_not_cmd {npoly : Nat} {w : Word} (h : ∀ i, decode npoly w ≠ .cmd i) :
    ∃ why, decode npoly w = .ill why := by
  cases hd : decode npoly w with
  | cmd i => exact absurd hd (h i)
  | ill why => exact ⟨why, rfl⟩

end Sys2Proof

namespace Sys2Proof.Machine

/-- An illegal word written while idle raises ILL (R100). -/
theorem State.cmdWrite_of_not_legal {s : State} {w : Word} (hb : s.busy = false)
    (h : ∀ i, decode s.npoly w ≠ .cmd i) : s.cmdWrite w = s.raiseIll w := by
  obtain ⟨hbusy, -⟩ | ⟨-, -, hw⟩ | ⟨-, i, hi, -⟩ := s.cmdWrite_cases w
  · simp [hb] at hbusy
  · exact hw
  · exact absurd hi (h i)

/-- Settles O3: a word is legal by the row of the command it decodes to. -/
theorem legalWordsAreTheTableRows : Obligations.LegalWordsAreTheTableRows := by
  refine fun npoly w => ⟨exists_decode_iff_row, fun i hi => ?_, fun r₁ h₁ r₂ h₂ m₁ m₂ => ?_, ?_⟩
  · exact ⟨decodeWord_eq_cmd_iff.1 (decode_eq_cmd_iff.1 hi).1, i.row, i.row_mem, (row_of_decode hi).1, rfl⟩
  · exact row_eq_of_opc_eq r₁ h₁ r₂ h₂ ((opc_of_matchesWord h₁ m₁).trans (opc_of_matchesWord h₂ m₂).symm)
  · rintro s rfl hb hill
    exact State.cmdWrite_of_not_legal hb (not_exists.1 hill)

/-- Settles O4: each kind of word breaks a condition that a word that decodes meets. -/
theorem illegalWordsRaiseIll : Obligations.IllegalWordsRaiseIll := by
  refine ⟨fun s w hb hkind => ?_, by decide⟩
  have hill : ∀ i, decode s.npoly w ≠ .cmd i := by
    intro i hi
    obtain ⟨hrsv, hopc, hgood⟩ := fields_of_decode hi
    obtain hundef | hrsv' | ⟨j, hj, hbad⟩ := hkind
    · exact hundef i hopc
    · exact hrsv' hrsv
    · exact hgood j hj hbad
  exact ⟨exists_ill_of_not_cmd hill, State.cmdWrite_of_not_legal hb hill⟩

/-- Settles O5: the decoder evaluated on the words of L2-ENC. -/
theorem testVectorWordsDecode : Obligations.TestVectorWordsDecode := by
  unfold Obligations.TestVectorWordsDecode
  decide

end Sys2Proof.Machine
end

section
/-! Waiting for the external engines (R104, R120, R121, R125): what a step does with the move it takes, which moves end
a wait, what a CMD write hands to the engines, and how many answers make the command due. -/

namespace Sys2Proof.Machine

/-! ### The move a step takes -/

/-- Settles O6: with its completion next, the sequencer executes the due command. -/
theorem stepRunsTheDueCommand : Obligations.StepRunsTheDueCommand := by
  intro s i hr hb hext hm hi
  rw [step_eq_sequence hr hm]
  exact State.sequence_of_due (s := s.tick) (s.tick.due_iff.2 ⟨hb, hext⟩) hi

theorem step_eq_move {s : State} {m : Move} {ms : List Move} (hr : s.rstN = true) (hm : s.moves = m :: ms) :
    step s = s.tick.move m := by
  simp [step, State.advance, hm, hr]

theorem State.teDone_of_no_transform {s : State} (h : ∀ op, s.ext ≠ .transform op) : s.teDone = s := by
  obtain ⟨⟨op, hop⟩, -⟩ | ⟨-, hs⟩ := s.teDone_cases
  · exact absurd hop (h op)
  · exact hs

theorem State.tbWrite_of_no_transform {s : State} (h : ∀ op, s.ext ≠ .transform op) (k : BitVec 8) (v : Coef) :
    s.tbWrite k v = s := by
  obtain ⟨⟨op, hop⟩, -⟩ | ⟨-, hs⟩ := s.tbWrite_cases k v
  · exact absurd hop (h op)
  · exact hs

theorem State.bmRsp_of_no_basemul {s : State} (h : ∀ rs, s.ext ≠ .basemul rs) : s.bmRsp = s := by
  obtain ⟨x, y, rs, hrs, -⟩ | ⟨rs, -, hrs, -⟩ | ⟨-, hs⟩ := s.bmRsp_cases
  · exact absurd hrs (h _)
  · exact absurd hrs (h rs)
  · exact hs

/-- Settles O11: a stray answer leaves the state whose move it is as it was. -/
theorem strayEngineAnswersAreIgnored : Obligations.StrayEngineAnswersAreIgnored := by
  intro s m ms hr hm hstray
  have htick : s.tick = { s with moves := ms, rsp := none } := by rw [State.tick, hm, List.tail_cons]
  rw [step_eq_move hr hm, ← htick]
  obtain ⟨rfl | ⟨k, v, rfl⟩, hext⟩ | ⟨rfl, hext⟩ := hstray
  · exact congrArg _ (State.teDone_of_no_transform (s := s.tick) hext)
  · exact congrArg _ (State.tbWrite_of_no_transform (s := s.tick) hext k v)
  · exact congrArg _ (State.bmRsp_of_no_basemul (s := s.tick) hext)

/-! ### What ends a wait -/

/-- While an answer is awaited the sequencer does nothing (R104). -/
theorem State.sequence_of_waiting {s : State} (hext : s.ext ≠ .none) : s.sequence = .next s := by
  obtain ⟨-, h⟩ | ⟨hd, -⟩ | ⟨hd, -⟩ := s.sequence_cases
  · exact h
  all_goals exact absurd (s.due_iff.1 hd).2 hext

/-- Settles O9: each move of a step but the awaited answer and rst_n low keeps what is in flight. -/
theorem onlyAnswersOrResetEndAWait : Obligations.OnlyAnswersOrResetEndAWait := by
  intro s t hr hb hext hte hbm hrst h
  obtain ⟨-, -, hs⟩ | ⟨-, r, ms, -, rfl⟩ | ⟨-, hm, rfl⟩ | ⟨-, hm, rfl⟩ | ⟨-, k, v, -, rfl⟩ | ⟨level, hm, rfl⟩ | ⟨hlow, -⟩ :=
    step_cases h
  · obtain rfl := Host.Outcome.next.inj ((State.sequence_of_waiting (s := s.tick) hext).symm.trans hs)
    exact ⟨hb, rfl, rfl, rfl⟩
  · obtain ⟨ie, done, ill, rej, rsp, ha⟩ := State.access_of_busy (s := s.tick) hb r
    rw [ha]
    exact ⟨hb, rfl, rfl, rfl⟩
  · rw [State.teDone_of_no_transform (s := s.tick) fun op hop => hte op hop hm]
    exact ⟨hb, rfl, rfl, rfl⟩
  · rw [State.bmRsp_of_no_basemul (s := s.tick) fun rs hrs => hbm rs hrs hm]
    exact ⟨hb, rfl, rfl, rfl⟩
  · obtain ⟨-, hw⟩ | ⟨-, hw⟩ := s.tick.tbWrite_cases k v <;> rw [hw] <;> exact ⟨hb, rfl, rfl, rfl⟩
  · cases level with
    | true => exact ⟨hb, rfl, rfl, rfl⟩
    | false => exact absurd hm hrst
  · simp [hr] at hlow

/-! ### What a CMD write hands to the engines -/

/-- A legal word written while idle is accepted and its command started (R100). -/
theorem State.cmdWrite_of_legal {s : State} {w : Word} {i : Instr} (hb : s.busy = false)
    (hi : decode s.npoly w = .cmd i) : s.cmdWrite w = (s.accept w).startExternal i := by
  simp [State.cmdWrite, hb, hi]

theorem State.cmdWrite_of_busy {s : State} (hb : s.busy = true) (w : Word) : s.cmdWrite w = s.raiseRej := by
  simp [State.cmdWrite, hb]

/-- The commands that call no engine request nothing (R104). -/
theorem State.startExternal_of_other (s : State) {i : Instr}
    (h : ∀ rd rs1 rs2, i ≠ .ntt rd rs1 ∧ i ≠ .invntt rd rs1 ∧ i ≠ .pmul rd rs1 rs2 ∧ i ≠ .pmac rd rs1 rs2) :
    s.startExternal i = { s with ext := .none } := by
  cases i with
  | ntt rd rs1 => simp at h
  | invntt rd rs1 => simp at h
  | pmul rd rs1 rs2 => simp at h
  | pmac rd rs1 rs2 => simp at h
  | _ => rfl

/-- Settles O52: the CMD register's write is refused, raises ILL, or accepts the word and starts its command. -/
theorem cmdWriteAcceptsRefusesOrRaises : Obligations.CmdWriteAcceptsRefusesOrRaises := by
  intro s r hs ha hw
  have hacc : s.access r = (s.cmdWrite r.wdata).respond 0 false :=
    State.access_registerWrite (reg := .cmd) hs (congrArg some ha.symm) hw
  rw [hacc]
  refine ⟨fun hb => ?_, fun hb hill => ?_, fun hb i hi => ?_⟩
  · rw [State.cmdWrite_of_busy hb]
    rfl
  · rw [State.cmdWrite_of_not_legal hb hill]
    rfl
  · rw [State.cmdWrite_of_legal hb hi]
    refine ⟨((s.accept r.wdata).startExternal i).tb, ((s.accept r.wdata).startExternal i).ext, ?_, ?_, ?_, ?_, ?_⟩
    · obtain ⟨tb, ext, hx, -⟩ := (s.accept r.wdata).startExternal_eq i
      rw [hx]
      rfl
    · rintro rd rs1 rfl
      exact ⟨rfl, rfl⟩
    · rintro rd rs1 rfl
      exact ⟨rfl, rfl⟩
    · rintro rd rs1 rs2 (rfl | rfl) <;> exact ⟨rfl, rfl⟩
    · intro hother
      rw [State.startExternal_of_other _ hother]
      exact ⟨rfl, rfl⟩

/-! ### The requests depend on the word -/

/-- The twiddles of the 128 requests are those of the pairs, whatever the operands hold (R125, R162). -/
theorem State.zetas_bmRequests (s : State) (rs1 rs2 : Slot) :
    (s.bmRequests rs1 rs2).map (·.zeta) = (List.range 128).map (pairZeta s.collab) := by
  rw [State.bmRequests, List.map_map]
  rfl

theorem State.startExternal_shape_congr {s t : State} (h : s.collab = t.collab) (i : Instr) :
    (s.startExternal i).ext.shape = (t.startExternal i).ext.shape := by
  have hzetas (rs1 rs2 : Slot) :
      (Ext.basemul (s.bmRequests rs1 rs2)).shape = (Ext.basemul (t.bmRequests rs1 rs2)).shape := by
    rw [Ext.shape, Ext.shape, State.zetas_bmRequests, State.zetas_bmRequests, h]
  cases i with
  | pmul rd rs1 rs2 => exact hzetas rs1 rs2
  | pmac rd rs1 rs2 => exact hzetas rs1 rs2
  | _ => rfl

/-- Settles O60: both blocks start the word's command, whose requests have one shape. -/
theorem requestsDependOnTheWordAlone : Obligations.RequestsDependOnTheWordAlone := by
  intro s1 s2 w i hb1 hb2 hslots hcollab hi
  have hi2 : decode s2.npoly w = .cmd i := by rwa [State.npoly, ← hslots]
  rw [State.cmdWrite_of_legal hb1 hi, State.cmdWrite_of_legal hb2 hi2]
  exact State.startExternal_shape_congr (s := s1.accept w) (t := s2.accept w) hcollab i

/-! ### How many answers make a command due -/

theorem State.due_eq_false {s : State} (hext : s.ext ≠ .none) : s.due = false := by
  simp [State.due, hext]

/-- A nonempty queue of base multiplications is answered by exactly as many responses as it holds (R121). -/
theorem State.due_iterate_bmRsp {s : State} {rs : List BmRequest} (hb : s.busy = true) (hext : s.ext = .basemul rs)
    (hne : rs ≠ []) :
    (∀ n < rs.length, (State.bmRsp^[n] s).due = false) ∧ (State.bmRsp^[rs.length] s).due = true := by
  induction rs generalizing s with
  | nil => exact absurd rfl hne
  | cons x rs ih =>
    have hwait : s.due = false := State.due_eq_false (by simp [hext])
    cases rs with
    | nil =>
      refine ⟨fun n hn => ?_, ?_⟩
      · obtain rfl : n = 0 := by simpa using hn
        exact hwait
      · have hrsp : s.bmRsp = { s with ext := .none } := by rw [State.bmRsp, hext]
        change s.bmRsp.due = true
        rw [hrsp]
        exact (State.due_iff _).2 ⟨hb, rfl⟩
    | cons y rs =>
      have hrsp : s.bmRsp = { s with ext := .basemul (y :: rs) } := by rw [State.bmRsp, hext]
      obtain ⟨hlt, hall⟩ := ih (s := s.bmRsp) (by rw [hrsp]; exact hb) (by rw [hrsp]) (List.cons_ne_nil y rs)
      refine ⟨fun n hn => ?_, hall⟩
      cases n with
      | zero => exact hwait
      | succ n => exact hlt n (Nat.lt_of_succ_lt_succ hn)

/-- PMUL and PMAC await one response for each of their 128 requests (R125). -/
theorem State.due_iterate_bmRsp_bmRequests {s t : State} {rs1 rs2 : Slot} (hb : t.busy = true)
    (hext : t.ext = .basemul (s.bmRequests rs1 rs2)) :
    (∀ n < 128, (State.bmRsp^[n] t).due = false) ∧ (State.bmRsp^[128] t).due = true := by
  have hlen : (s.bmRequests rs1 rs2).length = 128 := by simp [State.bmRequests]
  rw [← hlen]
  exact State.due_iterate_bmRsp hb hext (List.ne_nil_of_length_eq_add_one hlen)

/-- Settles O10: the answers an accepted command awaits are those of the requests it starts with. -/
theorem answersMakeACommandDue : Obligations.AnswersMakeACommandDue := by
  intro s w i hb hi
  rw [State.cmdWrite_of_legal hb hi]
  cases i with
  | pmul rd rs1 rs2 => exact State.due_iterate_bmRsp_bmRequests (s := s.accept w) rfl rfl
  | pmac rd rs1 rs2 => exact State.due_iterate_bmRsp_bmRequests (s := s.accept w) rfl rfl
  | ntt rd rs1 => exact ⟨rfl, rfl⟩
  | invntt rd rs1 => exact ⟨rfl, rfl⟩
  | _ => rfl

end Sys2Proof.Machine
end

section
/-! The coefficient functions and the reducers as integers (R110, R111, R115, R122, R123, 93 I-GK1 to I-GK3): csubq and
the adders, BARRETT and MONT against their contracts, and the default reducers and base multiplier. -/

namespace Sys2Proof.Machine

/-! ### csubq and the adders -/

/-- Below q, csubq does nothing (R110). -/
theorem csubq_of_lt {x : Coef} (h : x.toInt < 3329) : csubq x = x := by
  rw [csubq, if_neg (by omega)]

/-- Settles O12: csubq is one subtraction of q from 3329 up, and nothing below. -/
theorem csubqFormulaAndProperties : Obligations.CsubqFormulaAndProperties := by
  intro x
  have hx := coef_range x
  have hval := toInt_csubq x
  refine ⟨hval, ?_, fun h0 h1 => ⟨?_, ?_⟩, fun h => csubq_of_lt h.2, fun h => ?_, fun h => csubq_of_lt (by omega),
    fun h0 h1 => csubq_of_lt ?_⟩
  · split at hval <;> omega
  · split at hval <;> exact ⟨by omega, by omega⟩
  · split at hval <;> omega
  · rw [if_pos (by omega)] at hval
    omega
  · split at hval <;> omega

/-- Settles O13: a sum or difference wrapped at 16 bits is itself where it fits. -/
theorem addersWrapAtSixteenBits : Obligations.AddersWrapAtSixteenBits := by
  intro x y
  have hadd : (add16 x y).toInt = (x.toInt + y.toInt + 32768) % 65536 - 32768 := toInt_wrap16 _
  have hsub : (sub16 x y).toInt = (x.toInt - y.toInt + 32768) % 65536 - 32768 := toInt_wrap16 _
  refine ⟨by omega, by omega, fun hx hx' hy hy' => ?_⟩
  omega

/-! ### BARRETT -/

theorem toInt_ofNat_coef {n : Nat} (h : n < 32768) : (BitVec.ofNat 16 n : Coef).toInt = n := by
  rw [BitVec.toInt_ofNat', Int.bmod_def]
  omega

/-- barrettOf answers the residue mod q, or that plus q where it may and `high` says so (R122). -/
theorem toInt_barrettOf (high : Coef → Bool) (x : Coef) :
    (barrettOf high x).toInt =
      if x.toInt % 3329 + 3329 < 4096 ∧ high x = true then x.toInt % 3329 + 3329 else x.toInt % 3329 := by
  have h0 : 0 ≤ x.toInt % 3329 := Int.emod_nonneg _ (by decide)
  have h1 : x.toInt % 3329 < 3329 := Int.emod_lt_of_pos _ (by decide)
  obtain ⟨r, hr⟩ := Int.eq_ofNat_of_zero_le h0
  simp only [barrettOf, hr, Int.toNat_natCast]
  by_cases hh : r + 3329 < 4096 ∧ high x = true
  · rw [if_pos hh, if_pos (by exact_mod_cast hh), toInt_ofNat_coef (by omega)]
    omega
  · rw [if_neg hh, if_neg (by exact_mod_cast hh), toInt_ofNat_coef (by omega)]

/-- Settles O14: a function within the contract is the one whose open bit says where it answers q or more. -/
theorem barrettIsExactlyItsContract : Obligations.BarrettIsExactlyItsContract := by
  intro f
  constructor
  · intro hf
    refine ⟨fun x => decide (3329 ≤ (f x).toInt), funext fun x => BitVec.eq_of_toInt_eq ?_⟩
    obtain ⟨hcongr, h0, h1⟩ := hf x
    rw [toInt_barrettOf]
    simp only [decide_eq_true_eq]
    split <;> omega
  · rintro ⟨high, rfl⟩ x
    rw [toInt_barrettOf]
    split <;> omega

@[simp] theorem barrett_defaults (x : Coef) : barrett .defaults x = barrettDefault x := rfl

/-- The default BARRETT as an integer: nothing wraps (I-GK1). -/
theorem toInt_barrettDefault (x : Coef) :
    (barrettDefault x).toInt = x.toInt - 20159 * x.toInt / 67108864 * 3329 := by
  have := coef_range x
  exact toInt_wrap16_of_range (by omega) (by omega)

/-! ### MONT -/

theorem montInRange_iff {y : Word} : montInRange y = true ↔ -109084672 ≤ y.toInt ∧ y.toInt < 109084672 := by
  simp [montInRange]

/-- In the contract interval, montOf answers the residue, or its negative representative where it is nonzero and
`negative` says so (R123). -/
theorem toInt_montOf {rinv : Nat} {negative : Word → Bool} {outside : Word → Coef} {y : Word}
    (hy : montInRange y = true) :
    (montOf rinv negative outside y).toInt =
      if y.toInt * rinv % 3329 ≠ 0 ∧ negative y = true then y.toInt * rinv % 3329 - 3329
      else y.toInt * rinv % 3329 := by
  simp only [montOf, if_pos hy]
  split <;> exact toInt_wrap16_of_range (by omega) (by omega)

/-- Settles O15: a function within the contract is the one whose open bit says where it answers a negative value, and
which is itself outside the interval. -/
theorem montIsExactlyItsContract : Obligations.MontIsExactlyItsContract := by
  intro f rinv
  constructor
  · intro hf
    refine ⟨fun y => decide ((f y).toInt < 0), f, funext fun y => ?_⟩
    by_cases hy : montInRange y = true
    · obtain ⟨h1, h2⟩ := montInRange_iff.1 hy
      obtain ⟨hcongr, hlo, hhi⟩ := hf y h1 h2
      refine BitVec.eq_of_toInt_eq ?_
      rw [toInt_montOf hy]
      simp only [decide_eq_true_eq]
      split <;> omega
    · rw [montOf, if_neg hy]
  · rintro ⟨negative, outside, rfl⟩ y h1 h2
    rw [toInt_montOf (montInRange_iff.2 ⟨h1, h2⟩)]
    split <;> omega

/-- The default MONT meets its contract with 169 = 2^-16 mod q, since its result times 2^16 is y - u·q (I-GK2). -/
theorem montContract_montDefault : MontContract montDefault 169 := by
  intro y h1 h2
  have hval := toInt_montDefault y (by omega) (by omega)
  have hu := coef_range (wrap16 (y.toInt * 62209))
  refine ⟨?_, ?_, ?_⟩ <;> omega

/-- Settles O16: 20159·q is 2^26 + 447, so BARRETT's t is the quotient of x by q, but one less where x is a negative
multiple of q. -/
theorem defaultReducersMeetTheirContracts : Obligations.DefaultReducersMeetTheirContracts := by
  refine ⟨fun x => ?_, fun x => ?_, fun x => ?_, montContract_montDefault, by decide⟩
  all_goals
    have hx := coef_range x
    rw [barrett_defaults, toInt_barrettDefault]
    omega

/-! ### The default base multiplier -/

/-- x is congruent to u mod q and within (-q, q), as MONT answers (R123). -/
def SmallResidue (x : Coef) (u : Int) : Prop := x.toInt ≡ u [ZMOD 3329] ∧ -3329 < x.toInt ∧ x.toInt < 3329

/-- fqmul is the product times 169 mod q where the product is in MONT's interval (I-GK3, R123). -/
theorem smallResidue_fqmulDefault {a b : Coef} (h1 : -109084672 ≤ a.toInt * b.toInt)
    (h2 : a.toInt * b.toInt < 109084672) : SmallResidue (fqmulDefault a b) (a.toInt * b.toInt * 169) := by
  have hprod : (BitVec.ofInt 32 (a.toInt * b.toInt)).toInt = a.toInt * b.toInt := by
    rw [BitVec.toInt_ofInt, Int.bmod_def]
    omega
  have hmont := montContract_montDefault (BitVec.ofInt 32 (a.toInt * b.toInt))
  rw [hprod] at hmont
  exact hmont h1 h2

/-- fqmul of two operands of the base multiplier (I-GK3). -/
theorem smallResidue_fqmulDefault_of_lt {a b : Coef} (ha : 0 ≤ a.toInt) (ha' : a.toInt < 4096) (hb : 0 ≤ b.toInt)
    (hb' : b.toInt < 4096) : SmallResidue (fqmulDefault a b) (a.toInt * b.toInt * 169) :=
  smallResidue_fqmulDefault (by nlinarith) (by nlinarith)

/-- fqmul of a small residue and a twiddle (I-GK3). -/
theorem SmallResidue.fqmulDefault {x z : Coef} {u : Int} (hx : SmallResidue x u) (hz : -3329 < z.toInt)
    (hz' : z.toInt < 3329) : SmallResidue (fqmulDefault x z) (u * z.toInt * 169) := by
  obtain ⟨hxu, hx1, hx2⟩ := hx
  obtain ⟨hcongr, hrange⟩ := smallResidue_fqmulDefault (a := x) (b := z) (by nlinarith) (by nlinarith)
  exact ⟨hcongr.trans ((hxu.mul_right _).mul_right _), hrange⟩

/-- The base multiplier's sums do not wrap (I-GK3). -/
theorem SmallResidue.add {x y : Coef} {u v : Int} (hx : SmallResidue x u) (hy : SmallResidue y v) :
    (x + y).toInt ≡ u + v [ZMOD 3329] ∧ -6658 < (x + y).toInt ∧ (x + y).toInt < 6658 := by
  obtain ⟨hxu, hx1, hx2⟩ := hx
  obtain ⟨hyv, hy1, hy2⟩ := hy
  have hsum : (x + y).toInt = x.toInt + y.toInt := by
    rw [BitVec.toInt_add, Int.bmod_def]
    omega
  rw [hsum]
  exact ⟨hxu.add hyv, by omega, by omega⟩

/-- Settles O18: each result of the default base multiplier is a sum of two fqmul values. -/
theorem defaultBasemulIsTheScaledProduct : Obligations.DefaultBasemulIsTheScaledProduct := by
  refine ⟨fun a0 a1 b0 b1 z ha0 ha0' ha1 ha1' hb0 hb0' hb1 hb1' hz hz' => ?_, by decide, by decide, rfl, by decide,
    fun c => ?_⟩
  · have h00 := smallResidue_fqmulDefault_of_lt ha0 ha0' hb0 hb0'
    have h01 := smallResidue_fqmulDefault_of_lt ha0 ha0' hb1 hb1'
    have h10 := smallResidue_fqmulDefault_of_lt ha1 ha1' hb0 hb0'
    have h11 := smallResidue_fqmulDefault_of_lt ha1 ha1' hb1 hb1'
    obtain ⟨hr0, hr0lo, hr0hi⟩ := (h11.fqmulDefault hz hz').add h00
    obtain ⟨hr1, hr1lo, hr1hi⟩ := h01.add h10
    refine ⟨hr0.trans (congrArg (· % 3329) ?_), hr1.trans (congrArg (· % 3329) ?_), hr0lo, hr0hi, hr1lo, hr1hi⟩ <;> ring
  · cases c <;> simp only [bmScale] <;> omega

end Sys2Proof.Machine
end

section
/-! The default engine on a constant (R126, C6): each layer of its NTT gives both halves of a block the constant, each
layer of its INVNTT doubles it, and no twiddle enters. -/

namespace Sys2Proof.Machine

/-- The block of 2·2^d coefficients that is the constant c. -/
def constBlock : Nat → Coef → List Coef
  | 0, c => [c, 0]
  | d + 1, c => constBlock d c ++ List.replicate (2 ^ (d + 1)) 0

/-- The NTT of a constant: c for every pair. -/
def pairsBlock : Nat → Coef → List Coef
  | 0, c => [c, 0]
  | d + 1, c => pairsBlock d c ++ pairsBlock d c

@[simp] theorem length_constBlock (d : Nat) (c : Coef) : (constBlock d c).length = 2 ^ (d + 1) := by
  induction d with
  | zero => rfl
  | succ d ih => rw [constBlock, List.length_append, ih, List.length_replicate]; omega

@[simp] theorem length_pairsBlock (d : Nat) (c : Coef) : (pairsBlock d c).length = 2 ^ (d + 1) := by
  induction d with
  | zero => rfl
  | succ d ih => rw [pairsBlock, List.length_append, ih]; omega

theorem map_constBlock {f : Coef → Coef} (hf : f 0 = 0) (d : Nat) (c : Coef) :
    (constBlock d c).map f = constBlock d (f c) := by
  induction d with
  | zero => simp only [constBlock, List.map_cons, List.map_nil, hf]
  | succ d ih => simp only [constBlock, List.map_append, List.map_replicate, ih, hf]

theorem map_pairsBlock {f : Coef → Coef} (hf : f 0 = 0) (d : Nat) (c : Coef) :
    (pairsBlock d c).map f = pairsBlock d (f c) := by
  induction d with
  | zero => simp only [pairsBlock, List.map_cons, List.map_nil, hf]
  | succ d ih => simp only [pairsBlock, List.map_append, ih]

/-- A product with 0 is 0 (I-GK3). -/
@[simp] theorem fqmulDefault_zero (z : Coef) : fqmulDefault z 0 = 0 := by
  have h : montDefault 0 = 0 := by decide
  simpa [fqmulDefault] using h

/-- A butterfly with zeros leaves its first operand (I-GK5). -/
theorem zipWith_zeros {f : Coef → Coef → Coef} (hf : ∀ x, f x 0 = x) (l : List Coef) :
    List.zipWith f l (List.replicate l.length 0) = l := by
  induction l with
  | nil => rfl
  | cons x l ih => rw [List.length_cons, List.replicate_succ, List.zipWith_cons_cons, hf, ih]

theorem nttDefaultBlock_constBlock (d k : Nat) (c : Coef) : nttDefaultBlock d k (constBlock d c) = pairsBlock d c := by
  induction d generalizing k with
  | zero => rfl
  | succ d ih =>
    have hl := length_constBlock d c
    have hadd := zipWith_zeros (f := (· + ·)) (fun x => by simp) (constBlock d c)
    have hsub := zipWith_zeros (f := (· - ·)) (fun x => by simp) (constBlock d c)
    rw [hl] at hadd hsub
    simp only [nttDefaultBlock, constBlock, List.take_left' hl, List.drop_left' hl, List.map_replicate,
      fqmulDefault_zero, hadd, hsub, ih, pairsBlock]

/-- One layer of the INVNTT on a constant (I-GK6). -/
def doubled (c : Coef) : Coef := barrettDefault (c + c)

theorem invnttDefaultBlock_pairsBlock (d k : Nat) (c : Coef) :
    invnttDefaultBlock d k (pairsBlock d c) = constBlock d (doubled^[d] c) := by
  induction d generalizing k with
  | zero => rfl
  | succ d ih =>
    have hl := length_pairsBlock d c
    have hzero : doubled 0 = 0 := by decide
    have hmap := map_constBlock hzero d (doubled^[d] c)
    simp only [invnttDefaultBlock, pairsBlock, List.take_left' hl, List.drop_left' hl, ih, List.zipWith_self,
      sub_self, fqmulDefault_zero, List.map_const', length_constBlock]
    rw [Function.iterate_succ_apply', constBlock, ← hmap]
    rfl

theorem constBlock_eq_cons (d : Nat) (c : Coef) : constBlock d c = c :: List.replicate (2 ^ (d + 1) - 1) 0 := by
  induction d with
  | zero => rfl
  | succ d ih =>
    rw [constBlock, ih, List.cons_append, List.replicate_append_replicate]
    have hpos := Nat.two_pow_pos d
    congr 2
    omega

/-- A constant as the engine's 256 values. -/
theorem constBlock_seven (c : Coef) : constBlock 7 c = c :: List.replicate 255 0 := constBlock_eq_cons 7 c

/-- The INVNTT after the NTT on a constant, with f applied between them (R120). -/
theorem transform_inverse_forward_const {f : Coef → Coef} (hf : f 0 = 0) (c : Coef) :
    transform .defaults .inverse ((transform .defaults .forward (c :: List.replicate 255 0)).map f) =
      fqmulDefault (doubled^[7] (f c)) 1441#16 :: List.replicate 255 0 := by
  have hzero : fqmulDefault 0 1441#16 = 0 := by decide
  rw [← constBlock_seven, transform, transform, nttDefaultBlock_constBlock, map_pairsBlock hf,
    invnttDefaultBlock_pairsBlock, map_constBlock hzero, constBlock_seven]

/-- Settles O17: the transforms of the constant 1 double it seven times and scale it, which leaves 1353. -/
theorem defaultEngineLacksInvolution : Obligations.DefaultEngineLacksInvolution := by
  have hval : ((transform .defaults .inverse ((transform .defaults .forward (1 :: List.replicate 255 0)).map
      (barrett .defaults))).map fun x => csubq (barrett .defaults (mont .defaults (fromMontProduct x)))) =
        1353 :: List.replicate 255 0 := by
    have hdoubled : doubled^[7] (barrett .defaults 1) = 128 := by decide
    have hscaled : fqmulDefault 128 1441#16 = wrap16 (-1044) := by decide
    have hhead : csubq (barrett .defaults (mont .defaults (fromMontProduct (wrap16 (-1044))))) = 1353 := by decide
    have hzero : csubq (barrett .defaults (mont .defaults (fromMontProduct 0))) = 0 := by decide
    rw [transform_inverse_forward_const (by decide), List.map_cons, List.map_replicate, hdoubled, hscaled, hhead, hzero]
  refine ⟨fun hinv => ?_, hval⟩
  have hcanon : ∀ x ∈ 1 :: List.replicate 255 (0 : Coef), Canonical x := by
    intro x hx
    obtain rfl | hx := List.mem_cons.1 hx
    · decide
    · rw [List.eq_of_mem_replicate hx]
      decide
  have hone := hinv (1 :: List.replicate 255 0) (by rw [List.length_cons, List.length_replicate]) hcanon
  rw [hval] at hone
  exact absurd (List.cons.inj hone).1 (by decide)

end Sys2Proof.Machine
end

section
/-! The frame of a command (R21, R23, R59, R101, R103): registers, TB and the memory outside its result range. -/

namespace Sys2Proof.Machine

/-- A command whose results leave TB alone leaves it alone. -/
theorem State.command_tb {i : Instr} {f : State → State} {s t : State} (h : s.command i f = .next t)
    (hf : (f s).tb = s.tb) : t.tb = s.tb := by
  obtain ⟨-, he⟩ | ⟨-, he⟩ := s.command_cases i f <;> obtain rfl := Host.Outcome.next.inj (he.symm.trans h)
  · exact hf
  · rfl

/-- TB is NTT's and INVNTT's alone (R24, R120). -/
theorem exec_tb {i : Instr} {s t : State} (h : exec i s = .next t)
    (hi : ∀ rd rs1, i ≠ .ntt rd rs1 ∧ i ≠ .invntt rd rs1) : t.tb = s.tb := by
  cases i with
  | ntt rd rs1 => exact absurd rfl (hi rd rs1).1
  | invntt rd rs1 => exact absurd rfl (hi rd rs1).2
  | _ =>
    simp only [exec, execNop, execTobytes, execFrombytes, execCompress, execDecompress, execPmul, State.pmulWith, execPmac,
      State.pmacWith, execFrommont, execReduce, execCsubq, execAdd, execSub, execTomsg, execFrommsg] at h
    exact State.command_tb h rfl

/-- NOP alone has no result range (R59, R200). -/
theorem eq_nop_of_resultRange {i : Instr} (h : resultRange i = none) : i = .nop := by
  cases i with
  | nop => rfl
  | _ => simp [resultRange] at h

/-- NOP writes nothing (R200). -/
theorem exec_nop_mem {s t : State} (h : exec .nop s = .next t) : t.mem = s.mem := by
  have hnop : exec .nop s = .next s.finish := State.command_of_wf (i := .nop) (f := id) rfl
  obtain rfl := Host.Outcome.next.inj (hnop.symm.trans h)
  rfl

/-- A command's results lie in its result range (R59, R101). -/
theorem exec_sameOutside {i : Instr} {s t : State} {a n : Nat} (hw : i.wf s.npoly = true) (h : exec i s = .next t)
    (hr : resultRange i = some (a, n)) : SameOutside s.mem t.mem a n := by
  obtain ⟨bs, tb, hl, he⟩ := exec_completesWithRun hw hr
  obtain rfl := Host.Outcome.next.inj (he.symm.trans h)
  have hsame := Memory.sameOutside_writeRun s.mem a (fillFree s.freeIx a bs)
  rwa [length_fillFree, hl] at hsame

/-- Settles O39: a command's completion, its use of TB and its run of result bytes. -/
theorem commandFrame : Obligations.CommandFrame := by
  intro i s t hw h
  obtain ⟨m, tb, k, -, -, rfl⟩ := exec_of_wf hw h
  refine ⟨rfl, rfl, rfl, rfl, rfl, rfl, rfl, rfl, rfl, exec_tb h, ?_⟩
  cases hr : resultRange i with
  | none =>
    obtain rfl := eq_nop_of_resultRange hr
    exact exec_nop_mem h
  | some range => exact exec_sameOutside hw h hr

end Sys2Proof.Machine
end

section
/-! What the statements of the commands share: the events of a command's word (R100, R211, R212), its fields as a
number (R80), its completion (R103), and a result element that has a value. -/

namespace Sys2Proof

open Sys2Proof.Laws.EncodeFields (fields)

/-- A word of i's OPC with RSV = 0 and no bad field is the word of a command of i's row (R84). -/
theorem decode_of_not_badFields {npoly : Nat} {i : Instr} {w : Word} (hopc : fieldOpc w = i.opc)
    (hrsv : fieldRsv w = 0#12) (hgood : ¬ Machine.badFields i npoly w) : decode npoly w = .cmd (i.atFields w) := by
  obtain ⟨hzero, hwf⟩ := not_badFields_iff.1 hgood
  exact decode_eq_cmd_iff.2 ⟨decodeWord_eq_cmd_iff_decodeOpc.2 ⟨hrsv, (decodeOpc_eq_cmd_iff hopc).2 ⟨hzero, rfl⟩⟩, hwf⟩

/-- Bit vectors side by side, as numbers. -/
theorem toNat_append_eq_add {m n : Nat} (x : BitVec m) (y : BitVec n) :
    (x ++ y).toNat = x.toNat * 2 ^ n + y.toNat := by
  rw [BitVec.toNat_append, ← Nat.shiftLeft_add_eq_or_of_lt y.isLt, Nat.shiftLeft_eq]

theorem toNat_packWord (o : BitVec 8) (rd rs1 rs2 : Slot) :
    (packWord o rd rs1 rs2).toNat = Machine.wordNumber o.toNat rd.toNat rs1.toNat rs2.toNat := by
  simp only [packWord, toNat_append_eq_add, Machine.wordNumber, BitVec.toNat_ofNat]
  omega

theorem toNat_encode (i : Instr) :
    (encode i).toNat =
      Machine.wordNumber i.opc.toNat (fields i).1.toNat (fields i).2.1.toNat (fields i).2.2.toNat := by
  rw [encode_eq_packWord, toNat_packWord]

end Sys2Proof

namespace Sys2Proof.Machine

/-- The events of the words of a command's OPC are refusal, ILL by R85's field conditions, or acceptance (R100). -/
theorem wordEvents (i : Instr) : WordEvents i.opc (badFields i) := by
  intro s w hopc
  refine ⟨fun hb => State.cmdWrite_of_busy hb w, fun hb hbad => State.cmdWrite_of_not_legal hb fun j hj => ?_,
    fun hb hgood => ?_⟩
  · obtain ⟨hrsv, -, hfields⟩ := fields_of_decode hj
    obtain hrsv' | hbad := hbad
    · exact hrsv' hrsv
    · exact hfields i hopc hbad
  · obtain ⟨hrsv, hfields⟩ := not_or.1 hgood
    rw [State.cmdWrite_of_legal hb (decode_of_not_badFields hopc (not_not.1 hrsv) hfields)]
    obtain ⟨tb, ext, hx, -⟩ := (s.accept w).startExternal_eq (i.atFields w)
    rw [hx]
    exact ⟨rfl, rfl, rfl, rfl, rfl, rfl⟩

/-- A command the block has completes (R103). -/
theorem completes_of_wf {i : Instr} {s t : State} (hw : i.wf s.npoly = true) (h : exec i s = .next t) :
    Completes i s t := by
  obtain ⟨m, tb, k, -, -, rfl⟩ := exec_of_wf hw h
  exact ⟨h, rfl, rfl, rfl, rfl, rfl, rfl, rfl, rfl⟩

theorem exec_npoly {i : Instr} {s t : State} (h : exec i s = .next t) : t.npoly = s.npoly := by
  obtain ⟨hslots, -⟩ := State.params_eq_iff.1 (exec_params h)
  rw [State.npoly, hslots, State.npoly]

/-- A result byte that has a value is what BUF then holds (R101). -/
theorem State.read_dstBuf_of_some (s : State) {bs : List (Option Byte)} {k : Nat} {b : Byte}
    (h : bs[k]? = some (some b)) : (s.dstBuf bs).mem.read (bufBase + k) = some b := by
  rw [s.read_dstBuf h, Option.getD_some]

/-- A result coefficient that has a value is what the destination slot then holds (R101). -/
theorem State.coef_dstPoly_of_some (s : State) (r : Slot) {cs : List (Option Coef)} {i : Nat} {c : Coef}
    (h : cs[i]? = some (some c)) : (s.dstPoly r cs).mem.coef r i = some c := by
  rw [s.coef_dstPoly r h, Option.getD_some]

end Sys2Proof.Machine
end

section
/-! TOBYTES and FROMBYTES (R140 to R142): what each leaves in memory, the two 12-bit fields of three packed bytes as
numbers, and the two commands one after the other. -/

namespace Sys2Proof.Machine

/-! ### What the commands leave in memory -/

/-- BUF of n holds slot r of m packed, each byte where the coefficients it is made of are written (R35, R140). -/
def PackedFrom (m : Memory) (r : Slot) (n : Memory) : Prop :=
  ∀ k < 128,
    (∀ x, m.coef r (2 * k) = some x → n.read (bufBase + 3 * k) = some (packByte0 x)) ∧
    (∀ x y, m.coef r (2 * k) = some x → m.coef r (2 * k + 1) = some y →
      n.read (bufBase + 3 * k + 1) = some (packByte1 x y)) ∧
    (∀ y, m.coef r (2 * k + 1) = some y → n.read (bufBase + 3 * k + 2) = some (packByte2 y))

/-- Slot r of n holds BUF of m unpacked, each coefficient where its bytes are written (R35, R141). -/
def UnpackedFrom (m : Memory) (n : Memory) (r : Slot) : Prop :=
  ∀ k < 128,
    (∀ b0 b1, m.read (bufBase + 3 * k) = some b0 → m.read (bufBase + 3 * k + 1) = some b1 →
      n.coef r (2 * k) = some (unpackEven b0 b1)) ∧
    (∀ b1 b2, m.read (bufBase + 3 * k + 1) = some b1 → m.read (bufBase + 3 * k + 2) = some b2 →
      n.coef r (2 * k + 1) = some (unpackOdd b1 b2))

theorem tobytes_wf {r : Slot} {npoly : Nat} (h : r.toNat < npoly) : (Instr.tobytes r).wf npoly = true := by
  simp [Instr.wf, Instr.slots, h]

theorem frombytes_wf {r : Slot} {npoly : Nat} (h : r.toNat < npoly) : (Instr.frombytes r).wf npoly = true := by
  simp [Instr.wf, Instr.slots, h]

theorem exec_tobytes_packed {r : Slot} {s : State} (h : r.toNat < s.npoly) :
    ∃ t, exec (.tobytes r) s = .next t ∧ PackedFrom s.snap r t.mem := by
  refine ⟨_, State.command_dstBuf (tobytes_wf h) fun s => packBytes (s.srcPoly r), fun k hk => ?_⟩
  obtain ⟨h0, h1, h2⟩ := getElem?_packBytes (s.getElem?_srcPoly r (i := 2 * k) (by omega))
    (s.getElem?_srcPoly r (i := 2 * k + 1) (by omega))
  refine ⟨fun x hx => ?_, fun x y hx hy => ?_, fun y hy => ?_⟩
  · exact s.read_dstBuf_of_some (by rw [h0, hx]; rfl)
  · exact s.read_dstBuf_of_some (by rw [h1, hx, hy]; rfl)
  · exact s.read_dstBuf_of_some (by rw [h2, hy]; rfl)

theorem exec_frombytes_unpacked {r : Slot} {s : State} (h : r.toNat < s.npoly) :
    ∃ t, exec (.frombytes r) s = .next t ∧ UnpackedFrom s.snap t.mem r := by
  refine ⟨_, State.command_dstPoly (frombytes_wf h) r fun s => unpackBytes (s.srcBuf 384), fun k hk => ?_⟩
  obtain ⟨heven, hodd⟩ := getElem?_unpackBytes (s.getElem?_srcBuf (n := 384) (k := 3 * k) (by omega))
    (s.getElem?_srcBuf (k := 3 * k + 1) (by omega)) (s.getElem?_srcBuf (k := 3 * k + 2) (by omega))
  refine ⟨fun b0 b1 h0 h1 => ?_, fun b1 b2 h1 h2 => ?_⟩
  · exact s.coef_dstPoly_of_some r (by rw [heven, h0, ← Nat.add_assoc, h1]; rfl)
  · exact s.coef_dstPoly_of_some r (by rw [hodd, ← Nat.add_assoc, h1, ← Nat.add_assoc, h2]; rfl)

/-! ### The packed bytes and fields -/

/-- Every bit a packed byte takes is among the low 12 bits of csubq that packing keeps (R140). -/
theorem packByte0_eq (x : Coef) : packByte0 x = (csubq x).extractLsb' 0 8 :=
  BitVec.extractLsb'_extractLsb'_of_le (by decide)

theorem packByte1_eq (x y : Coef) : packByte1 x y = (csubq y).extractLsb' 0 4 ++ (csubq x).extractLsb' 8 4 := by
  rw [packByte1, packField, packField, BitVec.extractLsb'_extractLsb'_of_le (by decide),
    BitVec.extractLsb'_extractLsb'_of_le (by decide)]

theorem packByte2_eq (y : Coef) : packByte2 y = (csubq y).extractLsb' 4 8 :=
  BitVec.extractLsb'_extractLsb'_of_le (by decide)

theorem toNat_packByte0 (x : Coef) : (packByte0 x).toNat = (packField x).toNat % 256 := by
  simp [packByte0]

theorem toNat_packByte1 (x y : Coef) :
    (packByte1 x y).toNat = (packField y).toNat % 16 * 16 + (packField x).toNat / 256 := by
  have hx := (packField x).isLt
  simp only [packByte1, toNat_append_eq_add, BitVec.extractLsb'_toNat, Nat.shiftRight_eq_div_pow]
  omega

theorem toNat_packByte2 (y : Coef) : (packByte2 y).toNat = (packField y).toNat / 16 := by
  have hy := (packField y).isLt
  simp only [packByte2, BitVec.extractLsb'_toNat, Nat.shiftRight_eq_div_pow]
  omega

/-- The first field of packed bytes is the first coefficient's (R140). -/
theorem packedField0_packBytes (x y : Coef) : packedField0 (packByte0 x) (packByte1 x y) = (packField x).toNat := by
  have hx := (packField x).isLt
  rw [packedField0, toNat_packByte0, toNat_packByte1]
  omega

/-- The second field of packed bytes is the second coefficient's (R140). -/
theorem packedField1_packBytes (x y : Coef) : packedField1 (packByte1 x y) (packByte2 y) = (packField y).toNat := by
  have hx := (packField x).isLt
  rw [packedField1, toNat_packByte1, toNat_packByte2]
  omega

theorem packedField0_lt (b0 b1 : Byte) : packedField0 b0 b1 < 4096 := by
  have h0 := b0.isLt
  unfold packedField0
  omega

theorem packedField1_lt (b1 b2 : Byte) : packedField1 b1 b2 < 4096 := by
  have h1 := b1.isLt
  have h2 := b2.isLt
  unfold packedField1
  omega

/-- Three bytes are their two fields. -/
theorem bytes_eq_of_packedFields {b0 b1 b2 c0 c1 c2 : Byte} (h0 : packedField0 c0 c1 = packedField0 b0 b1)
    (h1 : packedField1 c1 c2 = packedField1 b1 b2) : c0 = b0 ∧ c1 = b1 ∧ c2 = b2 := by
  have hb0 := b0.isLt
  have hb1 := b1.isLt
  have hc0 := c0.isLt
  have hc1 := c1.isLt
  unfold packedField0 at h0
  unfold packedField1 at h1
  refine ⟨BitVec.eq_of_toNat_eq ?_, BitVec.eq_of_toNat_eq ?_, BitVec.eq_of_toNat_eq ?_⟩ <;> omega

/-- An even coefficient is the first field of its three bytes (R141). -/
theorem unpackEven_eq (b0 b1 : Byte) : unpackEven b0 b1 = BitVec.ofNat 16 (packedField0 b0 b1) := by
  apply BitVec.eq_of_toNat_eq
  simp only [unpackEven, packedField0, toNat_append_eq_add, BitVec.extractLsb'_toNat, BitVec.toNat_ofNat,
    Nat.shiftRight_eq_div_pow]
  omega

/-- An odd coefficient is the second field of its three bytes (R141). -/
theorem unpackOdd_eq (b1 b2 : Byte) : unpackOdd b1 b2 = BitVec.ofNat 16 (packedField1 b1 b2) := by
  apply BitVec.eq_of_toNat_eq
  simp only [unpackOdd, packedField1, toNat_append_eq_add, BitVec.extractLsb'_toNat, BitVec.toNat_ofNat,
    Nat.shiftRight_eq_div_pow]
  omega

/-! ### The two commands -/

/-- Settles O24: the packed bytes of each pair are those of csubq, whose low 12 bits they take. -/
theorem tobytesPacksTwelveBits : Obligations.TobytesPacksTwelveBits := by
  refine ⟨wordEvents (.tobytes 0), fun r => ⟨toNat_encode (.tobytes r), fun s hr => ?_⟩⟩
  obtain ⟨t, ht, hpacked⟩ := exec_tobytes_packed hr
  refine ⟨t, completes_of_wf (tobytes_wf hr) ht, exec_sameOutside (tobytes_wf hr) ht rfl, fun k hk => ?_⟩
  simpa only [packByte0_eq, packByte1_eq, packByte2_eq, bufBase] using hpacked k hk

/-- Settles O25: the unpacked coefficients are the fields of the three bytes. -/
theorem frombytesUnpacksTwelveBits : Obligations.FrombytesUnpacksTwelveBits := by
  refine ⟨wordEvents (.frombytes 0), fun r => ⟨toNat_encode (.frombytes r), fun s hr => ?_⟩⟩
  obtain ⟨t, ht, hunpacked⟩ := exec_frombytes_unpacked hr
  refine ⟨t, completes_of_wf (frombytes_wf hr) ht, exec_sameOutside (frombytes_wf hr) ht rfl, fun k hk => ?_⟩
  simpa only [unpackEven_eq, unpackOdd_eq, packedField0, packedField1, bufBase] using hunpacked k hk

/-! ### The round trips (R142) -/

/-- Packing loses nothing of csubq of a coefficient in [0, 2q), which is below q (R111). -/
theorem ofNat_packField {x : Coef} (h0 : 0 ≤ x.toInt) (h1 : x.toInt < 6658) :
    BitVec.ofNat 16 (packField x).toNat = csubq x := by
  have hval := toInt_csubq x
  have hnat := toNat_coef (csubq x)
  apply BitVec.eq_of_toNat_eq
  rw [packField, BitVec.extractLsb'_toNat, BitVec.toNat_ofNat, Nat.shiftRight_zero]
  split at hval <;> omega

/-- A 12-bit coefficient is packed with one subtraction of q where it is q or more (R110, R140). -/
theorem toNat_packField_ofNat {f : Nat} (h : f < 4096) : (packField (BitVec.ofNat 16 f)).toNat = reducedField f := by
  have hf := toInt_ofNat_coef (n := f) (by omega)
  have hval := toInt_csubq (BitVec.ofNat 16 f)
  have hnat := toNat_coef (csubq (BitVec.ofNat 16 f))
  rw [packField, BitVec.extractLsb'_toNat, Nat.shiftRight_zero, reducedField]
  split at hval <;> split <;> omega

/-- Unpacking a packed slot gives the packed field of every coefficient. -/
theorem UnpackedFrom.coef_of_packedFrom {m n p : Memory} {r d : Slot} (hu : UnpackedFrom n p d)
    (hp : PackedFrom m r n) (hm : ∀ i < 256, ∃ x, m.coef r i = some x) {i : Nat} (hi : i < 256) {x : Coef}
    (hx : m.coef r i = some x) : p.coef d i = some (BitVec.ofNat 16 (packField x).toNat) := by
  obtain ⟨k, rfl | rfl⟩ := i.even_or_odd'
  · obtain ⟨y, hy⟩ := hm (2 * k + 1) (by omega)
    obtain ⟨h0, h1, -⟩ := hp k (by omega)
    rw [(hu k (by omega)).1 _ _ (h0 x hx) (h1 x y hx hy), unpackEven_eq, packedField0_packBytes]
  · obtain ⟨y, hy⟩ := hm (2 * k) (by omega)
    obtain ⟨-, h1, h2⟩ := hp k (by omega)
    rw [(hu k (by omega)).2 _ _ (h1 y x hy hx) (h2 x hx), unpackOdd_eq, packedField1_packBytes]

/-- Packing an unpacked slot gives three bytes whose fields are those of the old ones, reduced once. -/
theorem PackedFrom.fields_of_unpackedFrom {m n p : Memory} {r : Slot} (hp : PackedFrom n r p)
    (hu : UnpackedFrom m n r) {k : Nat} (hk : k < 128) {b0 b1 b2 : Byte} (h0 : m.read (bufBase + 3 * k) = some b0)
    (h1 : m.read (bufBase + 3 * k + 1) = some b1) (h2 : m.read (bufBase + 3 * k + 2) = some b2) :
    ∃ c0 c1 c2, p.read (bufBase + 3 * k) = some c0 ∧ p.read (bufBase + 3 * k + 1) = some c1 ∧
      p.read (bufBase + 3 * k + 2) = some c2 ∧ packedField0 c0 c1 = reducedField (packedField0 b0 b1) ∧
      packedField1 c1 c2 = reducedField (packedField1 b1 b2) := by
  obtain ⟨heven, hodd⟩ := hu k hk
  have hx := heven b0 b1 h0 h1
  have hy := hodd b1 b2 h1 h2
  obtain ⟨hc0, hc1, hc2⟩ := hp k hk
  refine ⟨_, _, _, hc0 _ hx, hc1 _ _ hx hy, hc2 _ hy, ?_, ?_⟩
  · rw [packedField0_packBytes, unpackEven_eq, toNat_packField_ofNat (packedField0_lt b0 b1)]
  · rw [packedField1_packBytes, unpackOdd_eq, toNat_packField_ofNat (packedField1_lt b1 b2)]

/-- Settles O42: unpacking what was packed, and packing what was unpacked. -/
theorem serializationRoundTrips : Obligations.SerializationRoundTrips := by
  refine ⟨fun s r d hr hd hm => ?_, fun s r hr _ => ?_⟩
  · obtain ⟨t, ht, hpacked⟩ := exec_tobytes_packed (s := s.now) hr
    obtain ⟨u, hu, hunpacked⟩ := exec_frombytes_unpacked (s := t.now) (hd.trans_eq (exec_npoly ht).symm)
    refine ⟨t, u, ht, hu, fun i hi x hx => ?_⟩
    obtain ⟨x', hx', hx0, hx1⟩ := hm i hi
    obtain rfl := Option.some.inj (hx.symm.trans hx')
    have hcoef := hunpacked.coef_of_packedFrom hpacked (fun j hj => (hm j hj).imp fun _ => And.left) hi hx
    rw [ofNat_packField hx0 hx1] at hcoef
    exact ⟨hcoef, fun hlt => by rw [hcoef, csubq_of_lt hlt]⟩
  · obtain ⟨t, ht, hunpacked⟩ := exec_frombytes_unpacked (s := s.now) hr
    obtain ⟨u, hu, hpacked⟩ := exec_tobytes_packed (s := t.now) (hr.trans_eq (exec_npoly ht).symm)
    refine ⟨t, u, ht, hu, fun k hk b0 b1 b2 h0 h1 h2 => ?_⟩
    obtain ⟨c0, c1, c2, hc0, hc1, hc2, hf0, hf1⟩ := hpacked.fields_of_unpackedFrom hunpacked hk h0 h1 h2
    refine ⟨c0, c1, c2, hc0, hc1, hc2, hf0, hf1, fun hlt0 hlt1 => bytes_eq_of_packedFields ?_ ?_⟩
    · rw [hf0, reducedField, if_pos hlt0]
    · rw [hf1, reducedField, if_pos hlt1]

end Sys2Proof.Machine
end

section
/-! COMPRESS and DECOMPRESS (R150 to R152): compress4 of a canonical coefficient as the nearest sixteenth of q, how far
decompress4 is from it, and what each command leaves in memory. -/

namespace Sys2Proof.Machine

/-! ### The nearest sixteenth of q -/

/-- The number k in 0..16 for which k·q/16 is nearest: what R150 computes before it keeps four bits. -/
def nearestSixteenth (x : Coef) : Nat := (canonU x * 16 + 1664) / 3329

theorem compress4_eq (x : Coef) : compress4 x = nearestSixteenth x % 16 := rfl

theorem compress4_lt (x : Coef) : compress4 x < 16 := Nat.mod_lt _ (by decide)

/-- The rounding is to the nearest: k is at most half a sixteenth away (R150). -/
theorem nearestSixteenth_eq_iff {c : Coef} (hc : Canonical c) {k : Nat} :
    nearestSixteenth c = k ↔ 3329 * (k : Int) ≤ c.toInt * 16 + 1664 ∧
      c.toInt * 16 + 1664 < 3329 * (k : Int) + 3329 := by
  have hu : (canonU c : Int) = c.toInt := by
    rw [canonU, csubq_of_lt hc.2, toNat_coef, if_neg (by omega)]
  rw [nearestSixteenth, Nat.div_eq_iff (by decide)]
  omega

theorem nearestSixteenth_le {c : Coef} (hc : Canonical c) : nearestSixteenth c ≤ 16 := by
  obtain ⟨hlow, -⟩ := (nearestSixteenth_eq_iff hc).1 rfl
  obtain ⟨-, hlt⟩ := hc
  omega

/-- The least canonical coefficient whose nearest sixteenth is k, for k from 1 to 16: (k·q - 1664)/16, rounded up. -/
def leastRoundingTo (k : Nat) : Int := (3329 * k - 1649) / 16

theorem nearestSixteenth_eq_iff_interval {c : Coef} (hc : Canonical c) {k : Nat} :
    nearestSixteenth c = k ↔ leastRoundingTo k ≤ c.toInt ∧ c.toInt < leastRoundingTo (k + 1) := by
  rw [nearestSixteenth_eq_iff hc, leastRoundingTo, leastRoundingTo]
  omega

/-! ### decompress4 -/

theorem decompress4_lt {v : Nat} (h : v < 16) : decompress4 v < 3329 := by
  unfold decompress4
  omega

theorem toInt_ofNat_decompress4 {v : Nat} (h : v < 16) :
    (BitVec.ofNat 16 (decompress4 v) : Coef).toInt = decompress4 v :=
  toInt_ofNat_coef ((decompress4_lt h).trans (by decide))

theorem toNat_ofNat_decompress4 {v : Nat} (h : v < 16) :
    (BitVec.ofNat 16 (decompress4 v) : Coef).toNat = decompress4 v := by
  rw [BitVec.toNat_ofNat, Nat.mod_eq_of_lt ((decompress4_lt h).trans (by decide))]

theorem canonical_decompress4 {v : Nat} (h : v < 16) : Canonical (BitVec.ofNat 16 (decompress4 v)) := by
  have hlt := decompress4_lt h
  rw [Canonical, toInt_ofNat_decompress4 h]
  omega

/-- A scaled nibble is within half a coefficient of its sixteenth, far inside the interval that rounds to it (R151). -/
theorem compress4_decompress4 {v : Nat} (h : v < 16) : compress4 (BitVec.ofNat 16 (decompress4 v)) = v := by
  have hnearest : nearestSixteenth (BitVec.ofNat 16 (decompress4 v)) = v := by
    rw [nearestSixteenth_eq_iff (canonical_decompress4 h), toInt_ofNat_decompress4 h, decompress4]
    omega
  rw [compress4_eq, hnearest, Nat.mod_eq_of_lt h]

/-! ### The compression error (R152) -/

theorem circularDistance_comm (x y : Int) : circularDistance x y = circularDistance y x := min_comm _ _

theorem circularDistance_add_modulus (x y : Int) : circularDistance x (y + 3329) = circularDistance x y := by
  have hdown : (x - (y + 3329)) % 3329 = (x - y) % 3329 := by omega
  have hup : (y + 3329 - x) % 3329 = (y - x) % 3329 := by omega
  rw [circularDistance, hdown, hup, circularDistance]

theorem circularDistance_of_le {x y : Int} (hle : y ≤ x) (h : x - y ≤ 1664) : circularDistance x y = x - y := by
  have hshort : (x - y) % 3329 = x - y := Int.emod_eq_of_lt (by omega) (by omega)
  have hlong : x - y ≤ (y - x) % 3329 := by omega
  rw [circularDistance, hshort, min_eq_left hlong]

/-- Up to half of q, the distance on the circle is that on the line. -/
theorem circularDistance_of_abs_le {x y : Int} (h : |x - y| ≤ 1664) : circularDistance x y = |x - y| := by
  obtain hle | hle := le_total y x
  · rw [abs_of_nonneg (sub_nonneg.2 hle)] at h ⊢
    exact circularDistance_of_le hle h
  · rw [abs_sub_comm, abs_of_nonneg (sub_nonneg.2 hle)] at h ⊢
    rw [circularDistance_comm, circularDistance_of_le hle h]

/-- Sixteen times the error is at most 1664, of rounding to a sixteenth, and 8, of rounding the sixteenth. -/
theorem abs_sub_decompress4_le {c : Coef} (hc : Canonical c) :
    |c.toInt - decompress4 (nearestSixteenth c)| ≤ 104 := by
  obtain ⟨hlow, hhigh⟩ := (nearestSixteenth_eq_iff hc).1 rfl
  rw [abs_le, decompress4]
  omega

/-- The compression error is the error of rounding on the line: 16 sixteenths of q are decompressed as 0, which is as
far away as q on the circle. -/
theorem circularDistance_compress4 {c : Coef} (hc : Canonical c) :
    circularDistance c.toInt (decompress4 (compress4 c)) = |c.toInt - decompress4 (nearestSixteenth c)| := by
  have hline := circularDistance_of_abs_le ((abs_sub_decompress4_le hc).trans (by decide))
  rw [← hline, compress4_eq]
  obtain hlt | h16 := (nearestSixteenth_le hc).lt_or_eq
  · rw [Nat.mod_eq_of_lt hlt]
  · rw [h16]
    exact (circularDistance_add_modulus c.toInt 0).symm

/-- Settles O20: the error is that of rounding on the line, and the values at distance 104 are
looked for on both sides of each sixteenth. -/
theorem compressionErrorIsAtMostHundredFour : Obligations.CompressionErrorIsAtMostHundredFour := by
  intro c hc
  rw [circularDistance_compress4 hc]
  refine ⟨abs_sub_decompress4_le hc, ?_⟩
  obtain ⟨hlow, hhigh⟩ := (nearestSixteenth_eq_iff hc).1 rfl
  have hle := nearestSixteenth_le hc
  obtain ⟨hnonneg, hltq⟩ := hc
  simp only [abs_eq (show (0 : Int) ≤ 104 by decide), decompress4, List.mem_cons, List.not_mem_nil, or_false]
  generalize nearestSixteenth c = k at hlow hhigh hle
  interval_cases k <;> omega

/-- Settles O21: the intervals that round to each sixteenth, those of 0 and 16 together giving 0. -/
theorem quantizationIntervals : Obligations.QuantizationIntervals := by
  refine ⟨fun c hc => ?_, fun c hc k h1 h15 => ?_, by decide, fun v hv => compress4_decompress4 hv⟩
  · have hle := nearestSixteenth_le hc
    have h0 := nearestSixteenth_eq_iff hc (k := 0)
    have h16 := nearestSixteenth_eq_iff hc (k := 16)
    obtain ⟨hnonneg, hltq⟩ := hc
    rw [compress4_eq]
    omega
  · have hle := nearestSixteenth_le hc
    have hnearest : compress4 c = k ↔ nearestSixteenth c = k := by
      rw [compress4_eq]
      omega
    rw [hnearest, nearestSixteenth_eq_iff_interval hc]
    interval_cases k <;> rfl

/-! ### What the commands leave in memory -/

/-- BUF of n holds slot r of m at four bits per coefficient, each byte where its two coefficients are written (R35,
R150). -/
def CompressedFrom (m : Memory) (r : Slot) (n : Memory) : Prop :=
  ∀ k < 128, ∀ x y, m.coef r (2 * k) = some x → m.coef r (2 * k + 1) = some y →
    n.read (bufBase + k) = some (compressByte x y)

/-- Slot r of n holds the scaled nibbles of BUF of m, each pair of coefficients where its byte is written (R35,
R151). -/
def DecompressedFrom (m : Memory) (n : Memory) (r : Slot) : Prop :=
  ∀ k < 128, ∀ b, m.read (bufBase + k) = some b →
    n.coef r (2 * k) = some (decompressEven b) ∧ n.coef r (2 * k + 1) = some (decompressOdd b)

theorem compress_wf {r : Slot} {npoly : Nat} (h : r.toNat < npoly) : (Instr.compress r).wf npoly = true := by
  simp [Instr.wf, Instr.slots, h]

theorem decompress_wf {r : Slot} {npoly : Nat} (h : r.toNat < npoly) : (Instr.decompress r).wf npoly = true := by
  simp [Instr.wf, Instr.slots, h]

theorem exec_compress_compressed {r : Slot} {s : State} (h : r.toNat < s.npoly) :
    ∃ t, exec (.compress r) s = .next t ∧ CompressedFrom s.snap r t.mem := by
  refine ⟨_, State.command_dstBuf (compress_wf h) fun s => compressBytes (s.srcPoly r), fun k hk x y hx hy => ?_⟩
  have hbyte := getElem?_compressBytes (s.getElem?_srcPoly r (i := 2 * k) (by omega))
    (s.getElem?_srcPoly r (i := 2 * k + 1) (by omega))
  exact s.read_dstBuf_of_some (by rw [hbyte, hx, hy]; rfl)

theorem exec_decompress_decompressed {r : Slot} {s : State} (h : r.toNat < s.npoly) :
    ∃ t, exec (.decompress r) s = .next t ∧ DecompressedFrom s.snap t.mem r := by
  refine ⟨_, State.command_dstPoly (decompress_wf h) r fun s => decompressBytes (s.srcBuf 128), fun k hk b hb => ?_⟩
  obtain ⟨heven, hodd⟩ := getElem?_decompressBytes (s.getElem?_srcBuf hk)
  exact ⟨s.coef_dstPoly_of_some r (by rw [heven, hb]; rfl), s.coef_dstPoly_of_some r (by rw [hodd, hb]; rfl)⟩

/-- The packed byte as a number, low nibble first (R150). -/
theorem compressByte_eq (x y : Coef) : compressByte x y = BitVec.ofNat 8 (compress4 x + 16 * compress4 y) := by
  have hx := compress4_lt x
  have hy := compress4_lt y
  apply BitVec.eq_of_toNat_eq
  simp only [compressByte, toNat_append_eq_add, BitVec.toNat_ofNat]
  omega

/-! ### The two commands -/

/-- Settles O26: the byte of each pair is made of their two nibbles. -/
theorem compressQuantizesToFourBits : Obligations.CompressQuantizesToFourBits := by
  refine ⟨wordEvents (.compress 0), fun r => ⟨toNat_encode (.compress r), fun s hr => ?_⟩⟩
  obtain ⟨t, ht, hcompressed⟩ := exec_compress_compressed hr
  refine ⟨t, completes_of_wf (compress_wf hr) ht, exec_sameOutside (compress_wf hr) ht rfl,
    fun k hk x y hx hy => ?_⟩
  have hbyte := hcompressed k hk x y hx hy
  rwa [compressByte_eq] at hbyte

/-- Settles O27: both nibbles of a byte are below 16, so both scaled coefficients are canonical. -/
theorem decompressScalesFourBits : Obligations.DecompressScalesFourBits := by
  refine ⟨wordEvents (.decompress 0), fun r => ⟨toNat_encode (.decompress r), fun s hr => ?_⟩⟩
  obtain ⟨t, ht, hdecompressed⟩ := exec_decompress_decompressed hr
  refine ⟨t, completes_of_wf (decompress_wf hr) ht, exec_sameOutside (decompress_wf hr) ht rfl, fun k hk b hb => ?_⟩
  obtain ⟨heven, hodd⟩ := hdecompressed k hk b hb
  have hlow : b.toNat % 16 < 16 := Nat.mod_lt _ (by decide)
  have hhigh : b.toNat / 16 < 16 := Nat.div_lt_of_lt_mul b.isLt
  exact ⟨_, _, heven, hodd, toNat_ofNat_decompress4 hlow, toNat_ofNat_decompress4 hhigh,
    canonical_decompress4 hlow, canonical_decompress4 hhigh⟩

end Sys2Proof.Machine
end

section
/-! What the commands of the NTT domain share (R160 to R164): the slot a command writes and the state around it, the
contracts of the attached reducers (R122, R123), and the engine's transform of a written slot in TB (R120). -/

namespace Sys2Proof.Machine

/-! ### The slot a command writes -/

/-- A command whose slots are all below NPOLY is one of the block (R84). -/
theorem wf_of_slots_subset {i : Instr} {npoly : Nat} {l : List Slot} (hl : ∀ r ∈ l, r.toNat < npoly)
    (hi : i.slots ⊆ l) : i.wf npoly = true :=
  List.all_eq_true.2 fun r hr => decide_eq_true (hl r (hi hr))

/-- From s to t, slot r has taken the results cs where they have values, and every other slot, NPOLY and the attached
collaborators are as before (R21, R101). -/
structure WritesSlot (s t : State) (r : Slot) (cs : List (Option Coef)) : Prop where
  npoly_eq : t.npoly = s.npoly
  collab_eq : t.collab = s.collab
  coef_eq {i : Nat} {c : Coef} : cs[i]? = some (some c) → t.mem.coef r i = some c
  coef_other {p : Slot} (hp : r ≠ p) {i : Nat} (hi : i < 256) : t.mem.coef p i = s.mem.coef p i

theorem State.command_writesSlot {i : Instr} {s : State} (hw : i.wf s.npoly = true) (r : Slot)
    (f : State → List (Option Coef)) (hl : (f s).length = 256) :
    ∃ t, s.command i (fun s => s.dstPoly r (f s)) = .next t ∧ WritesSlot s t r (f s) :=
  ⟨_, State.command_of_wf hw, rfl, rfl, s.coef_dstPoly_of_some r, fun hp _ hi => s.coef_dstPoly_other hp hl hi⟩

/-! ### The attached reducers -/

/-- The attached BARRETT meets its contract (R122). -/
theorem barrettContract_barrett (c : Collab) : BarrettContract (barrett c) := by
  cases c with
  | conforming => exact (barrettIsExactlyItsContract _).2 ⟨Config.barrettHigh, rfl⟩
  | defaults => exact defaultReducersMeetTheirContracts.1

/-- The attached MONT meets its contract with its MONT_RINV (R123). -/
theorem montContract_mont (c : Collab) : MontContract (mont c) (montRinv c) := by
  cases c with
  | conforming => exact (montIsExactlyItsContract _ _).2 ⟨Config.montNegative, Config.montOutside, rfl⟩
  | defaults => exact montContract_montDefault

/-! ### TB after the engine -/

/-- The engine transforms a written slot as the list of its values (R120). -/
theorem State.tb_transform_of_written {s : State} {r : Slot} {p : List Coef} (hl : p.length = 256)
    (h : ∀ i < 256, s.snap.coef r i = p[i]?) (op : TeOp) :
    ((s.tbLoad r).tbTransform op).tb = (transform s.collab op p).map some := by
  rw [State.tbTransform_tb, State.tbLoad_tb, State.srcPoly_of_written hl h, allWritten_map_some]
  rfl

/-- The engine has a value for every index (R120). -/
theorem exists_getElem?_transform (c : Collab) (op : TeOp) {p : List Coef} (hl : p.length = 256) {i : Nat}
    (hi : i < 256) : ∃ v, (transform c op p)[i]? = some v :=
  ⟨_, List.getElem?_eq_getElem (by rwa [length_transform c op hl])⟩

end Sys2Proof.Machine
end

section
/-! NTT and INVNTT (R160, R161): the engine's transform of the source slot, reduced by BARRETT and unreduced. -/

namespace Sys2Proof.Machine

/-- Settles O28: TB holds the transform, and the destination slot BARRETT of it, within BARRETT's contract. -/
theorem nttTransformsThenReduces : Obligations.NttTransformsThenReduces := by
  refine ⟨wordEvents (.ntt 0 0), fun rd rs1 => ⟨toNat_encode (.ntt rd rs1), fun s hd hs => ?_⟩⟩
  have hw : (Instr.ntt rd rs1).wf s.npoly = true := by simp [Instr.wf, Instr.slots, hd, hs]
  have hexec := exec_ntt_of_wf hw
  refine ⟨_, completes_of_wf hw hexec, exec_sameOutside hw hexec rfl, fun p hl hp => ?_⟩
  have htb := State.tb_transform_of_written hl hp .forward
  refine ⟨htb, fun i hi => ?_⟩
  obtain ⟨v, hv⟩ := exists_getElem?_transform s.collab .forward hl hi
  obtain ⟨hcongr, hlo, hhi⟩ := barrettContract_barrett s.collab v
  exact ⟨v, hv, State.coef_dstPoly_of_some _ rd (by rw [htb]; simp [hv]), hlo, hhi, hcongr⟩

/-- Settles O29: TB and the destination slot hold the inverse transform. -/
theorem invnttTransformsWithoutReduction : Obligations.InvnttTransformsWithoutReduction := by
  refine ⟨wordEvents (.invntt 0 0), fun rd rs1 => ⟨toNat_encode (.invntt rd rs1), fun s hd hs => ?_⟩⟩
  have hw : (Instr.invntt rd rs1).wf s.npoly = true := by simp [Instr.wf, Instr.slots, hd, hs]
  have hexec := exec_invntt_of_wf hw
  refine ⟨_, completes_of_wf hw hexec, exec_sameOutside hw hexec rfl, fun p hl hp => ?_⟩
  have htb := State.tb_transform_of_written hl hp .inverse
  refine ⟨htb, fun i hi => ?_⟩
  obtain ⟨v, hv⟩ := exists_getElem?_transform s.collab .inverse hl hi
  exact ⟨v, hv, State.coef_dstPoly_of_some _ rd (by rw [htb]; simp [hv])⟩

end Sys2Proof.Machine
end

section
/-! FROMMONT (R164): MONT of the product by 1353, which is in MONT's interval for every 16-bit input. -/

namespace Sys2Proof.Machine

/-- FROMMONT's answer for every 16-bit input is within MONT's contract (R123, R164). -/
theorem mont_fromMontProduct (c : Collab) (x : Coef) :
    -3329 < (mont c (fromMontProduct x)).toInt ∧ (mont c (fromMontProduct x)).toInt < 3329 ∧
      (mont c (fromMontProduct x)).toInt % 3329 = x.toInt * 1353 * (montRinv c : Int) % 3329 := by
  have hx := coef_range x
  have hprod := toInt_fromMontProduct x
  obtain ⟨hcongr, hlo, hhi⟩ := montContract_mont c (fromMontProduct x) (by omega) (by omega)
  rw [hprod] at hcongr
  exact ⟨hlo, hhi, hcongr⟩

/-- Settles O32: every product is exact and in MONT's interval. -/
theorem frommontMultipliesAndReduces : Obligations.FrommontMultipliesAndReduces := by
  refine ⟨wordEvents (.frommont 0 0), fun rd rs1 => ⟨toNat_encode (.frommont rd rs1), fun s hd hs => ?_⟩, by decide⟩
  have hw : (Instr.frommont rd rs1).wf s.npoly = true := by simp [Instr.wf, Instr.slots, hd, hs]
  obtain ⟨t, ht, hres⟩ := State.command_writesSlot hw rd
    (fun s => (s.srcPoly rs1).map (Option.map fun c => mont s.collab (fromMontProduct c))) (by simp)
  refine ⟨t, completes_of_wf hw ht, exec_sameOutside hw ht rfl, fun i hi x hx => ?_⟩
  have hcoef : t.mem.coef rd i = some (mont s.collab (fromMontProduct x)) :=
    hres.coef_eq (by simp [s.getElem?_srcPoly rs1 hi, hx])
  exact ⟨_, hcoef, rfl, toInt_fromMontProduct x, mont_fromMontProduct s.collab x⟩

end Sys2Proof.Machine
end

section
/-! PMUL and PMAC (R162, R163): the products of the two pairs of a block, written to the destination slot or added to
what the accumulator slot held at acceptance. -/

namespace Sys2Proof.Machine

/-! ### The products of a block -/

/-- The first pair of block i has the twiddle itself (R162). -/
theorem pairZeta_two_mul (c : Collab) (i : Nat) : pairZeta c (2 * i) = zeta c (64 + i) := by
  rw [pairZeta, if_pos (by omega), Nat.mul_div_cancel_left i (by decide)]

/-- The second pair of block i has the twiddle's 16-bit negation (R162, D21). -/
theorem pairZeta_two_mul_add_one (c : Collab) (i : Nat) :
    pairZeta c (2 * i + 1) = wrap16 (-(zeta c (64 + i)).toInt) := by
  rw [pairZeta, if_neg (by omega), show (2 * i + 1) / 2 = i by omega]

section Block

variable {s : State} {bm : BaseMul} {rs1 rs2 : Slot} {i : Nat} {a0 a1 b0 b1 : Coef}

theorem State.products_first_pair (hi : i < 64) (ha0 : s.snap.coef rs1 (4 * i) = some a0)
    (ha1 : s.snap.coef rs1 (4 * i + 1) = some a1) (hb0 : s.snap.coef rs2 (4 * i) = some b0)
    (hb1 : s.snap.coef rs2 (4 * i + 1) = some b1) :
    (s.products bm rs1 rs2)[4 * i]? = some (some (bm a0 a1 b0 b1 (zeta s.collab (64 + i))).1) ∧
    (s.products bm rs1 rs2)[4 * i + 1]? = some (some (bm a0 a1 b0 b1 (zeta s.collab (64 + i))).2) := by
  rw [show 4 * i = 2 * (2 * i) by omega] at *
  rw [← pairZeta_two_mul]
  exact State.products_of_written (by omega) ha0 ha1 hb0 hb1

theorem State.products_second_pair (hi : i < 64) (ha0 : s.snap.coef rs1 (4 * i + 2) = some a0)
    (ha1 : s.snap.coef rs1 (4 * i + 3) = some a1) (hb0 : s.snap.coef rs2 (4 * i + 2) = some b0)
    (hb1 : s.snap.coef rs2 (4 * i + 3) = some b1) :
    (s.products bm rs1 rs2)[4 * i + 2]? =
      some (some (bm a0 a1 b0 b1 (wrap16 (-(zeta s.collab (64 + i)).toInt))).1) ∧
    (s.products bm rs1 rs2)[4 * i + 3]? =
      some (some (bm a0 a1 b0 b1 (wrap16 (-(zeta s.collab (64 + i)).toInt))).2) := by
  rw [show 4 * i + 2 = 2 * (2 * i + 1) by omega, show 4 * i + 3 = 2 * (2 * i + 1) + 1 by omega] at *
  rw [← pairZeta_two_mul_add_one]
  exact State.products_of_written (by omega) ha0 ha1 hb0 hb1

end Block

/-! ### What the commands leave in memory -/

theorem State.pmulWith_writesSlot {s : State} {rd rs1 rs2 : Slot} (hw : (Instr.pmul rd rs1 rs2).wf s.npoly = true)
    (bm : BaseMul) : ∃ t, s.pmulWith bm rd rs1 rs2 = .next t ∧ WritesSlot s t rd (s.products bm rs1 rs2) :=
  State.command_writesSlot hw rd (fun s => s.products bm rs1 rs2) (s.length_products bm rs1 rs2)

theorem getElem?_zipWith_add16 {l m : List (Option Coef)} {i : Nat} {x y : Coef} (hx : l[i]? = some (some x))
    (hy : m[i]? = some (some y)) : (List.zipWith (lift2 add16) l m)[i]? = some (some (add16 x y)) := by
  rw [List.getElem?_zipWith, hx, hy]
  rfl

/-- From s to t, slot rd has taken its own coefficients of s's snapshot plus the products, wherever both have values
(R163). -/
def Accumulates (bm : BaseMul) (s t : State) (rd rs1 rs2 : Slot) : Prop :=
  WritesSlot s t rd (List.zipWith (lift2 add16) (s.srcPoly rd) (s.products bm rs1 rs2))

theorem State.pmacWith_accumulates {s : State} {rd rs1 rs2 : Slot} (hw : (Instr.pmac rd rs1 rs2).wf s.npoly = true)
    (bm : BaseMul) : ∃ t, s.pmacWith bm rd rs1 rs2 = .next t ∧ Accumulates bm s t rd rs1 rs2 :=
  State.command_writesSlot hw rd (fun s => List.zipWith (lift2 add16) (s.srcPoly rd) (s.products bm rs1 rs2)) (by simp)

theorem Accumulates.coef_eq {bm : BaseMul} {s t : State} {rd rs1 rs2 : Slot} (h : Accumulates bm s t rd rs1 rs2)
    {i : Nat} (hi : i < 256) {r x : Coef} (hr : s.snap.coef rd i = some r)
    (hx : (s.products bm rs1 rs2)[i]? = some (some x)) : t.mem.coef rd i = some (add16 r x) :=
  WritesSlot.coef_eq h (getElem?_zipWith_add16 (by rw [s.getElem?_srcPoly rd hi, hr]) hx)

/-! ### The two commands -/

/-- Settles O30: the destination slot takes the products of both pairs of each block. -/
theorem pmulMultipliesPairs : Obligations.PmulMultipliesPairs := by
  refine ⟨wordEvents (.pmul 0 0 0), fun rd rs1 rs2 => ⟨toNat_encode (.pmul rd rs1 rs2), fun s hd hs1 hs2 => ?_⟩⟩
  have hw : (Instr.pmul rd rs1 rs2).wf s.npoly = true := by simp [Instr.wf, Instr.slots, hd, hs1, hs2]
  obtain ⟨t, ht, hres⟩ := State.pmulWith_writesSlot hw (basemul s.collab)
  refine ⟨t, completes_of_wf hw ht, exec_sameOutside hw ht rfl, fun i hi a0 a1 b0 b1 =>
    ⟨fun ha0 ha1 hb0 hb1 => ?_, fun ha0 ha1 hb0 hb1 => ?_⟩⟩
  · obtain ⟨h0, h1⟩ := State.products_first_pair (bm := basemul s.collab) hi ha0 ha1 hb0 hb1
    exact ⟨hres.coef_eq h0, hres.coef_eq h1⟩
  · obtain ⟨h0, h1⟩ := State.products_second_pair (bm := basemul s.collab) hi ha0 ha1 hb0 hb1
    exact ⟨hres.coef_eq h0, hres.coef_eq h1⟩

/-- Settles O31: the accumulator takes its snapshot plus the products of both pairs of each block. -/
theorem pmacAccumulatesProducts : Obligations.PmacAccumulatesProducts := by
  refine ⟨wordEvents (.pmac 0 0 0), fun rd rs1 rs2 => ⟨toNat_encode (.pmac rd rs1 rs2), fun s hd hs1 hs2 => ?_⟩⟩
  have hw : (Instr.pmac rd rs1 rs2).wf s.npoly = true := by simp [Instr.wf, Instr.slots, hd, hs1, hs2]
  obtain ⟨t, ht, hacc⟩ := State.pmacWith_accumulates hw (basemul s.collab)
  refine ⟨t, completes_of_wf hw ht, exec_sameOutside hw ht rfl, fun i hi a0 a1 b0 b1 r0 r1 =>
    ⟨fun ha0 ha1 hb0 hb1 hr0 hr1 => ?_, fun ha0 ha1 hb0 hb1 hr0 hr1 => ?_⟩⟩
  · obtain ⟨h0, h1⟩ := State.products_first_pair (bm := basemul s.collab) hi ha0 ha1 hb0 hb1
    exact ⟨hacc.coef_eq (by omega) hr0 h0, hacc.coef_eq (by omega) hr1 h1⟩
  · obtain ⟨h0, h1⟩ := State.products_second_pair (bm := basemul s.collab) hi ha0 ha1 hb0 hb1
    exact ⟨hacc.coef_eq (by omega) hr0 h0, hacc.coef_eq (by omega) hr1 h1⟩

end Sys2Proof.Machine
end

section
/-! R166: PMUL and PMAC distribute over ADD mod q. A base multiplier whose answers are scaled products mod x² - w adds
on each pair; the slots that ADD, PMUL and PMAC leave alone carry that to the sequences of commands. -/

namespace Sys2Proof.Machine

/-! ### Scaled products -/

/-- The pair p is the product of a0 + a1·x and b0 + b1·x mod x² - w, times scale, mod q (R121, I-GK3). -/
def ScaledProduct (p : Coef × Coef) (scale w a0 a1 b0 b1 : Int) : Prop :=
  p.1.toInt ≡ scale * (a0 * b0 + w * (a1 * b1)) [ZMOD 3329] ∧
  p.2.toInt ≡ scale * (a0 * b1 + a1 * b0) [ZMOD 3329]

/-- The pair p is congruent mod q to the sum of the pairs u and v. -/
def SumModQ (p u v : Coef × Coef) : Prop :=
  p.1.toInt ≡ u.1.toInt + v.1.toInt [ZMOD 3329] ∧ p.2.toInt ≡ u.2.toInt + v.2.toInt [ZMOD 3329]

/-- A product is linear in its second factor. -/
theorem ScaledProduct.sumModQ {p u v : Coef × Coef} {scale w a0 a1 b0 b1 c0 c1 : Int}
    (hp : ScaledProduct p scale w a0 a1 (b0 + c0) (b1 + c1)) (hu : ScaledProduct u scale w a0 a1 b0 b1)
    (hv : ScaledProduct v scale w a0 a1 c0 c1) : SumModQ p u v := by
  obtain ⟨hp0, hp1⟩ := hp
  obtain ⟨hu0, hu1⟩ := hu
  obtain ⟨hv0, hv1⟩ := hv
  refine ⟨(hp0.trans (congrArg (· % 3329) ?_)).trans (hu0.add hv0).symm,
    (hp1.trans (congrArg (· % 3329) ?_)).trans (hu1.add hv1).symm⟩ <;> ring

/-- fqmul of a coefficient in [0, 4096) and a sum of two such is in MONT's interval (I-GK3). -/
theorem smallResidue_fqmulDefault_of_mem {a b : Coef} (ha : a.toInt ∈ Set.Ico (0 : Int) 4096)
    (hb : b.toInt ∈ Set.Ico (0 : Int) 8192) : SmallResidue (fqmulDefault a b) (a.toInt * b.toInt * 169) := by
  obtain ⟨ha0, ha1⟩ := ha
  obtain ⟨hb0, hb1⟩ := hb
  exact smallResidue_fqmulDefault (by nlinarith) (by nlinarith)

/-- The default base multiplier multiplies mod x² - 169·z, scaled by 169, for a second factor in [0, 8192) too
(I-GK3). -/
theorem scaledProduct_basemulDefault {a0 a1 b0 b1 z : Coef} (ha0 : a0.toInt ∈ Set.Ico (0 : Int) 4096)
    (ha1 : a1.toInt ∈ Set.Ico (0 : Int) 4096) (hb0 : b0.toInt ∈ Set.Ico (0 : Int) 8192)
    (hb1 : b1.toInt ∈ Set.Ico (0 : Int) 8192) (hz : z.toInt ∈ Set.Ioo (-3329 : Int) 3329) :
    ScaledProduct (basemulDefault a0 a1 b0 b1 z) 169 (169 * z.toInt) a0.toInt a1.toInt b0.toInt b1.toInt := by
  have h00 := smallResidue_fqmulDefault_of_mem ha0 hb0
  have h01 := smallResidue_fqmulDefault_of_mem ha0 hb1
  have h10 := smallResidue_fqmulDefault_of_mem ha1 hb0
  have h11 := smallResidue_fqmulDefault_of_mem ha1 hb1
  have hr0 := ((h11.fqmulDefault hz.1 hz.2).add h00).1
  have hr1 := (h01.add h10).1
  refine ⟨hr0.trans (congrArg (· % 3329) ?_), hr1.trans (congrArg (· % 3329) ?_)⟩ <;> ring

theorem zetaDefaultTable_getD_lt (k : Nat) : zetaDefaultTable.getD k 0 < 3329 := by
  have hall : zetaDefaultTable.all (· < 3329) = true := by rfl
  rw [List.getD_eq_getElem?_getD]
  cases h : zetaDefaultTable[k]? with
  | none => decide
  | some x => exact of_decide_eq_true (List.all_eq_true.1 hall x (List.mem_of_getElem? h))

/-- The default twiddles and their negations are in (-q, q) (I-GK4, D21). -/
theorem pairZeta_defaults_mem (k : Nat) : (pairZeta .defaults k).toInt ∈ Set.Ioo (-3329 : Int) 3329 := by
  have hlt := zetaDefaultTable_getD_lt (64 + k / 2)
  have hzeta : (zeta .defaults (64 + k / 2)).toInt = zetaDefaultTable.getD (64 + k / 2) 0 :=
    toInt_ofNat_coef (by omega)
  rw [pairZeta]
  split
  · exact ⟨by omega, by omega⟩
  · rw [toInt_wrap16_of_range (by omega) (by omega)]
    exact ⟨by omega, by omega⟩

/-! ### A base multiplier on the pairs of three slots -/

/-- ADD is exact where it does not wrap (R115). -/
theorem toInt_add16_of_range {x y : Coef} (h1 : -32768 ≤ x.toInt + y.toInt) (h2 : x.toInt + y.toInt < 32768) :
    (add16 x y).toInt = x.toInt + y.toInt :=
  toInt_wrap16_of_range h1 h2

/-- Pair k of slots a, b and c is written, and bm's product of a's pair with ADD's sum of the others is the sum of its
products with each, mod q. -/
def DistributesOnPair (bm : BaseMul) (s : State) (a b c : Slot) (k : Nat) : Prop :=
  ∃ a0 a1 b0 b1 c0 c1, s.mem.coef a (2 * k) = some a0 ∧ s.mem.coef a (2 * k + 1) = some a1 ∧
    s.mem.coef b (2 * k) = some b0 ∧ s.mem.coef b (2 * k + 1) = some b1 ∧
    s.mem.coef c (2 * k) = some c0 ∧ s.mem.coef c (2 * k + 1) = some c1 ∧
    SumModQ (bm a0 a1 (add16 b0 c0) (add16 b1 c1) (pairZeta s.collab k))
      (bm a0 a1 b0 b1 (pairZeta s.collab k)) (bm a0 a1 c0 c1 (pairZeta s.collab k))

/-- With BASEMUL_CORRECT, where b + c does not wrap (R121, R166). -/
theorem BasemulCorrect.distributesOnPair {bm : BaseMul} {scale : Nat} (hbm : BasemulCorrect bm scale) {s : State}
    {a b c : Slot} (hops : DistributiveOperands s a b c) {k : Nat} (hk : k < 128) : DistributesOnPair bm s a b c k := by
  obtain ⟨a0, b0, c0, ha0, hb0, hc0, hlo0, hhi0⟩ := hops (2 * k) (by omega)
  obtain ⟨a1, b1, c1, ha1, hb1, hc1, hlo1, hhi1⟩ := hops (2 * k + 1) (by omega)
  obtain ⟨-, hprod⟩ := hbm
  have hsum := hprod a0 a1 (add16 b0 c0) (add16 b1 c1) (pairZeta s.collab k)
  rw [toInt_add16_of_range hlo0 hhi0, toInt_add16_of_range hlo1 hhi1] at hsum
  exact ⟨a0, a1, b0, b1, c0, c1, ha0, ha1, hb0, hb1, hc0, hc1,
    ScaledProduct.sumModQ hsum (hprod a0 a1 b0 b1 _) (hprod a0 a1 c0 c1 _)⟩

/-- With the default base multiplier, for operands in [0, 4096) (I-GK3, R166). -/
theorem distributesOnPair_defaults {s : State} (hdef : s.collab = .defaults) {a b c : Slot}
    (hops : ∀ r ∈ [a, b, c], ∀ i < 256, ∃ x, s.mem.coef r i = some x ∧ 0 ≤ x.toInt ∧ x.toInt < 4096) {k : Nat}
    (hk : k < 128) : DistributesOnPair (basemul s.collab) s a b c k := by
  have hopa := hops a (by simp)
  have hopb := hops b (by simp)
  have hopc := hops c (by simp)
  obtain ⟨a0, ha0, ra0⟩ := hopa (2 * k) (by omega)
  obtain ⟨a1, ha1, ra1⟩ := hopa (2 * k + 1) (by omega)
  obtain ⟨b0, hb0, rb0⟩ := hopb (2 * k) (by omega)
  obtain ⟨b1, hb1, rb1⟩ := hopb (2 * k + 1) (by omega)
  obtain ⟨c0, hc0, rc0⟩ := hopc (2 * k) (by omega)
  obtain ⟨c1, hc1, rc1⟩ := hopc (2 * k + 1) (by omega)
  refine ⟨a0, a1, b0, b1, c0, c1, ha0, ha1, hb0, hb1, hc0, hc1, ?_⟩
  have hz := pairZeta_defaults_mem k
  have hadd0 := toInt_add16_of_range (x := b0) (y := c0) (by omega) (by omega)
  have hadd1 := toInt_add16_of_range (x := b1) (y := c1) (by omega) (by omega)
  have hsum := scaledProduct_basemulDefault (b0 := add16 b0 c0) (b1 := add16 b1 c1) ra0 ra1 ⟨by omega, by omega⟩
    ⟨by omega, by omega⟩ hz
  rw [hadd0, hadd1] at hsum
  rw [hdef]
  exact hsum.sumModQ (scaledProduct_basemulDefault ra0 ra1 ⟨rb0.1, by omega⟩ ⟨rb1.1, by omega⟩ hz)
    (scaledProduct_basemulDefault ra0 ra1 ⟨rc0.1, by omega⟩ ⟨rc1.1, by omega⟩ hz)

/-! ### The sequences of commands -/

/-- From s to t, slot d has taken the sums of b and c of s's memory, wherever both have values (R182). -/
def Adds (s t : State) (d b c : Slot) : Prop :=
  WritesSlot s t d (List.zipWith (lift2 add16) (s.now.srcPoly b) (s.now.srcPoly c))

theorem runNow_adds {s : State} {d b c : Slot} (hw : (Instr.add d b c).wf s.npoly = true) :
    ∃ t, runNow (.add d b c) s = .next t ∧ Adds s t d b c := by
  obtain ⟨t, ht, hres⟩ := State.command_writesSlot (s := s.now) hw d
    (fun s => List.zipWith (lift2 add16) (s.srcPoly b) (s.srcPoly c)) (by simp)
  exact ⟨t, ht, hres.npoly_eq, hres.collab_eq, hres.coef_eq, hres.coef_other⟩

theorem Adds.coef_eq {s t : State} {d b c : Slot} (h : Adds s t d b c) {i : Nat} (hi : i < 256) {x y : Coef}
    (hx : s.mem.coef b i = some x) (hy : s.mem.coef c i = some y) : t.mem.coef d i = some (add16 x y) :=
  WritesSlot.coef_eq h (getElem?_zipWith_add16 ((s.now.getElem?_srcPoly b hi).trans (congrArg some hx))
    ((s.now.getElem?_srcPoly c hi).trans (congrArg some hy)))

/-- Products depend on the coefficients of their two slots and on the twiddles alone (R162). -/
theorem State.products_congr {s t : State} (hc : t.collab = s.collab) {a b : Slot}
    (ha : ∀ i < 256, t.snap.coef a i = s.snap.coef a i) (hb : ∀ i < 256, t.snap.coef b i = s.snap.coef b i)
    (bm : BaseMul) : t.products bm a b = s.products bm a b := by
  have hreq : t.bmRequests a b = s.bmRequests a b := by
    refine List.map_congr_left fun k hk => ?_
    have hk' := List.mem_range.1 hk
    rw [State.bmRequest, ha _ (by omega), ha _ (by omega), hb _ (by omega), hb _ (by omega), hc, State.bmRequest]
  rw [State.products, hreq, State.products]

/-- After ADD, each product of a with d is the sum of those of a with b and with c, mod q (R166). -/
theorem Adds.products_sum {bm : BaseMul} {s t : State} {a b c d : Slot} (hadd : Adds s t d b c) (hda : d ≠ a)
    (hpairs : ∀ k < 128, DistributesOnPair bm s a b c k) {i : Nat} (hi : i < 256) :
    ∃ x y z, (t.now.products bm a d)[i]? = some (some x) ∧ (s.now.products bm a b)[i]? = some (some y) ∧
      (s.now.products bm a c)[i]? = some (some z) ∧ x.toInt % 3329 = (y.toInt + z.toInt) % 3329 := by
  obtain ⟨k, hik⟩ := i.even_or_odd'
  have hk : k < 128 := by omega
  obtain ⟨a0, a1, b0, b1, c0, c1, ha0, ha1, hb0, hb1, hc0, hc1, hsum0, hsum1⟩ := hpairs k hk
  obtain ⟨hy0, hy1⟩ := State.products_of_written (s := s.now) (bm := bm) hk ha0 ha1 hb0 hb1
  obtain ⟨hz0, hz1⟩ := State.products_of_written (s := s.now) (bm := bm) hk ha0 ha1 hc0 hc1
  obtain ⟨hx0, hx1⟩ := State.products_of_written (s := t.now) (bm := bm) hk
    ((hadd.coef_other hda (by omega)).trans ha0) ((hadd.coef_other hda (by omega)).trans ha1)
    (hadd.coef_eq (by omega) hb0 hc0) (hadd.coef_eq (by omega) hb1 hc1)
  rw [show t.now.collab = s.collab from hadd.collab_eq] at hx0 hx1
  obtain rfl | rfl := hik
  · exact ⟨_, _, _, hx0, hy0, hz0, hsum0⟩
  · exact ⟨_, _, _, hx1, hy1, hz1, hsum1⟩

section Sequences

variable {bm : BaseMul} {s : State} {a b c d e : Slot} (hs : ∀ r ∈ [a, b, c, d, e], r.toNat < s.npoly) (hda : d ≠ a)
  (hpairs : ∀ k < 128, DistributesOnPair bm s a b c k)

include hs hda hpairs

theorem pmulDistributes_of_pairs : PmulDistributes bm s a b c d e := by
  obtain ⟨t, ht, hadd⟩ := runNow_adds (wf_of_slots_subset (i := .add d b c) hs (by simp [Instr.slots]))
  obtain ⟨u, hu, hmul⟩ := State.pmulWith_writesSlot (s := t.now)
    (wf_of_slots_subset (i := .pmul e a d) (hadd.npoly_eq ▸ hs) (by simp [Instr.slots])) bm
  obtain ⟨ub, hub, hmulb⟩ := State.pmulWith_writesSlot (s := s.now)
    (wf_of_slots_subset (i := .pmul e a b) hs (by simp [Instr.slots])) bm
  obtain ⟨uc, huc, hmulc⟩ := State.pmulWith_writesSlot (s := s.now)
    (wf_of_slots_subset (i := .pmul e a c) hs (by simp [Instr.slots])) bm
  refine ⟨t, u, ub, uc, ht, hu, hub, huc, fun i hi => ?_⟩
  obtain ⟨x, y, z, hx, hy, hz, hsum⟩ := hadd.products_sum hda hpairs hi
  refine ⟨x, y, z, hmul.coef_eq hx, hmulb.coef_eq hy, hmulc.coef_eq hz, hsum, fun hlo hhi => ?_⟩
  rw [toInt_add16_of_range hlo hhi, hsum]

theorem pmacDistributes_of_pairs (hea : e ≠ a) (hec : e ≠ c) (hed : e ≠ d) : PmacDistributes bm s a b c d e := by
  obtain ⟨t, ht, hadd⟩ := runNow_adds (wf_of_slots_subset (i := .add d b c) hs (by simp [Instr.slots]))
  obtain ⟨v, hv, hacc⟩ := State.pmacWith_accumulates (s := t.now)
    (wf_of_slots_subset (i := .pmac e a d) (hadd.npoly_eq ▸ hs) (by simp [Instr.slots])) bm
  obtain ⟨w1, hw1, hacc1⟩ := State.pmacWith_accumulates (s := s.now)
    (wf_of_slots_subset (i := .pmac e a b) hs (by simp [Instr.slots])) bm
  obtain ⟨w2, hw2, hacc2⟩ := State.pmacWith_accumulates (s := w1.now)
    (wf_of_slots_subset (i := .pmac e a c) (hacc1.npoly_eq ▸ hs) (by simp [Instr.slots])) bm
  refine ⟨t, v, w1, w2, ht, hv, hw1, hw2, fun i hi r hr => ?_⟩
  obtain ⟨x, y, z, hx, hy, hz, hsum⟩ := hadd.products_sum hda hpairs hi
  have hsame : w1.now.products bm a c = s.now.products bm a c :=
    State.products_congr (s := s.now) (t := w1.now) hacc1.collab_eq (fun _ => hacc1.coef_other hea)
      (fun _ => hacc1.coef_other hec) bm
  have hv' := hacc.coef_eq hi ((hadd.coef_other hed.symm hi).trans hr) hx
  have hw1' := hacc1.coef_eq hi hr hy
  have hw2' := hacc2.coef_eq hi hw1' (hsame ▸ hz)
  refine ⟨x, y, z, _, _, hx, hy, hz, hv', hw2', fun hx0 hx1 hy0 hy1 hz0 hz1 => ?_⟩
  have hry := toInt_add16_of_range hy0 hy1
  rw [toInt_add16_of_range hx0 hx1, toInt_add16_of_range (by omega) (by omega), hry]
  omega

end Sequences

/-- Settles O19: a base multiplier with BASEMUL_CORRECT, and the default one on small operands, distribute on each
pair, and so do the commands. -/
theorem pmulDistributesOverAdd : Obligations.PmulDistributesOverAdd := by
  refine ⟨fun s rd rs1 rs2 => ⟨rfl, rfl⟩, fun bm scale hbm s a b c d e hs hda hops => ?_,
    fun s a b c d e hdef hs hda hops => ?_⟩
  · have hpairs : ∀ k < 128, DistributesOnPair bm s a b c k := fun k hk => hbm.distributesOnPair hops hk
    exact ⟨pmulDistributes_of_pairs hs hda hpairs,
      fun hea hec hed _ => pmacDistributes_of_pairs hs hda hpairs hea hec hed⟩
  · exact pmulDistributes_of_pairs hs hda fun k hk => distributesOnPair_defaults hdef hops hk

end Sys2Proof.Machine
end

section
/-! REDUCE, CSUBQ, ADD and SUB (R180 to R183): the commands that compute result i from coefficient i of their sources
alone. -/

namespace Sys2Proof.Machine

/-! ### Commands coefficient by coefficient -/

/-- A result has a value where both operands of its index have one (R35, R182). -/
theorem getElem?_zipWith_lift2 {α β γ : Type} (f : α → β → γ) {l : List (Option α)} {m : List (Option β)} {i : Nat}
    {x : α} {y : β} (hx : l[i]? = some (some x)) (hy : m[i]? = some (some y)) :
    (List.zipWith (lift2 f) l m)[i]? = some (some (f x y)) := by
  rw [List.getElem?_zipWith, hx, hy]
  rfl

section Coefficientwise

variable {i : Instr} {s : State} {rd rs1 rs2 : Slot} (hw : i.wf s.npoly = true)
  (hr : resultRange i = some (slotBase rd.toNat, 512))

include hw hr

/-- A command that writes slot rd alone completes, and leaves the memory outside rd as it was (R59, R101, R103). -/
theorem completes_writing_slot (cs : State → List (Option Coef)) (hl : (cs s).length = 256)
    (hexec : exec i s = s.command i fun s => s.dstPoly rd (cs s)) :
    ∃ t, Completes i s t ∧ SameOutside s.mem t.mem (slotBase rd.toNat) 512 ∧ WritesSlot s t rd (cs s) := by
  obtain ⟨t, ht, hres⟩ := State.command_writesSlot hw rd cs hl
  have hnext := hexec.trans ht
  exact ⟨t, completes_of_wf hw hnext, exec_sameOutside hw hnext hr, hres⟩

/-- REDUCE's and CSUBQ's shape: f of each written coefficient of rs1. -/
theorem completes_mapping_slot (f : State → Coef → Coef)
    (hexec : exec i s = s.command i fun s => s.dstPoly rd ((s.srcPoly rs1).map (Option.map (f s)))) :
    ∃ t, Completes i s t ∧ SameOutside s.mem t.mem (slotBase rd.toNat) 512 ∧
      ∀ k < 256, ∀ x, s.snap.coef rs1 k = some x → t.mem.coef rd k = some (f s x) := by
  obtain ⟨t, hcomp, hout, hres⟩ := completes_writing_slot hw hr _ (by simp) hexec
  exact ⟨t, hcomp, hout, fun k hk x hx => hres.coef_eq (by simp [s.getElem?_srcPoly rs1 hk, hx])⟩

/-- ADD's and SUB's shape: f of each two written coefficients of rs1 and rs2. -/
theorem completes_combining_slots (f : Coef → Coef → Coef)
    (hexec : exec i s =
      s.command i fun s => s.dstPoly rd (List.zipWith (lift2 f) (s.srcPoly rs1) (s.srcPoly rs2))) :
    ∃ t, Completes i s t ∧ SameOutside s.mem t.mem (slotBase rd.toNat) 512 ∧
      ∀ k < 256, ∀ x y, s.snap.coef rs1 k = some x → s.snap.coef rs2 k = some y →
        t.mem.coef rd k = some (f x y) := by
  obtain ⟨t, hcomp, hout, hres⟩ := completes_writing_slot hw hr _ (by simp) hexec
  refine ⟨t, hcomp, hout, fun k hk x y hx hy => hres.coef_eq (getElem?_zipWith_lift2 f ?_ ?_)⟩
  · rw [s.getElem?_srcPoly rs1 hk, hx]
  · rw [s.getElem?_srcPoly rs2 hk, hy]

end Coefficientwise

/-! ### BARRETT and CSUBQ -/

/-- BARRETT's range is within csubq's [0, 2q), so CSUBQ after REDUCE is the canonical residue (R111, R180). -/
theorem toInt_csubq_barrett (c : Collab) (x : Coef) : (csubq (barrett c x)).toInt = x.toInt % 3329 := by
  obtain ⟨hcongr, hlo, hhi⟩ := barrettContract_barrett c x
  rw [toInt_csubq]
  split <;> omega

/-! ### The four commands -/

/-- Settles O33: each coefficient is BARRETT's answer, within BARRETT's contract. -/
theorem reduceAppliesBarrett : Obligations.ReduceAppliesBarrett := by
  refine ⟨wordEvents (.reduce 0 0), fun rd rs1 => ⟨toNat_encode (.reduce rd rs1), fun s hd hs => ?_⟩, by decide⟩
  have hw : (Instr.reduce rd rs1).wf s.npoly = true := by simp [Instr.wf, Instr.slots, hd, hs]
  obtain ⟨t, hcomp, hout, hcoef⟩ := completes_mapping_slot (rs1 := rs1) hw rfl (fun s => barrett s.collab) rfl
  refine ⟨t, hcomp, hout, fun i hi x hx => ?_⟩
  obtain ⟨hcongr, hlo, hhi⟩ := barrettContract_barrett s.collab x
  exact ⟨_, hcoef i hi x hx, rfl, hlo, hhi, hcongr, toInt_csubq_barrett s.collab x⟩

/-- Settles O34: each coefficient is csubq's answer. -/
theorem csubqSubtractsOnce : Obligations.CsubqSubtractsOnce := by
  refine ⟨wordEvents (.csubq 0 0), fun rd rs1 => ⟨toNat_encode (.csubq rd rs1), fun s hd hs => ?_⟩⟩
  have hw : (Instr.csubq rd rs1).wf s.npoly = true := by simp [Instr.wf, Instr.slots, hd, hs]
  obtain ⟨t, hcomp, hout, hcoef⟩ := completes_mapping_slot (rs1 := rs1) hw rfl (fun _ => csubq) rfl
  exact ⟨t, hcomp, hout, fun i hi x hx => ⟨_, hcoef i hi x hx, toInt_csubq x⟩⟩

/-- Settles O35: the adder's sum of each two coefficients. -/
theorem addWrapsWithoutReduction : Obligations.AddWrapsWithoutReduction := by
  refine ⟨wordEvents (.add 0 0 0), fun rd rs1 rs2 => ⟨toNat_encode (.add rd rs1 rs2), fun s hd hs1 hs2 => ?_⟩⟩
  have hw : (Instr.add rd rs1 rs2).wf s.npoly = true := by simp [Instr.wf, Instr.slots, hd, hs1, hs2]
  exact completes_combining_slots hw rfl add16 rfl

/-- Settles O36: the subtractor's difference of each two coefficients. -/
theorem subWrapsWithoutReduction : Obligations.SubWrapsWithoutReduction := by
  refine ⟨wordEvents (.sub 0 0 0), fun rd rs1 rs2 => ⟨toNat_encode (.sub rd rs1 rs2), fun s hd hs1 hs2 => ?_⟩⟩
  have hw : (Instr.sub rd rs1 rs2).wf s.npoly = true := by simp [Instr.wf, Instr.slots, hd, hs1, hs2]
  exact completes_combining_slots hw rfl sub16 rfl

end Sys2Proof.Machine
end

section
/-! TOMSG and FROMMSG (R190 to R192): msgbit of a canonical coefficient and of a bit embedded with noise, what each
command leaves in memory, and a message that goes through both. -/

namespace Sys2Proof.Machine

/-! ### msgbit -/

theorem msgbit_lt (x : Coef) : msgbit x < 2 := Nat.mod_lt _ (by decide)

theorem canonU_of_canonical {c : Coef} (hc : Canonical c) : (canonU c : Int) = c.toInt := by
  obtain ⟨h0, h1⟩ := hc
  rw [canonU_eq, if_neg (by omega), if_neg (by omega)]

/-- The canonical coefficients nearer to q/2 than to 0 and to q decode to 1 (R190). -/
theorem msgbit_eq_one_iff {c : Coef} (hc : Canonical c) : msgbit c = 1 ↔ 833 ≤ c.toInt ∧ c.toInt ≤ 2496 := by
  have hu := canonU_of_canonical hc
  obtain ⟨h0, h1⟩ := hc
  rw [msgbit]
  omega

theorem toInt_wrap16_emod (v : Int) : (wrap16 (v % 3329)).toInt = v % 3329 :=
  toInt_wrap16_of_range (by omega) (by omega)

theorem canonical_wrap16_emod (v : Int) : Canonical (wrap16 (v % 3329)) := by
  rw [Canonical, toInt_wrap16_emod]
  omega

/-- msgbit of the canonical residue of any integer. -/
theorem msgbit_wrap16_emod_eq_one_iff (v : Int) :
    msgbit (wrap16 (v % 3329)) = 1 ↔ 833 ≤ v % 3329 ∧ v % 3329 ≤ 2496 := by
  rw [msgbit_eq_one_iff (canonical_wrap16_emod v), toInt_wrap16_emod]

/-- In [0, 2q) TOMSG's own csubq finds the canonical residue (R111, R190). -/
theorem msgbit_wrap16_emod {v : Int} (h0 : 0 ≤ v) (h1 : v < 6658) :
    msgbit (wrap16 v) = msgbit (wrap16 (v % 3329)) := by
  have hv : (wrap16 v).toInt = v := toInt_wrap16_of_range (by omega) (by omega)
  have hu : canonU (wrap16 v) = canonU (wrap16 (v % 3329)) := by
    have hcanon := canonU_of_canonical (canonical_wrap16_emod v)
    rw [toInt_wrap16_emod] at hcanon
    have hval := canonU_eq (wrap16 v)
    rw [hv, if_neg (by omega)] at hval
    split at hval <;> omega
  rw [msgbit, hu, msgbit]

/-- A negative coefficient is not reduced: csubq leaves it, and it is read as unsigned (R113). -/
theorem msgbit_of_neg {x : Coef} (h : x.toInt < 0) :
    msgbit x = ((x.toInt + 65536).toNat * 2 + 1664) / 3329 % 2 := by
  have hu := canonU_eq x
  rw [if_pos h] at hu
  rw [msgbit, show canonU x = (x.toInt + 65536).toNat by omega]

/-! ### A bit embedded with noise (R192) -/

/-- The coefficient FROMMSG embeds a bit as: 0 or (q + 1)/2 (R191). -/
def bitCoef (bit : Bool) : Coef := if bit = true then 1665#16 else 0#16

theorem msgbit_bitCoef (bit : Bool) : decide (msgbit (bitCoef bit) = 1) = bit := by
  cases bit <;> decide

/-- A 1 survives noise e exactly for e in [-832, 831]. -/
theorem msgbit_one_noise_iff {e : Int} (h0 : -1664 ≤ e) (h1 : e ≤ 1664) :
    msgbit (wrap16 ((1665 + e) % 3329)) = 1 ↔ -832 ≤ e ∧ e ≤ 831 := by
  rw [msgbit_wrap16_emod_eq_one_iff]
  omega

/-- A 0 survives noise e exactly for e in [-832, 832]. -/
theorem msgbit_zero_noise_iff {e : Int} (h0 : -1664 ≤ e) (h1 : e ≤ 1664) :
    msgbit (wrap16 (e % 3329)) = 0 ↔ -832 ≤ e ∧ e ≤ 832 := by
  have hone := msgbit_wrap16_emod_eq_one_iff e
  have hlt := msgbit_lt (wrap16 (e % 3329))
  omega

/-- Settles O22: msgbit decides on the canonical residue for coefficients in [0, 2q), and on x + 65536 for negative
ones. -/
theorem messageBitNoiseTolerance : Obligations.MessageBitNoiseTolerance :=
  ⟨fun _ hc => msgbit_eq_one_iff hc,
    fun _ h0 h1 => ⟨msgbit_one_noise_iff h0 h1, msgbit_zero_noise_iff h0 h1⟩,
    fun _ h0 h1 => msgbit_wrap16_emod (by omega) (by omega),
    fun _ hx => msgbit_of_neg hx, by decide⟩

/-- Noise in [-832, 831] that ADD puts on an embedded bit is gone from the bit read back from the canonical residue,
whichever the bit is. -/
theorem msgbit_noisy_bitCoef (bit : Bool) {x : Coef} (h0 : -832 ≤ x.toInt) (h1 : x.toInt ≤ 831) :
    decide (msgbit (wrap16 ((add16 (bitCoef bit) x).toInt % 3329)) = 1) = bit := by
  have hbit : 0 ≤ (bitCoef bit).toInt ∧ (bitCoef bit).toInt ≤ 1665 := by cases bit <;> decide
  rw [toInt_add16_of_range (by omega) (by omega)]
  cases bit with
  | false =>
    rw [show (bitCoef false).toInt = 0 from rfl, Int.zero_add,
      (msgbit_zero_noise_iff (by omega) (by omega)).2 ⟨h0, by omega⟩]
    rfl
  | true =>
    rw [show (bitCoef true).toInt = 1665 from rfl, (msgbit_one_noise_iff (by omega) (by omega)).2 ⟨h0, h1⟩]
    rfl

/-! ### The bits of a byte -/

/-- Bit j of a packed byte is msgbit of coefficient j (R190). -/
theorem getLsbD_packMessage (c : Nat → Coef) {j : Nat} (hj : j < 8) :
    (packMessage (c 0) (c 1) (c 2) (c 3) (c 4) (c 5) (c 6) (c 7)).getLsbD j = decide (msgbit (c j) = 1) := by
  have h0 := msgbit_lt (c 0)
  have h1 := msgbit_lt (c 1)
  have h2 := msgbit_lt (c 2)
  have h3 := msgbit_lt (c 3)
  have h4 := msgbit_lt (c 4)
  have h5 := msgbit_lt (c 5)
  have h6 := msgbit_lt (c 6)
  have h7 := msgbit_lt (c 7)
  rw [packMessage, BitVec.getLsbD_ofNat, decide_eq_true hj, Bool.true_and, Nat.testBit_eq_decide_div_mod_eq]
  congr 2
  interval_cases j <;> omega

/-- The mask 0 or -1 of a bit keeps nothing or all of 1665 (R191). -/
theorem messageCoef_eq (b : Byte) (j : Nat) : messageCoef b j = bitCoef (b.getLsbD j) := by
  rw [messageCoef, BitVec.getLsbD, Nat.testBit_eq_decide_div_mod_eq]
  obtain hbit | hbit : b.toNat / 2 ^ j % 2 = 0 ∨ b.toNat / 2 ^ j % 2 = 1 := by omega
  · rw [hbit]; decide
  · rw [hbit]; decide

/-! ### What the commands leave in memory -/

theorem tomsg_wf {r : Slot} {npoly : Nat} (h : r.toNat < npoly) : (Instr.tomsg r).wf npoly = true := by
  simp [Instr.wf, Instr.slots, h]

theorem frommsg_wf {r : Slot} {npoly : Nat} (h : r.toNat < npoly) : (Instr.frommsg r).wf npoly = true := by
  simp [Instr.wf, Instr.slots, h]

/-- BUF of n holds the message bits of slot r of m, each byte where its eight coefficients are written (R35, R190). -/
def MessageFrom (m : Memory) (r : Slot) (n : Memory) : Prop :=
  ∀ k < 32, ∀ c : Nat → Coef, (∀ j < 8, m.coef r (8 * k + j) = some (c j)) →
    ∃ b, n.read (bufBase + k) = some b ∧ ∀ j < 8, b.getLsbD j = decide (msgbit (c j) = 1)

/-- From s to t, slot r has taken the coefficients of the message in BUF of s's snapshot (R191). -/
def Embeds (s t : State) (r : Slot) : Prop := WritesSlot s t r (messageCoefs (s.srcBuf 32))

theorem exec_tomsg_message {r : Slot} {s : State} (h : r.toNat < s.npoly) :
    ∃ t, exec (.tomsg r) s = .next t ∧ MessageFrom s.snap r t.mem := by
  refine ⟨_, State.command_dstBuf (tomsg_wf h) fun s => messageBytes (s.srcPoly r), fun k hk c hc => ?_⟩
  have hbyte : (messageBytes (s.srcPoly r))[k]? = _ :=
    getElem?_messageBytes fun j hj => by rw [s.getElem?_srcPoly r (by omega), hc j hj]
  exact ⟨_, s.read_dstBuf_of_some hbyte, fun j hj => getLsbD_packMessage c hj⟩

theorem exec_frommsg_embeds {r : Slot} {s : State} (h : r.toNat < s.npoly) :
    ∃ t, exec (.frommsg r) s = .next t ∧ Embeds s t r :=
  State.command_writesSlot (frommsg_wf h) r (fun s => messageCoefs (s.srcBuf 32))
    (by rw [length_messageCoefs, State.length_srcBuf])

theorem Embeds.coef_eq {s t : State} {r : Slot} (h : Embeds s t r) {k : Nat} (hk : k < 32) {b : Byte}
    (hb : s.snap.read (bufBase + k) = some b) {j : Nat} (hj : j < 8) :
    t.mem.coef r (8 * k + j) = some (bitCoef (b.getLsbD j)) := by
  rw [← messageCoef_eq]
  exact WritesSlot.coef_eq h (by rw [getElem?_messageCoefs (s.getElem?_srcBuf hk) hj, hb]; rfl)

/-- A byte whose bits are the message bits of the eight coefficients is the byte TOMSG writes. -/
theorem MessageFrom.read_eq {m n : Memory} {r : Slot} (h : MessageFrom m r n) {k : Nat} (hk : k < 32) {b : Byte}
    (hbits : ∀ j < 8, ∃ x, m.coef r (8 * k + j) = some x ∧ decide (msgbit x = 1) = b.getLsbD j) :
    n.read (bufBase + k) = some b := by
  choose! c hcoef hbit using hbits
  obtain ⟨b', hread, hb'⟩ := h k hk c hcoef
  rw [hread, BitVec.eq_of_getLsbD_eq fun j hj => (hb' j hj).trans (hbit j hj)]

/-! ### The two commands -/

/-- Settles O37: bit j of each byte is msgbit of coefficient j of its eight. -/
theorem tomsgDecodesOneBitPerCoefficient : Obligations.TomsgDecodesOneBitPerCoefficient := by
  refine ⟨wordEvents (.tomsg 0), fun r => ⟨toNat_encode (.tomsg r), fun s hr => ?_⟩⟩
  obtain ⟨t, ht, hmessage⟩ := exec_tomsg_message hr
  exact ⟨t, completes_of_wf (tomsg_wf hr) ht, exec_sameOutside (tomsg_wf hr) ht rfl, hmessage⟩

/-- Settles O38: each bit of each byte is embedded as its coefficient. -/
theorem frommsgEmbedsOneBitPerCoefficient : Obligations.FrommsgEmbedsOneBitPerCoefficient := by
  refine ⟨wordEvents (.frommsg 0), fun r => ⟨toNat_encode (.frommsg r), fun s hr => ?_⟩⟩
  obtain ⟨t, ht, hembeds⟩ := exec_frommsg_embeds hr
  exact ⟨t, completes_of_wf (frommsg_wf hr) ht, exec_sameOutside (frommsg_wf hr) ht rfl,
    fun k hk b hb j hj => hembeds.coef_eq hk hb hj⟩

/-! ### A message through both commands (R192) -/

/-- Settles O43: TOMSG reads each embedded bit back. -/
theorem messageRoundTripWithoutNoise : Obligations.MessageRoundTripWithoutNoise := by
  intro s r hr hmsg
  obtain ⟨t, ht, hembeds⟩ := exec_frommsg_embeds (s := s.now) hr
  obtain ⟨u, hu, hmessage⟩ := exec_tomsg_message (s := t.now) (hr.trans_eq (exec_npoly ht).symm)
  refine ⟨t, u, ht, hu, fun k hk => ?_⟩
  obtain ⟨b, hb⟩ := Option.isSome_iff_exists.1 (hmsg k hk)
  rw [hb]
  exact hmessage.read_eq hk fun j hj => ⟨_, hembeds.coef_eq hk hb hj, msgbit_bitCoef _⟩

theorem runNow_npoly {i : Instr} {s t : State} (h : runNow i s = .next t) : t.npoly = s.npoly :=
  exec_npoly (s := s.now) h

/-- CSUBQ after REDUCE is the canonical residue, whatever BARRETT is attached (R180). -/
theorem csubq_barrett_eq (c : Collab) (x : Coef) : csubq (barrett c x) = wrap16 (x.toInt % 3329) :=
  BitVec.eq_of_toInt_eq (by rw [toInt_csubq_barrett, toInt_wrap16_emod])

/-- REDUCE and CSUBQ of a slot in place leave its canonical residues (R180, R181). -/
theorem runNow_reduce_csubq {s : State} {r : Slot} (hr : r.toNat < s.npoly) :
    ∃ t u, runNow (.reduce r r) s = .next t ∧ runNow (.csubq r r) t = .next u ∧ u.npoly = s.npoly ∧
      ∀ i < 256, ∀ x, s.mem.coef r i = some x → u.mem.coef r i = some (wrap16 (x.toInt % 3329)) := by
  have hw : ∀ r' ∈ [r, r], r'.toNat < s.npoly := by simp [hr]
  obtain ⟨t, ⟨ht, -⟩, -, hreduced⟩ := completes_mapping_slot (s := s.now) (i := .reduce r r) (rs1 := r)
    (wf_of_slots_subset hw (List.Subset.refl _)) rfl (fun s => barrett s.collab) rfl
  have hnt : t.npoly = s.npoly := runNow_npoly ht
  obtain ⟨u, ⟨hu, -⟩, -, hsub⟩ := completes_mapping_slot (s := t.now) (i := .csubq r r) (rs1 := r)
    (wf_of_slots_subset (hnt ▸ hw) (List.Subset.refl _)) rfl (fun _ => csubq) rfl
  refine ⟨t, u, ht, hu, (runNow_npoly hu).trans hnt, fun i hi x hx => ?_⟩
  rw [← csubq_barrett_eq s.collab]
  exact hsub i hi _ (hreduced i hi x hx)

/-- Settles O44: reduction brings bit and noise to the canonical residue, where the noise is within tolerance. -/
theorem noisyMessageIsRecovered : Obligations.NoisyMessageIsRecovered := by
  intro s r e hr he hne hmsg hnoise
  obtain ⟨t1, h1, hembeds⟩ := exec_frommsg_embeds (s := s.now) hr
  have hn1 : t1.npoly = s.npoly := runNow_npoly h1
  have hw : ∀ r' ∈ [r, r, e], r'.toNat < t1.npoly := by simp [hn1, hr, he]
  obtain ⟨t2, h2, hadds⟩ := runNow_adds (wf_of_slots_subset hw (i := .add r r e) (List.Subset.refl _))
  have hn2 : t2.npoly = s.npoly := (runNow_npoly h2).trans hn1
  obtain ⟨t3, t4, h3, h4, hn4, hcanon⟩ := runNow_reduce_csubq (hr.trans_eq hn2.symm)
  obtain ⟨u, h5, hmessage⟩ := exec_tomsg_message (s := t4.now) (hr.trans_eq (hn4.trans hn2).symm)
  refine ⟨t1, t2, t3, t4, u, h1, h2, h3, h4, h5, fun k hk => ?_⟩
  obtain ⟨b, hb⟩ := Option.isSome_iff_exists.1 (hmsg k hk)
  rw [hb]
  refine hmessage.read_eq hk fun j hj => ?_
  have hi : 8 * k + j < 256 := by omega
  obtain ⟨x, hx, hx0, hx1⟩ := hnoise (8 * k + j) hi
  have hx' : t1.mem.coef e (8 * k + j) = some x := (WritesSlot.coef_other hembeds hne hi).trans hx
  have hsum := hadds.coef_eq hi (hembeds.coef_eq hk hb hj) hx'
  exact ⟨_, hcanon _ hi _ hsum, msgbit_noisy_bitCoef _ hx0 hx1⟩

end Sys2Proof.Machine
end

section
/-! NOP (R200): its word, and what its acceptance and its completion leave. -/

namespace Sys2Proof.Machine

theorem encode_nop : encode .nop = 0 := by decide

/-- The word 0 is legal for every NPOLY, as NOP names no slot (R84, R200). -/
theorem decode_zero (npoly : Nat) : decode npoly 0 = .cmd .nop :=
  decode_eq_cmd_iff.2 ⟨encode_nop ▸ decodeWord_encode .nop, rfl⟩

/-- NOP's answer is a completion and nothing else (R103, R200). -/
theorem exec_nop (s : State) : exec .nop s = .next s.finish :=
  State.command_of_wf (i := .nop) (f := id) rfl

/-- Settles O23: the word 0 is accepted with no request, and the completion has no result to write. -/
theorem nopOnlyCompletes : Obligations.NopOnlyCompletes :=
  ⟨wordEvents .nop, encode_nop, fun s hb => State.cmdWrite_of_legal hb (decode_zero s.npoly), exec_nop⟩

end Sys2Proof.Machine
end

section
/-! The two resets (R28, R34, R240 to R242) and the command that names a missing slot (R84, R211). -/

namespace Sys2Proof.Machine

/-! ### A command of a missing slot -/

/-- Settles O40: of all that exec can answer, only ILL is left to a command the block does not have. -/
theorem missingSlotRaisesIll : Obligations.MissingSlotRaisesIll := by
  intro i s hw
  obtain ⟨-, hill⟩ | ⟨hwf, -⟩ | ⟨hwf, -⟩ | ⟨hwf, -⟩ := exec_cases i s
  · exact hill
  all_goals simp [hw] at hwf

/-! ### Soft reset -/

/-- Settles O50: the CTRL register's write without SRST, with it while BUSY, and with it while idle, where the reset
overrides the same write's IE; in each case the other two clauses ask for another SRST or BUSY. -/
theorem ctrlWriteAndSoftReset : Obligations.CtrlWriteAndSoftReset := by
  intro s r hs ha hw
  have hacc : s.access r = (s.ctrlWrite r.wdata).respond 0 false :=
    State.access_registerWrite (reg := .ctrl) hs (congrArg some ha.symm) hw
  rw [hacc]
  obtain ⟨hbit, h⟩ | ⟨hbit, hb, h⟩ | ⟨hbit, hb, h⟩ := s.ctrlWrite_cases r.wdata <;> rw [h, hbit]
  · exact ⟨fun _ => rfl, nofun, nofun⟩
  · exact ⟨nofun, fun _ hidle => absurd (hidle.symm.trans hb) Bool.false_ne_true, fun _ _ => rfl⟩
  · exact ⟨nofun, fun _ _ => rfl, fun _ hbusy => absurd (hb.symm.trans hbusy) Bool.false_ne_true⟩

/-! ### Hardware reset -/

/-- A change of rst_n is taken at either level of the line (R240). -/
theorem step_rst {s : State} {level : Bool} {ms : List Move} (hm : s.moves = .rst level :: ms) :
    step s = .next (s.tick.setRst level) := by
  unfold step State.advance
  cases s.rstN <;> simp [hm, State.move, State.moveInReset]

/-- While rst_n = 0 every move but one of the line itself passes without effect (R240). -/
theorem step_of_rst_low {s : State} (hr : s.rstN = false) (hm : ∀ level, s.moves.head? ≠ some (.rst level)) :
    step s = .next s.tick := by
  unfold step State.advance
  cases hms : s.moves with
  | nil => simp [hr]
  | cons m ms =>
    have hkept : s.tick.moveInReset m = s.tick := by
      cases m with
      | rst level => simp [hms] at hm
      | _ => rfl
    simp [hr, hkept]

/-- The release of rst_n after a reset leaves the reset state, with the block's own parameters (R34, R242). -/
theorem State.setRst_true_hwReset (s : State) :
    s.hwReset.tick.setRst true = { State.reset with
      slotsM1 := s.slotsM1, collab := s.collab, moves := s.moves.tail, freeIx := s.freeIx } := rfl

/-- Nothing happens to an idle block by itself (R242). -/
theorem step_reset : step State.reset = .next State.reset :=
  step_eq_sequence rfl (.inl rfl)

/-- Settles O53: the two steps of the pulse, any step while the line is low, and the words of the reset state. -/
theorem hardwareResetGivesTheResetState : Obligations.HardwareResetGivesTheResetState := by
  refine ⟨fun s ms hm => ?_, fun s hr hm => step_of_rst_low hr hm, by decide, by decide, rfl, rfl, by decide, rfl,
    Memory.read_nil, step_reset⟩
  have htick : s.tick.moves = .rst true :: ms := by simp [hm]
  refine ⟨s.tick.hwReset, s.tick.hwReset.tick.setRst true, step_rst hm, step_rst htick, rfl, rfl, rfl, rfl, ?_⟩
  rw [State.setRst_true_hwReset, htick]
  rfl

end Sys2Proof.Machine
end
